-- ==== Sys2Proof/Word.lean ====
section
/-! DEFINITION. The word types of the block, at the port widths of spec/00_scope.md rule R9. -/

namespace Sys2Proof

/-- A byte is 8 bits (R10). Bytes are what the wire, the feature registers and the host buffer hold. -/
abbrev Byte := BitVec 8

/-- A logical address as it stands at the host port: `ADDR_W` is 32 bits (R9). -/
abbrev LogicalAddress := BitVec 32

/-- The packed host request `req[95:0]` (R81). -/
abbrev RequestWord := BitVec 96

end Sys2Proof
end

