-- ==== Sys2Proof/Config.lean ====
section
/-! DEFINITION. What an implementation fixes, and the free values.

The parameters the document fixes (spec/00_scope.md R6, R7), the configuration record `cfg` it leaves to the
implementation (R8), and the constants WITHOUT A BODY that stand for what the spec leaves open: the open fields of
`cfg`, the answers of the transport (spec/20_memory.md R63) and the unspecified bytes and registers. -/

namespace Sys2Proof

/-- A poll configuration: `maxAttempts` loop iterations, `interPollDelay` milliseconds before each (R8). -/
structure PollCfg where
  maxAttempts    : Nat
  interPollDelay : Nat
  deriving DecidableEq, Repr, Inhabited

/-- The configuration `cfg` (R8): constant for the life of the model, written by no operation (R31). -/
structure Cfg where
  /-- `cfg.T_POR_MS`, the power-on-reset time in milliseconds. -/
  tPorMs     : Nat
  /-- `cfg.POLL_RESET`, the bound of the poll inside `RESET`. -/
  pollReset  : PollCfg
  /-- `cfg.POLL_READ`, the bound of the poll inside `PAGE_READ`. -/
  pollRead   : PollCfg
  /-- `cfg.POLL_PGM`, the bound of the poll inside `PAGE_PROGRAM`. -/
  pollPgm    : PollCfg
  /-- `cfg.POLL_ERS`, the bound of the poll inside `BLOCK_ERASE`. -/
  pollErs    : PollCfg
  /-- `cfg.PLANE_IN_COL`, whether the plane bit stands at bit 12 of the column word. -/
  planeInCol : Bool
  /-- `cfg.DUMMY`, the value of every dummy byte on the wire. -/
  dummy      : Byte
  deriving DecidableEq, Repr, Inhabited

/-- The ten outcomes of an operation (spec/60_exceptions.md R200, R201): success and the nine error kinds. -/
inductive ResultKind where
  | success
  | resetFailed
  | wrongId
  | busy
  | readFailed
  | programFailed
  | eraseFailed
  | regAddressInvalid
  | addressOutOfRange
  | transportError
  deriving DecidableEq, Repr, Inhabited

/-- How many values the type `TransportError` has beside its first: OPEN, so nothing can be proved of it (R8, U19). -/
opaque Config.transportErrors : Nat

/-- What the transport reports on failure: the open type parameter of R8 (decision D14), of which nothing is known but
that it has a value and that two values are equal or not. The controller only copies it (spec/20_memory.md R64). That it
is finite is read from its 8 bits on a port (log 16). -/
structure TransportError where
  value : Fin (Config.transportErrors + 1)
  deriving DecidableEq, Repr, Inhabited

/-- What the transport answers to one call (spec/20_memory.md R57 to R63): `Ok` with the bytes received, or `Err`. -/
inductive Answer where
  | ok  (rx : List Byte)
  | err (e : TransportError)
  deriving DecidableEq, Repr, Inhabited

namespace Config

/-! ### Parameters the document fixes (R6, R7) -/

/-- `NUM_BLOCKS`. -/
def numBlocks : Nat := 2048
/-- `PAGES_PER_BLOCK`. -/
def pagesPerBlock : Nat := 64
/-- `PAGE_DATA_SIZE`. -/
def pageDataSize : Nat := 2048
/-- `PAGE_SPARE_SIZE`. -/
def pageSpareSize : Nat := 128
/-- `PAGE_SIZE = PAGE_DATA_SIZE + PAGE_SPARE_SIZE`. -/
def pageSize : Nat := pageDataSize + pageSpareSize
/-- `PAGE_BITS`. -/
def pageBits : Nat := 6
/-- `BLOCK_SHIFT`. -/
def blockShift : Nat := 17
/-- `PAGE_SHIFT`. -/
def pageShift : Nat := 11
/-- `COL_MASK`. -/
def colMask : Nat := 0x7FF
/-- `PAGE_MASK`. -/
def pageMask : Nat := 0x3F
/-- `FLASH_SIZE_BYTES = 2^28` (R7). -/
def flashSizeBytes : Nat := 268435456
/-- `EXPECTED_MFR_ID`. -/
def expectedMfrId : Byte := 0x2C
/-- `EXPECTED_DEV_ID`. -/
def expectedDevId : Byte := 0x24

/-! ### The open parameters of `cfg` (R8): no body, so nothing can be proved of their values -/

/-- `cfg.T_POR_MS` of this hardware: OPEN. -/
opaque tPorMs : Nat
/-- `cfg.POLL_RESET` of this hardware: OPEN. -/
opaque pollReset : PollCfg
/-- `cfg.POLL_READ` of this hardware: OPEN. -/
opaque pollRead : PollCfg
/-- `cfg.POLL_PGM` of this hardware: OPEN. -/
opaque pollPgm : PollCfg
/-- `cfg.POLL_ERS` of this hardware: OPEN. -/
opaque pollErs : PollCfg

/-- The 8 bits a `TransportError` has on a port, `terr[7:0]` (R8): OPEN. No rule of the controller reads them. -/
opaque errorPort : TransportError → Byte

/-- The `cfg` of this hardware: the two decided fields at their decided values, the rest open (R8). -/
def hardware : Cfg where
  tPorMs     := tPorMs
  pollReset  := pollReset
  pollRead   := pollRead
  pollPgm    := pollPgm
  pollErs    := pollErs
  planeInCol := false
  dummy      := 0x00

/-! ### Free values: no body. The first argument is the draw number `State.draws`. -/

/-- The transport's answer to the call of this draw number, where the environment has scheduled none (R63). -/
opaque freeAnswer : Nat → Answer
/-- Byte `k` of an unspecified byte string: what pads a scheduled answer that is too short for the length law (R58),
and what a failed `PAGE_READ` leaves in `Buf[k]` (spec/43_command_engine.md R173). -/
opaque freeByte : Nat → Nat → Byte
/-- The value of the register numbered by the second argument after a hardware reset (spec/10_state.md R43). -/
opaque freeReg : Nat → Nat → Nat
/-- The value of `r.RES` after a hardware reset (spec/10_state.md R43). -/
opaque freeKind : Nat → ResultKind

end Config

end Sys2Proof
end

