-- ==== Sys2Proof/Syntax.lean ====
section
/-! DEFINITION. The instructions, one constructor per row of spec/opcode_table.json, and the encoded forms they come in.

Two levels (spec/00_scope.md R12): a HOST OPERATION is one request carried to its response; a WIRE COMMAND is one
transport transaction. `TRANSLATE` is the combinational row. -/

namespace Sys2Proof

/-- The instructions. Operands are the fields of spec/30_encoding.md R84 (host) and R86 (wire); a field an operation does
not use is no operand of it (R83). -/
inductive Instr where
  /-- `INIT`, operation `0x0` (R166). -/
  | init
  /-- `RESET`, operation `0x1` (R163). -/
  | reset
  /-- `READ_ID`, operation `0x2` (R165). -/
  | readId
  /-- `PAGE_READ addr len`, operation `0x3` (R170). -/
  | pageRead (addr : LogicalAddress) (len : BitVec 16)
  /-- `PAGE_PROGRAM addr len`, operation `0x4` (R176). -/
  | pageProgram (addr : LogicalAddress) (len : BitVec 16)
  /-- `BLOCK_ERASE addr`, operation `0x5` (R180). -/
  | blockErase (addr : LogicalAddress)
  /-- `GET_FEATURE reg`, operation `0x6` (R148). -/
  | getFeature (reg : BitVec 2)
  /-- `SET_FEATURE reg wval`, operation `0x7` (R149). -/
  | setFeature (reg : BitVec 2) (wval : Byte)
  /-- `WAIT_READY att dly`, operation `0x8` (R136). -/
  | waitReady (att dly : BitVec 16)
  /-- `CHECK_BUSY`, operation `0x9` (R150). -/
  | checkBusy
  /-- `TRANSLATE addr`: combinational, no operation number (R110). -/
  | translate (addr : LogicalAddress)
  /-- Wire `PROGRAM_LOAD` (`0x02`), format `W_COLWR` (R97): column word and payload. -/
  | programLoad (colWord : BitVec 16) (data : List Byte)
  /-- Wire `READ_CACHE` (`0x03`), format `W_COLRD` (R96): column word and number of bytes to receive. -/
  | readCache (colWord : BitVec 16) (len : Nat)
  /-- Wire `WRITE_DISABLE` (`0x04`), format `W_CMD` (R147). -/
  | writeDisable
  /-- Wire `WRITE_ENABLE` (`0x06`), format `W_CMD` (R146). -/
  | writeEnable
  /-- Wire `GET_FEATURES` (`0x0F`), format `W_GETF` (R93): the register's wire address. -/
  | getFeatures (ra : Byte)
  /-- Wire `PROGRAM_EXECUTE` (`0x10`), format `W_ROW` (R88). -/
  | programExecute (row : BitVec 24)
  /-- Wire `PAGE_READ` (`0x13`), `PAGE_READ_CMD` in the table, format `W_ROW` (R88). -/
  | pageReadCmd (row : BitVec 24)
  /-- Wire `SET_FEATURES` (`0x1F`), format `W_SETF` (R94): the register's wire address and the value. -/
  | setFeatures (ra v : Byte)
  /-- Wire `READ_ID` (`0x9F`), `READ_ID_CMD` in the table, format `W_ID` (R95). -/
  | readIdCmd
  /-- Wire `BLOCK_ERASE` (`0xD8`), `BLOCK_ERASE_CMD` in the table, format `W_ROW` (R88). -/
  | blockEraseCmd (row : BitVec 24)
  /-- Wire `RESET` (`0xFF`), `RESET_CMD` in the table, format `W_CMD` (R87). -/
  | resetCmd
  deriving DecidableEq, Repr

/-- An encoded instruction as it is presented to the block. -/
inductive Item where
  /-- A packed host request `req[95:0]` (R81). -/
  | host (word : RequestWord)
  /-- A wire transaction: the bytes transmitted, in wire order, and the number of bytes received (R86). -/
  | wire (tx : List Byte) (rx : Nat)
  /-- An address driven on the translator's input port (R110): no encoding bits. -/
  | address (addr : LogicalAddress)
  deriving DecidableEq, Repr

end Sys2Proof
end

