-- ==== Sys2Proof/Machine/State.lean ====
section
/-! DEFINITION. The state of the machine, as plain data, the reasons a step can stop, and the state after reset.

State of the controller: spec/10_state.md R21 (`seq`, the request latch, the attempt counter, the status sample, the
failure latch, the write-disable-owed flag, the response registers). Beside it, the host buffer (R32), the trace (R34),
the responses produced (R29), the configuration (R31), and the environment's side of a run: what is presented to the
block, the answers the transport will give, and the count of draws. -/

namespace Sys2Proof.Machine

open Sys2Proof

/-! ### The sequencer state (R22) -/

/-- The ten host operations of spec/30_encoding.md R84. -/
inductive HostOp where
  | init | reset | readId | pageRead | pageProgram | blockErase | getFeature | setFeature | waitReady | checkBusy
  deriving DecidableEq, Repr

/-- Who runs a poll (spec/41_ready_poller.md R137): it fixes the poll's bound and where its outcome goes. The poll of
the reset steps inside `INIT` is `init`. -/
inductive PollCaller where
  | init | reset | pageRead | pageProgram | blockErase | waitReady
  deriving DecidableEq, Repr

/-- The steps of the poll of R126: the read before the loop, and in the loop the delay, then the read. -/
inductive PollStep where
  | first | delay | read
  deriving DecidableEq, Repr

/-- The steps of the operations, as the pseudocode of their rules lists them. A step names its operation, so that
`RUN(op, step)` is one value. `inInit` says that the reset steps or the identity step run inside `INIT` (R166). -/
inductive SeqStep where
  /-- `INIT`: its own delay of `cfg.T_POR_MS` (R166). -/
  | initDelay
  /-- The reset steps: the `0xFF` transmit (R163). -/
  | resetSend (inInit : Bool)
  /-- The reset steps: the delay of `cfg.T_POR_MS` (R163). -/
  | resetDelay (inInit : Bool)
  /-- A step of a poll (R126). -/
  | poll (caller : PollCaller) (at_ : PollStep)
  /-- The identity transaction (R165), in `INIT` with the comparison that follows it (R166). -/
  | identity (inInit : Bool)
  /-- `PAGE_READ`: the guards (R170). -/
  | readGuards
  /-- `PAGE_READ`: array to cache (R170 step 1). -/
  | readLoad
  /-- `PAGE_READ`: cache to host (R170 step 3). -/
  | readCache
  /-- `PAGE_PROGRAM`: the guards (R176). -/
  | programGuards
  /-- `PAGE_PROGRAM`: write-enable. -/
  | programEnable
  /-- `PAGE_PROGRAM`: program load. -/
  | programLoad
  /-- `PAGE_PROGRAM`: program execute. -/
  | programExecute
  /-- `PAGE_PROGRAM`: write-disable. -/
  | programDisable
  /-- `PAGE_PROGRAM`: the status read and the `PF` check. -/
  | programCheck
  /-- `BLOCK_ERASE`: the range check (R180). -/
  | eraseGuards
  /-- `BLOCK_ERASE`: write-enable. -/
  | eraseEnable
  /-- `BLOCK_ERASE`: the erase command. -/
  | eraseCommand
  /-- `BLOCK_ERASE`: write-disable. -/
  | eraseDisable
  /-- `BLOCK_ERASE`: the status read and the `EF` check. -/
  | eraseCheck
  /-- `GET_FEATURE`: its transaction (R148). -/
  | getFeature
  /-- `SET_FEATURE`: its guard and transaction (R149). -/
  | setFeature
  /-- `CHECK_BUSY`: its transaction (R150). -/
  | checkBusy
  deriving DecidableEq, Repr

/-- `seq`: `IDLE`, or `RUN(op, step)` (R22). -/
inductive Seq where
  | idle
  | run (step : SeqStep)
  deriving DecidableEq, Repr

/-! ### The controller's registers (R23 to R28) -/

/-- The registers `r.NAME`. -/
structure Regs where
  /-- `r.OP[3:0]`, request latch: operation number (R23). -/
  op     : BitVec 4
  /-- `r.ADDR[31:0]`, request latch: logical address (R23). -/
  addr   : LogicalAddress
  /-- `r.LEN[15:0]`, request latch: byte count (R23). -/
  len    : BitVec 16
  /-- `r.REG[1:0]`, request latch: feature register selector (R23). -/
  reg    : BitVec 2
  /-- `r.WVAL[7:0]`, request latch: value for `SET_FEATURE` (R23). -/
  wval   : Byte
  /-- `r.ATT[15:0]`, request latch: `maxAttempts` of `WAIT_READY` (R23). -/
  att    : BitVec 16
  /-- `r.DLY[15:0]`, request latch: `interPollDelay` of `WAIT_READY` (R23). -/
  dly    : BitVec 16
  /-- `r.CNT`, the poll attempt counter, a natural number (R24). -/
  cnt    : Nat
  /-- `r.ST[7:0]`, the status sample (R25). -/
  st     : Byte
  /-- `r.OK`, the failure latch of `PAGE_PROGRAM` and `BLOCK_ERASE` (R26). -/
  ok     : Bool
  /-- `r.WD_OWED`, whether a write-disable is owed (R27). -/
  wdOwed : Bool
  /-- `r.RES[3:0]`, response: the result (R28). -/
  res    : ResultKind
  /-- `r.RBYTE[7:0]`, response: the byte read by `GET_FEATURE` (R28). -/
  rbyte  : Byte
  /-- `r.RBUSY`, response: the answer of `CHECK_BUSY` (R28). -/
  rbusy  : Bool
  /-- `r.MFR[7:0]`, response: the manufacturer byte (R28, R33). -/
  mfr    : Byte
  /-- `r.DEV[7:0]`, response: the device byte (R28, R33). -/
  dev    : Byte
  /-- `r.TERR`, response: the transport's error value (R28), which `Config.errorPort` gives its 8 bits on a port. -/
  terr   : TransportError
  deriving DecidableEq, Repr

/-- A response, format `RSP` (spec/30_encoding.md R82): the response registers as they stand when it is produced. -/
structure Response where
  res   : ResultKind
  rbyte : Byte
  rbusy : Bool
  mfr   : Byte
  dev   : Byte
  terr  : TransportError
  deriving DecidableEq, Repr

/-! ### The trace (R34) -/

/-- A transport call with its arguments and the transport's answer (spec/20_memory.md R56 to R61). -/
inductive Call where
  /-- `send(tx)` (R57). -/
  | send (tx : List Byte) (answer : Answer)
  /-- `sendReceive(tx, n)` (R58). -/
  | sendReceive (tx : List Byte) (n : Nat) (answer : Answer)
  /-- `receive(n)` (R59). -/
  | receive (n : Nat) (answer : Answer)
  /-- `sendCommandThenData(cmd, data)` (R60). -/
  | sendCommandThenData (cmd data : List Byte) (answer : Answer)
  /-- `delay(ms)` (R61). -/
  | delay (ms : Nat)
  deriving DecidableEq, Repr

/-! ### What is presented to the block -/

/-- What the outside world does during one step. -/
inductive Input where
  /-- An instruction is presented: a host request, a wire transaction on its own, or an address on the translator's
  port. From `IDLE` a host request is carried to its response in this one step. -/
  | present (item : Item)
  /-- A host request is presented and, from `IDLE`, accepted: the sequencer then takes one step of its operation per
  step of the machine, so that other inputs can fall inside the operation. -/
  | start (word : RequestWord)
  /-- Nothing is presented. -/
  | quiet
  /-- A hardware reset of the controller (spec/70_reset_and_hazards.md R230). -/
  | hardReset
  /-- The host, who owns the buffer (R32), stores a byte to `Buf[index]`. -/
  | hostStore (index : Nat) (value : Byte)
  deriving DecidableEq, Repr

/-! ### Why a step stops -/

/-- The faults. No instruction raises one: they come from what the host does to its buffer. -/
inductive Fault where
  /-- The host stores outside `Buf[0..2176)`, an address that does not exist (spec/20_memory.md R54). Raised by
  `hostStore`. Safe: the machine stops. -/
  | bufferIndex
  /-- The host stores to `Buf[0..len)` while an operation that uses those bytes is running, which it must not
  (spec/70_reset_and_hazards.md R245): the outcome would depend on how host and controller interleave. Raised by
  `hostStore`. Safe: the machine stops. -/
  | bufferRace
  deriving DecidableEq, Repr

/-- The refusals. -/
inductive Refusal where
  /-- An instruction of the table that has no meaning yet. Raised by an arm of `exec` alone. Safe. -/
  | notModelled (mnemonic : String)
  /-- A host operation number `0xA` to `0xF` (spec/30_encoding.md R99): the machine has no step. Raised by `step`.
  Safe. -/
  | reservedOperation
  /-- A wire transaction that is in none of the seven formats (R86, R100). Raised by `step`. Safe. -/
  | notAWireCommand
  deriving DecidableEq, Repr

/-! ### The state -/

structure State where
  /-- The sequencer state (R22). -/
  seq       : Seq
  /-- The controller's registers (R23 to R28). -/
  r         : Regs
  /-- The host buffer `Buf[0..2176)` (R32), in canonical form: indices rising, no entry holding what an unlisted index
  reads as. -/
  buf       : List Host.Cell
  /-- The address driven on the translator's input port (R30, R110). -/
  xaddr     : LogicalAddress
  /-- The transport calls made since the current request was accepted, oldest first (R34). -/
  trace     : List Call
  /-- The responses produced, oldest first (R29): one per accepted request that was not cut by a hardware reset. -/
  responses : List Response
  /-- The configuration (R31). -/
  cfg       : Cfg
  /-- What the outside world will do, one entry per step; when it is empty nothing is presented. -/
  inputs    : List Input
  /-- The answers the environment has scheduled, one per transport call that has an answer; when it is empty the answers
  are free values. -/
  script    : List Answer
  /-- The model's own field: the number of draws of a free value made so far. -/
  draws     : Nat
  deriving DecidableEq, Repr

/-- The registers right after reset. `r.WD_OWED = 0` is R43's; the spec gives the others no value, and each stands at the
value that log entry 2 names, `r.TERR` at the first value of its open type. -/
def Regs.reset : Regs where
  op     := 0
  addr   := 0
  len    := 0
  reg    := 0
  wval   := 0
  att    := 0
  dly    := 0
  cnt    := 0
  st     := 0
  ok     := false
  wdOwed := false
  res    := .success
  rbyte  := 0
  rbusy  := false
  mfr    := 0
  dev    := 0
  terr   := ⟨⟨0, Nat.succ_pos _⟩⟩

/-- The machine right after reset (R43): `seq = IDLE`, the trace empty, no response, nothing presented, nothing
scheduled, nothing listed in the buffer. -/
def State.reset : State where
  seq       := .idle
  r         := Regs.reset
  buf       := []
  xaddr     := 0
  trace     := []
  responses := []
  cfg       := Config.hardware
  inputs    := []
  script    := []
  draws     := 0

end Sys2Proof.Machine
end

