-- ==== Sys2Proof/Machine/Buffer.lean ====
section
/-! DEFINITION. The host buffer `Buf[0..2176)` (spec/10_state.md R32) as a list of (index, byte) pairs in one canonical
form: indices strictly rising, below 2176, and no entry holding the byte an unlisted index reads as. -/

namespace Sys2Proof.Machine.Buffer

open Sys2Proof

/-- What an unlisted index reads as. DESIGN CHOICE (log 7), unsafe: the spec gives the buffer no contents before the host
writes it. -/
def blank : Byte := 0x00

/-- `Buf[k]`. -/
def read : List Host.Cell → Nat → Byte
  | [], _           => blank
  | (a, b) :: m, k => if a = k then b else read m k

/-- `Buf[0..n)`, in order. -/
def prefixBytes (m : List Host.Cell) (n : Nat) : List Byte :=
  (List.range n).map (read m)

/-- The entry for index `k`, or none where the byte is the blank one. -/
def entry (k : Nat) (b : Byte) : List Host.Cell :=
  if b = blank then [] else [(k, b)]

/-- `Buf[k] <- b`. -/
def write : List Host.Cell → Nat → Byte → List Host.Cell
  | [], k, b           => entry k b
  | (a, x) :: m, k, b =>
    if k < a then entry k b ++ (a, x) :: m
    else if k = a then entry k b ++ m
    else (a, x) :: write m k b

/-- The entries of the bytes `bs` from index `k` on. -/
def cells : Nat → List Byte → List Host.Cell
  | _, []      => []
  | k, b :: bs => entry k b ++ cells (k + 1) bs

/-- `Buf[0..n) <- bs` with `n = len(bs)`: byte `k` of a transfer is `Buf[k]` (spec/20_memory.md R54). -/
def storePrefix (m : List Host.Cell) (bs : List Byte) : List Host.Cell :=
  cells 0 bs ++ m.filter (fun c => decide (bs.length ≤ c.1))

/-- The canonical form, every listed index at least `k`. -/
def wfFrom : Nat → List Host.Cell → Bool
  | _, []          => true
  | k, (a, b) :: m => decide (k ≤ a) && decide (a < Config.pageSize) && (b != blank) && wfFrom (a + 1) m

/-- The canonical form. -/
def wf (m : List Host.Cell) : Bool := wfFrom 0 m

end Sys2Proof.Machine.Buffer
end

