-- ==== Sys2Proof/Machine/Flags.lean ====
section
/-! DEFINITION. The status bits (spec/10_state.md R35, spec/30_encoding.md R98). Bits 4 to 7 are tested by no rule. -/

namespace Sys2Proof.Machine

open Sys2Proof

/-- `OIP`, mask `0x01`: an internal chip cycle runs. -/
def oip (st : Byte) : Bool := (st &&& 0x01) != 0
/-- `WEL`, mask `0x02`: the write-enable latch. No operation tests it. -/
def wel (st : Byte) : Bool := (st &&& 0x02) != 0
/-- `EF`, mask `0x04`: erase fail. -/
def ef (st : Byte) : Bool := (st &&& 0x04) != 0
/-- `PF`, mask `0x08`: program fail. -/
def pf (st : Byte) : Bool := (st &&& 0x08) != 0

end Sys2Proof.Machine
end

