-- ==== Sys2Proof/WellFormed.lean ====
section
/-! DEFINITION. Which instructions the block can emit or be given.

Every value of a host operation's fields is a legal request (the guards are the operation's own, spec/43_command_engine.md
R161). The checks are those the encoding rules put on the operands of the wire commands. -/

namespace Sys2Proof

/-- The four register addresses (spec/30_encoding.md R85, R101): no other is ever emitted. -/
def isFeatureAddress (ra : Byte) : Bool :=
  ra == 0xA0 || ra == 0xB0 || ra == 0xC0 || ra == 0xD0

/-- A column word (R90): `colWord[15:13] = 0`, `colWord[12]` only if `cfg.PLANE_IN_COL`, and a column of the cache,
`0 <= column < PAGE_SIZE` (spec/20_memory.md R52), in `colWord[11:0]`. -/
def isColumnWord (c : Cfg) (w : BitVec 16) : Bool :=
  (w.extractLsb' 13 3 == 0) && (c.planeInCol || !w.getLsbD 12)
    && decide ((w.extractLsb' 0 12).toNat < Config.pageSize)

/-- A row address (R89): `rowAddr < 2^17`. -/
def isRowAddress (row : BitVec 24) : Bool :=
  decide (row.toNat < 131072)

/-- Well-formedness under the configuration `c`. -/
def Instr.wf (c : Cfg) : Instr → Bool
  | .init | .reset | .readId | .checkBusy => true
  | .pageRead _ _ | .pageProgram _ _ | .blockErase _ => true
  | .getFeature _ | .setFeature _ _ | .waitReady _ _ => true
  | .translate _ => true
  | .programLoad w data => isColumnWord c w && decide (data.length ≤ Config.pageDataSize)
  | .readCache w len => isColumnWord c w && decide (len ≤ Config.pageSize)
  | .writeDisable | .writeEnable | .readIdCmd | .resetCmd => true
  | .getFeatures ra => isFeatureAddress ra
  | .setFeatures ra _ => isFeatureAddress ra && !(ra == 0xC0)
  | .programExecute row | .pageReadCmd row | .blockEraseCmd row => isRowAddress row

end Sys2Proof
end

