-- ==== Sys2Proof/Decode.lean ====
section
/-! DEFINITION. The decoder, total on any encoded form and rejecting by name, and after it the encoder.

Host level: the 96-bit request word of spec/30_encoding.md R81, R84. Wire level: the seven formats of R86, keyed on the
first transmitted byte (R92). The block itself has no wire decoder (R100): this one reads back what the block emits. -/

namespace Sys2Proof

/-! ### The op-codes (R92) and the bytes of an address field (R65, R89, R90) -/

namespace Opcode

/-- `0x02`. -/
def programLoad : Byte := 0x02
/-- `0x03`. -/
def readCache : Byte := 0x03
/-- `0x04`. -/
def writeDisable : Byte := 0x04
/-- `0x06`. -/
def writeEnable : Byte := 0x06
/-- `0x0F`. -/
def getFeatures : Byte := 0x0F
/-- `0x10`. -/
def programExecute : Byte := 0x10
/-- `0x13`. -/
def pageRead : Byte := 0x13
/-- `0x1F`. -/
def setFeatures : Byte := 0x1F
/-- `0x9F`. -/
def readId : Byte := 0x9F
/-- `0xD8`. -/
def blockErase : Byte := 0xD8
/-- `0xFF`. -/
def reset : Byte := 0xFF

end Opcode

/-- The wire address of the status register, `STATUS` (spec/10_state.md R36). -/
def statusAddress : Byte := 0xC0

/-- `RA2, RA1, RA0` (R89): the row address, most significant byte first (R65). -/
def rowBytes (row : BitVec 24) : List Byte :=
  [row.extractLsb' 16 8, row.extractLsb' 8 8, row.extractLsb' 0 8]

/-- `CA1, CA0` (R90): the column word, most significant byte first (R65). -/
def colBytes (w : BitVec 16) : List Byte :=
  [w.extractLsb' 8 8, w.extractLsb' 0 8]

/-! ### The decoder -/

/-- Why an encoded form is no instruction. -/
inductive Reject where
  /-- A host operation number `0xA` to `0xF` (R99). -/
  | reservedOperation (op : BitVec 4)
  /-- A wire transaction that transmits nothing: the first transmitted byte is always an op-code (R86). -/
  | emptyTransaction
  /-- A first byte that is none of the eleven op-codes (R100). -/
  | notAnOpcode (b : Byte)
  /-- The op-code is one of the eleven and the bytes after it, or the count received, are not its format's (R103). -/
  | wrongLength (opc : Byte)
  deriving DecidableEq, Repr

/-- Format `HOST` (R81, R84): the operation number selects the operation, the fields it does not use and the reserved
bits are ignored (R83), and the numbers `0xA` to `0xF` are invalid (R99). -/
def decodeHost (w : RequestWord) : Except Reject Instr :=
  match (w.extractLsb' 0 4).toNat with
  | 0 => .ok .init
  | 1 => .ok .reset
  | 2 => .ok .readId
  | 3 => .ok (.pageRead (w.extractLsb' 16 32) (w.extractLsb' 48 16))
  | 4 => .ok (.pageProgram (w.extractLsb' 16 32) (w.extractLsb' 48 16))
  | 5 => .ok (.blockErase (w.extractLsb' 16 32))
  | 6 => .ok (.getFeature (w.extractLsb' 4 2))
  | 7 => .ok (.setFeature (w.extractLsb' 4 2) (w.extractLsb' 6 8))
  | 8 => .ok (.waitReady (w.extractLsb' 64 16) (w.extractLsb' 80 16))
  | 9 => .ok .checkBusy
  | _ => .error (.reservedOperation (w.extractLsb' 0 4))

/-- Format `W_CMD` (R87): nothing after the op-code, nothing received. -/
def decodeCmd (i : Instr) (opc : Byte) : List Byte → Nat → Except Reject Instr
  | [], 0 => .ok i
  | _, _  => .error (.wrongLength opc)

/-- Format `W_ROW` (R88): three row address bytes, nothing received. -/
def decodeRow (mk : BitVec 24 → Instr) (opc : Byte) : List Byte → Nat → Except Reject Instr
  | [ra2, ra1, ra0], 0 => .ok (mk (ra2 ++ ra1 ++ ra0))
  | _, _               => .error (.wrongLength opc)

/-- Format `W_GETF` (R93): the register address, one byte received. -/
def decodeGetf : List Byte → Nat → Except Reject Instr
  | [ra], 1 => .ok (.getFeatures ra)
  | _, _    => .error (.wrongLength Opcode.getFeatures)

/-- Format `W_SETF` (R94): register address then value, nothing received. -/
def decodeSetf : List Byte → Nat → Except Reject Instr
  | [ra, v], 0 => .ok (.setFeatures ra v)
  | _, _       => .error (.wrongLength Opcode.setFeatures)

/-- Format `W_ID` (R95): one dummy byte, two bytes received. -/
def decodeId : List Byte → Nat → Except Reject Instr
  | [_], 2 => .ok .readIdCmd
  | _, _   => .error (.wrongLength Opcode.readId)

/-- Format `W_COLRD` (R96): column word and one dummy byte, `length` bytes received. -/
def decodeColrd : List Byte → Nat → Except Reject Instr
  | [ca1, ca0, _], n => .ok (.readCache (ca1 ++ ca0) n)
  | _, _             => .error (.wrongLength Opcode.readCache)

/-- Format `W_COLWR` (R97): column word, then the payload, nothing received. -/
def decodeColwr : List Byte → Nat → Except Reject Instr
  | ca1 :: ca0 :: data, 0 => .ok (.programLoad (ca1 ++ ca0) data)
  | _, _                  => .error (.wrongLength Opcode.programLoad)

/-- A wire transaction: the op-code alone determines the format (R86, R92). -/
def decodeWire (tx : List Byte) (rx : Nat) : Except Reject Instr :=
  match tx with
  | [] => .error .emptyTransaction
  | opc :: args =>
    if opc = Opcode.programLoad then decodeColwr args rx
    else if opc = Opcode.readCache then decodeColrd args rx
    else if opc = Opcode.writeDisable then decodeCmd .writeDisable opc args rx
    else if opc = Opcode.writeEnable then decodeCmd .writeEnable opc args rx
    else if opc = Opcode.getFeatures then decodeGetf args rx
    else if opc = Opcode.programExecute then decodeRow .programExecute opc args rx
    else if opc = Opcode.pageRead then decodeRow .pageReadCmd opc args rx
    else if opc = Opcode.setFeatures then decodeSetf args rx
    else if opc = Opcode.readId then decodeId args rx
    else if opc = Opcode.blockErase then decodeRow .blockEraseCmd opc args rx
    else if opc = Opcode.reset then decodeCmd .resetCmd opc args rx
    else .error (.notAnOpcode opc)

/-- The decoder. -/
def decode : Item → Except Reject Instr
  | .host w     => decodeHost w
  | .wire tx rx => decodeWire tx rx
  | .address a  => .ok (.translate a)

/-! ### The encoder -/

/-- The packed word of a request (R81), its fields from the least significant upward and the reserved bits 0. -/
def packRequest (op : BitVec 4) (reg : BitVec 2) (wval : Byte) (addr : LogicalAddress)
    (len att dly : BitVec 16) : RequestWord :=
  dly ++ att ++ len ++ addr ++ (0 : BitVec 2) ++ wval ++ reg ++ op

/-- The encoded form of an instruction under the configuration `c`, which gives the dummy byte (R91). A field the
operation does not use is 0. -/
def encode (c : Cfg) : Instr → Item
  | .init                => .host (packRequest 0 0 0 0 0 0 0)
  | .reset               => .host (packRequest 1 0 0 0 0 0 0)
  | .readId              => .host (packRequest 2 0 0 0 0 0 0)
  | .pageRead addr len   => .host (packRequest 3 0 0 addr len 0 0)
  | .pageProgram addr len => .host (packRequest 4 0 0 addr len 0 0)
  | .blockErase addr     => .host (packRequest 5 0 0 addr 0 0 0)
  | .getFeature reg      => .host (packRequest 6 reg 0 0 0 0 0)
  | .setFeature reg wval => .host (packRequest 7 reg wval 0 0 0 0)
  | .waitReady att dly   => .host (packRequest 8 0 0 0 0 att dly)
  | .checkBusy           => .host (packRequest 9 0 0 0 0 0 0)
  | .translate addr      => .address addr
  | .programLoad w data  => .wire (Opcode.programLoad :: (colBytes w ++ data)) 0
  | .readCache w len     => .wire (Opcode.readCache :: (colBytes w ++ [c.dummy])) len
  | .writeDisable        => .wire [Opcode.writeDisable] 0
  | .writeEnable         => .wire [Opcode.writeEnable] 0
  | .getFeatures ra      => .wire [Opcode.getFeatures, ra] 1
  | .programExecute row  => .wire (Opcode.programExecute :: rowBytes row) 0
  | .pageReadCmd row     => .wire (Opcode.pageRead :: rowBytes row) 0
  | .setFeatures ra v    => .wire [Opcode.setFeatures, ra, v] 0
  | .readIdCmd           => .wire [Opcode.readId, c.dummy] 2
  | .blockEraseCmd row   => .wire (Opcode.blockErase :: rowBytes row) 0
  | .resetCmd            => .wire [Opcode.reset] 0

/-! ### The opcode table's numbering of bits -/

/-- How many bytes the format of an op-code transmits after it, the payload of `PROGRAM_LOAD` apart, and how many it
receives, the length of `READ_CACHE` apart (R103). -/
def formatCounts (opc : Byte) : Nat × Nat :=
  if opc = Opcode.programLoad then (2, 0)
  else if opc = Opcode.readCache then (3, 0)
  else if opc = Opcode.getFeatures then (1, 1)
  else if opc = Opcode.setFeatures then (2, 0)
  else if opc = Opcode.readId then (1, 2)
  else if opc = Opcode.programExecute ∨ opc = Opcode.pageRead ∨ opc = Opcode.blockErase then (3, 0)
  else (0, 0)

/-- The first `n` bytes of `w`, the least significant first. -/
def bytesOf : Nat → Nat → List Byte
  | 0, _     => []
  | n + 1, w => BitVec.ofNat 8 w :: bytesOf n (w / 256)

/-- The encoded form of a table row's bits: 96 bits are a request word, no bits are the translator's input port (the row
`TRANSLATE` has none) at address 0, and any other count is a wire transaction, whose first byte is the op-code and whose
further bytes, up to its format's length, are the bits above (zero where the table gives none). -/
def layoutWord (nbits w : Nat) : Item :=
  if nbits = 96 then .host (BitVec.ofNat 96 w)
  else if nbits = 0 then .address 0
  else
    let counts := formatCounts (BitVec.ofNat 8 w)
    .wire (bytesOf (max (nbits / 8) (1 + counts.1)) (w % 2 ^ nbits)) counts.2

/-- The instruction the decoder reads from the bits of an opcode-table row. -/
def decodeTableWord (nbits w : Nat) : Option Instr :=
  match decode (layoutWord nbits w) with
  | .ok i    => some i
  | .error _ => none

end Sys2Proof
end

