-- ==== Sys2Proof/Machine/Operands.lean ====
section
/-! DEFINITION. Operand forms: the Address Translator (spec/40_address_translator.md), the column word and the register
address (spec/30_encoding.md section 4, R85), and the numbers of operations and results. -/

namespace Sys2Proof.Machine

open Sys2Proof

/-! ### The Address Translator: a pure function with no state (spec/10_state.md R30) -/

/-- A physical address: the fields of R112 to R117 at their widths. -/
structure Phys where
  block   : BitVec 11
  plane   : BitVec 1
  page    : BitVec 6
  col     : BitVec 11
  rowAddr : BitVec 24
  colAddr : BitVec 12
  deriving DecidableEq, Repr

/-- `inRange` (R111). -/
def inRange (addr : LogicalAddress) : Bool :=
  decide (addr.toNat < Config.flashSizeBytes)

/-- The block number (R112). -/
def blockOf (addr : Nat) : Nat := addr >>> Config.blockShift
/-- The page within the block (R114). -/
def pageOf (addr : Nat) : Nat := (addr >>> Config.pageShift) &&& Config.pageMask
/-- The column within the page's data area (R115). -/
def colOf (addr : Nat) : Nat := addr &&& Config.colMask
/-- The plane, the low bit of the block number (R113). -/
def planeOf (addr : Nat) : Nat := blockOf addr &&& 1
/-- The row address (R116). -/
def rowOf (addr : Nat) : Nat := (blockOf addr <<< Config.pageBits) ||| pageOf addr

/-- `TRANSLATE`: the fields by the shift-and-mask formulas, which are the definition (R120). Out of range there is no
value at all (R121): the translation fails with `AddressOutOfRange` (R111). -/
def translate (addr : LogicalAddress) : Option Phys :=
  if inRange addr then
    some { block   := BitVec.ofNat 11 (blockOf addr.toNat)
           plane   := BitVec.ofNat 1 (planeOf addr.toNat)
           page    := BitVec.ofNat 6 (pageOf addr.toNat)
           col     := BitVec.ofNat 11 (colOf addr.toNat)
           rowAddr := BitVec.ofNat 24 (rowOf addr.toNat)
           colAddr := BitVec.ofNat 12 (colOf addr.toNat) }
  else none

/-- The translator's outputs: the translation of the address on its input port. -/
def State.translatorOut (s : State) : Option Phys := translate s.xaddr

/-! ### Wire operands -/

/-- The column word (R90): the 12-bit column address, and the plane at bit 12 only under `cfg.PLANE_IN_COL`. -/
def colWord (c : Cfg) (p : Phys) : BitVec 16 :=
  p.colAddr.setWidth 16 ||| (if c.planeInCol then p.plane.setWidth 16 <<< 12 else 0)

/-- `regAddr(reg) = 0xA0 + 0x10 * reg` (R85). -/
def regAddr (reg : BitVec 2) : Byte :=
  0xA0 + 0x10 * reg.setWidth 8

/-! ### Numbers of operations and of results -/

/-- The operation number (R84). -/
def HostOp.code : HostOp → BitVec 4
  | .init => 0
  | .reset => 1
  | .readId => 2
  | .pageRead => 3
  | .pageProgram => 4
  | .blockErase => 5
  | .getFeature => 6
  | .setFeature => 7
  | .waitReady => 8
  | .checkBusy => 9

/-- `terr[7:0]` of a response, the transport's error value as it stands on the port (spec/30_encoding.md R82): open 8
bits. -/
def Response.terrPort (x : Response) : Byte := Config.errorPort x.terr

/-- The result code `r.RES[3:0]` (spec/60_exceptions.md R201); `0xA` to `0xF` are never produced. -/
def resultCode : ResultKind → BitVec 4
  | .success => 0
  | .resetFailed => 1
  | .wrongId => 2
  | .busy => 3
  | .readFailed => 4
  | .programFailed => 5
  | .eraseFailed => 6
  | .regAddressInvalid => 7
  | .addressOutOfRange => 8
  | .transportError => 9

end Sys2Proof.Machine
end

