-- ==== Sys2Proof/Machine/Ops.lean ====
section
/-! DEFINITION. The operations every meaning is built from: register writes, the transport calls (spec/20_memory.md
section 2), the wire transactions (spec/30_encoding.md section 3), accepting a request, and the end of an operation:
producing the response, and the failure entry of spec/60_exceptions.md R205. -/

namespace Sys2Proof.Machine

open Sys2Proof

/-! ### Registers -/

/-- Rewrite the registers. -/
def State.withRegs (s : State) (f : Regs → Regs) : State := { s with r := f s.r }
/-- `seq <- RUN(op, step)`. -/
def State.goto (s : State) (p : SeqStep) : State := { s with seq := .run p }
/-- `r.CNT <- 0`. -/
def State.clearCnt (s : State) : State := s.withRegs fun r => { r with cnt := 0 }
/-- `r.CNT <- r.CNT + 1`. -/
def State.countAttempt (s : State) : State := s.withRegs fun r => { r with cnt := r.cnt + 1 }
/-- `r.ST <- b`. -/
def State.sample (s : State) (b : Byte) : State := s.withRegs fun r => { r with st := b }
/-- `r.OK <- b`. -/
def State.setOk (s : State) (b : Bool) : State := s.withRegs fun r => { r with ok := b }
/-- `r.WD_OWED <- b`. -/
def State.setOwed (s : State) (b : Bool) : State := s.withRegs fun r => { r with wdOwed := b }
/-- `r.TERR <- e`. -/
def State.setTerr (s : State) (e : TransportError) : State := s.withRegs fun r => { r with terr := e }
/-- `r.RBYTE <- b`. -/
def State.setRbyte (s : State) (b : Byte) : State := s.withRegs fun r => { r with rbyte := b }
/-- `r.RBUSY <- b`. -/
def State.setRbusy (s : State) (b : Bool) : State := s.withRegs fun r => { r with rbusy := b }
/-- `r.MFR <- m; r.DEV <- d`. -/
def State.setIdentity (s : State) (m d : Byte) : State := s.withRegs fun r => { r with mfr := m, dev := d }

/-- The busy indication: the controller is busy exactly when `seq != IDLE` (spec/10_state.md R29). -/
def State.isBusy (s : State) : Bool :=
  match s.seq with
  | .idle  => false
  | .run _ => true

/-! ### The transport -/

/-- The first `n` bytes of `rx`, filled up with free bytes of draw `d`: the length law of R58 (log 4). -/
def fitLength (n d : Nat) (rx : List Byte) : List Byte :=
  rx.take n ++ (List.range (n - rx.length)).map (Config.freeByte d)

/-- An answer to a call that receives `n` bytes. -/
def fitAnswer (n d : Nat) : Answer → Answer
  | .ok rx => .ok (fitLength n d rx)
  | .err e => .err e

/-- What the transport answers to the next call, if it receives `n` bytes: the next scheduled answer, or a free one
(R63). -/
def State.nextAnswer (s : State) (n : Nat) : Answer :=
  fitAnswer n s.draws (s.script.headD (Config.freeAnswer s.draws))

/-- One transport call that receives `n` bytes: it blocks until the answer is there (R62), and is recorded with it (R34).
It changes the trace and the environment's side, and nothing of the controller. -/
def transport (mk : Answer → Call) (n : Nat) (s : State) : Answer × State :=
  (s.nextAnswer n,
   { s with trace := s.trace ++ [mk (s.nextAnswer n)], script := s.script.tail, draws := s.draws + 1 })

/-- `T.send(tx)` (R57). -/
def send (tx : List Byte) : State → Answer × State := transport (.send tx) 0
/-- `T.sendReceive(tx, n)` (R58). -/
def sendReceive (tx : List Byte) (n : Nat) : State → Answer × State := transport (.sendReceive tx n) n
/-- `T.receive(n)` (R59): part of the transport's contract, called by no operation. -/
def receive (n : Nat) : State → Answer × State := transport (.receive n) n
/-- `T.sendCommandThenData(cmd, data)` (R60). -/
def sendCommandThenData (cmd data : List Byte) : State → Answer × State :=
  transport (.sendCommandThenData cmd data) 0
/-- `T.delay(ms)` (R61): no effect but its trace entry. -/
def delay (ms : Nat) (s : State) : State := { s with trace := s.trace ++ [.delay ms] }

/-! ### The wire transactions, one per format (R86) -/

/-- Format `W_CMD` (R87). -/
def txCmd (opc : Byte) : State → Answer × State := send [opc]
/-- Format `W_ROW` (R88). -/
def txRow (opc : Byte) (row : BitVec 24) : State → Answer × State := send (opc :: rowBytes row)
/-- Format `W_GETF` (R93). -/
def txGetf (ra : Byte) : State → Answer × State := sendReceive [Opcode.getFeatures, ra] 1
/-- Format `W_SETF` (R94). -/
def txSetf (ra v : Byte) : State → Answer × State := send [Opcode.setFeatures, ra, v]
/-- Format `W_ID` (R95). -/
def txId (s : State) : Answer × State := sendReceive [Opcode.readId, s.cfg.dummy] 2 s
/-- Format `W_COLRD` (R96). -/
def txColrd (w : BitVec 16) (n : Nat) (s : State) : Answer × State :=
  sendReceive (Opcode.readCache :: (colBytes w ++ [s.cfg.dummy])) n s
/-- Format `W_COLWR` (R97). -/
def txColwr (w : BitVec 16) (data : List Byte) : State → Answer × State :=
  sendCommandThenData (Opcode.programLoad :: colBytes w) data

/-- Byte `k` of an answer's bytes. By the length law the byte is there wherever a rule reads it. -/
def byteAt (rx : List Byte) (k : Nat) : Byte := rx.getD k 0

/-! ### The primitives of Register Access (spec/42_feature_access.md) -/

/-- `getFeature(reg)` (R141), by the register's wire address. -/
def getFeature (ra : Byte) : State → Answer × State := txGetf ra

/-- The outcomes of `setFeature` (R143). -/
inductive SetResult where
  | done
  | regAddressInvalid
  | transportError (e : TransportError)
  deriving DecidableEq, Repr

/-- `setFeature(reg, value)` (R143): the guard on the status register's address comes before any transaction (R144). -/
def setFeature (ra v : Byte) (s : State) : SetResult × State :=
  if ra = statusAddress then (.regAddressInvalid, s)
  else
    match txSetf ra v s with
    | (.ok _, s)  => (.done, s)
    | (.err e, s) => (.transportError e, s)

/-- `writeEnable()` (R146): whatever the transport answers, one write-disable is owed. -/
def writeEnable (s : State) : Answer × State :=
  match txCmd Opcode.writeEnable s with
  | (a, s) => (a, s.setOwed true)

/-- `writeDisable()` (R147): once issued, nothing is owed. -/
def writeDisable (s : State) : Answer × State :=
  match txCmd Opcode.writeDisable s with
  | (a, s) => (a, s.setOwed false)

/-! ### Accepting a request -/

/-- Latch the fields of a packed request word (R81) in the request latch (spec/10_state.md R23). -/
def State.latchWord (s : State) (w : RequestWord) : State :=
  s.withRegs fun r =>
    { r with op   := w.extractLsb' 0 4
             reg  := w.extractLsb' 4 2
             wval := w.extractLsb' 6 8
             addr := w.extractLsb' 16 32
             len  := w.extractLsb' 48 16
             att  := w.extractLsb' 64 16
             dly  := w.extractLsb' 80 16 }

/-- The first step of an operation, as its pseudocode lists them. -/
def firstStep : HostOp → SeqStep
  | .init        => .initDelay
  | .reset       => .resetSend false
  | .readId      => .identity false
  | .pageRead    => .readGuards
  | .pageProgram => .programGuards
  | .blockErase  => .eraseGuards
  | .getFeature  => .getFeature
  | .setFeature  => .setFeature
  | .waitReady   => .poll .waitReady .first
  | .checkBusy   => .checkBusy

/-- A request for `op` is accepted: `seq` leaves `IDLE` (R22), the operation number is latched (R23), and the trace
begins anew (R34). -/
def accept (op : HostOp) (s : State) : State :=
  { s with seq := .run (firstStep op), r := { s.r with op := op.code }, trace := [] }

/-- The meaning of a host operation: from `IDLE` the request is accepted, its operands standing in the latch, and the
operation runs to its response; a request presented while the controller is busy is not accepted and has no effect
(R29). -/
def request (op : HostOp) (operands : Regs → Regs) (run : State → State) (s : State) : State :=
  match s.seq with
  | .idle  => run (accept op (s.withRegs operands))
  | .run _ => s

/-! ### The end of an operation -/

/-- The response registers as a response (spec/30_encoding.md R82). -/
def Regs.response (r : Regs) : Response where
  res   := r.res
  rbyte := r.rbyte
  rbusy := r.rbusy
  mfr   := r.mfr
  dev   := r.dev
  terr  := r.terr

/-- The end of an operation (spec/70_reset_and_hazards.md R249): `r.RES` is written, the response is produced and `seq`
returns to `IDLE`. There is nothing else to restore (spec/60_exceptions.md R207). -/
def respond (k : ResultKind) (s : State) : State :=
  { s with seq := .idle
           r := { s.r with res := k }
           responses := s.responses ++ [({ s.r with res := k }).response] }

/-- The cleanup owed: one write-disable if and only if `r.WD_OWED = 1` (R205). Its own failure starts no second cleanup
(R207). -/
def cleanup (s : State) : State :=
  if s.r.wdOwed then (writeDisable s).2 else s

/-- Failure entry, `raise K` (R205): the kind is fixed, the remaining steps are skipped but for the cleanup owed, and the
response is produced with `r.RES = K`. -/
def raise (k : ResultKind) (s : State) : State :=
  respond k (cleanup s)

end Sys2Proof.Machine
end

