-- ==== Sys2Proof/Machine/Poller.lean ====
section
/-! DEFINITION. The Ready Poller (spec/41_ready_poller.md): `waitUntilReady`, and the host operation `WAIT_READY`. -/

namespace Sys2Proof.Machine

open Sys2Proof

/-- The outcomes of a poll (R125). -/
inductive PollResult where
  | ready
  | busy
  | transportError (e : TransportError)
  deriving DecidableEq, Repr

/-- The poll's bound for each caller (R137); that of `WAIT_READY` is the request's (R136). -/
def State.pollCfg (s : State) : PollCaller → PollCfg
  | .init        => s.cfg.pollReset
  | .reset       => s.cfg.pollReset
  | .pageRead    => s.cfg.pollRead
  | .pageProgram => s.cfg.pollPgm
  | .blockErase  => s.cfg.pollErs
  | .waitReady   => { maxAttempts := s.r.att.toNat, interPollDelay := s.r.dly.toNat }

/-- The loop of R126 with `n` iterations left: count, delay, read, and test the byte just read (R128, R129). A failed
read ends the poll (R132). -/
def pollLoop (d : Nat) : Nat → State → PollResult × State
  | 0, s     => (.busy, s)
  | n + 1, s =>
    match getFeature statusAddress (delay d s.countAttempt) with
    | (.err e, s) => (.transportError e, s)
    | (.ok rx, s) =>
      if oip (byteAt rx 0) then pollLoop d n (s.sample (byteAt rx 0)) else (.ready, s.sample (byteAt rx 0))

/-- `waitUntilReady(maxAttempts, interPollDelay)` (R126): one read with no delay before it (R127), then the loop. -/
def waitUntilReady (p : PollCfg) (s : State) : PollResult × State :=
  match getFeature statusAddress s.clearCnt with
  | (.err e, s) => (.transportError e, s)
  | (.ok rx, s) =>
    if oip (byteAt rx 0) then pollLoop p.interPollDelay p.maxAttempts (s.sample (byteAt rx 0))
    else (.ready, s.sample (byteAt rx 0))

/-- The steps of `WAIT_READY` (R136). -/
def waitReadyOp (s : State) : State :=
  match waitUntilReady (s.pollCfg .waitReady) s with
  | (.ready, s)            => respond .success s
  | (.busy, s)             => raise .busy s
  | (.transportError e, s) => raise .transportError (s.setTerr e)

/-- `WAIT_READY att dly`, operation `0x8` (R136). -/
def execWaitReady (att dly : BitVec 16) (s : State) : Host.Outcome State Fault Refusal :=
  .next (request .waitReady (fun r => { r with att := att, dly := dly }) waitReadyOp s)

end Sys2Proof.Machine
end

