-- ==== Sys2Proof/Machine/Engine.lean ====
section
/-! DEFINITION. The Command Engine: `RESET`, `READ_ID`, `INIT`, `PAGE_READ`, `PAGE_PROGRAM`, `BLOCK_ERASE`
(spec/43_command_engine.md). Guards come before any transport call, the length guard first (R161). -/

namespace Sys2Proof.Machine

open Sys2Proof

/-! ### RESET, READ_ID, INIT -/

/-- The steps of `RESET` (R163), up to its result: `success`, `busy` or `resetFailed`. -/
def resetSteps (caller : PollCaller) (s : State) : ResultKind × State :=
  match txCmd Opcode.reset s with
  | (.err _, s) => (.resetFailed, s)
  | (.ok _, s) =>
    match waitUntilReady (s.pollCfg caller) (delay s.cfg.tPorMs s) with
    | (.ready, s)            => (.success, s)
    | (.busy, s)             => (.busy, s)
    | (.transportError _, s) => (.resetFailed, s)

/-- `RESET` after its steps: the response (R163). -/
def resetOp (s : State) : State :=
  match resetSteps .reset s with
  | (.success, s) => respond .success s
  | (k, s)        => raise k s

/-- `RESET`, operation `0x1` (R163). -/
def execReset (s : State) : Host.Outcome State Fault Refusal :=
  .next (request .reset id resetOp s)

/-- The identity transaction, which updates `r.MFR` and `r.DEV` whenever it succeeds (R165, spec/20_memory.md R67). -/
def identitySteps (s : State) : Answer × State :=
  match txId s with
  | (.err e, s) => (.err e, s)
  | (.ok rx, s) => (.ok rx, s.setIdentity (byteAt rx 0) (byteAt rx 1))

/-- The steps of `READ_ID` (R165). -/
def readIdOp (s : State) : State :=
  match identitySteps s with
  | (.err e, s) => raise .transportError (s.setTerr e)
  | (.ok _, s)  => respond .success s

/-- `READ_ID`, operation `0x2` (R165). -/
def execReadId (s : State) : Host.Outcome State Fault Refusal :=
  .next (request .readId id readIdOp s)

/-- The comparison of `INIT` with the known-good pair (R166). -/
def identityOk (s : State) : Bool :=
  s.r.mfr == Config.expectedMfrId && s.r.dev == Config.expectedDevId

/-- `INIT` from its identity steps on (R166). Their transport error is mapped to `ResetFailed` and its value dropped
(spec/20_memory.md R64). -/
def initIdentity (s : State) : State :=
  match identitySteps s with
  | (.err _, s) => raise .resetFailed s
  | (.ok _, s)  => if identityOk s then respond .success s else raise .wrongId s

/-- The steps of `INIT` (R166). -/
def initOp (s : State) : State :=
  match resetSteps .init (delay s.cfg.tPorMs s) with
  | (.success, s) => initIdentity s
  | (_, s)        => raise .resetFailed s

/-- `INIT`, operation `0x0` (R166). -/
def execInit (s : State) : Host.Outcome State Fault Refusal :=
  .next (request .init id initOp s)

/-! ### PAGE_READ -/

/-- After any failed `PAGE_READ` the bytes `Buf[0..len)` are unspecified (R173): free bytes. Of an oversize request,
which R173 lists among the failures, that is the whole buffer (log 8). -/
def spoilBuffer (s : State) : State :=
  { s with buf := Buffer.storePrefix s.buf
             ((List.range (min s.r.len.toNat Config.pageSize)).map (Config.freeByte s.draws))
           draws := s.draws + 1 }

/-- A failure of `PAGE_READ`: the buffer bytes are unspecified, and the failure entry follows (R173). -/
def readFailure (k : ResultKind) (s : State) : State := raise k (spoilBuffer s)

/-- `PAGE_READ` step 3: cache to host (R170). -/
def readCacheStep (p : Phys) (s : State) : State :=
  match txColrd (colWord s.cfg p) s.r.len.toNat s with
  | (.err _, s) => readFailure .readFailed s
  | (.ok rx, s) => respond .success { s with buf := Buffer.storePrefix s.buf rx }

/-- The steps of `PAGE_READ` (R170), its length guard R171. -/
def pageReadOp (s : State) : State :=
  if Config.pageSize < s.r.len.toNat then readFailure .readFailed s
  else
    match translate s.r.addr with
    | none => readFailure .addressOutOfRange s
    | some p =>
      match txRow Opcode.pageRead p.rowAddr s with
      | (.err _, s) => readFailure .readFailed s
      | (.ok _, s) =>
        match waitUntilReady (s.pollCfg .pageRead) s with
        | (.ready, s)            => readCacheStep p s
        | (.busy, s)             => readFailure .readFailed s
        | (.transportError _, s) => readFailure .readFailed s

/-- `PAGE_READ addr len`, operation `0x3` (R170). -/
def execPageRead (addr : LogicalAddress) (len : BitVec 16) (s : State) : Host.Outcome State Fault Refusal :=
  .next (request .pageRead (fun r => { r with addr := addr, len := len }) pageReadOp s)

/-! ### The write-enable bracket of PAGE_PROGRAM and BLOCK_ERASE (R182, R183) -/

/-- A step that failed at the transport clears `r.OK` (R183). -/
def noteAnswer : Answer × State → State
  | (.ok _, s)  => s
  | (.err _, s) => s.setOk false

/-- A poll that did not end in `Ok` clears `r.OK` (R176, R180). -/
def notePoll : PollResult × State → State
  | (.ready, s)            => s
  | (.busy, s)             => s.setOk false
  | (.transportError _, s) => s.setOk false

/-- A step that is skipped once `r.OK = 0` (R183). -/
def whenOk (step : State → State) (s : State) : State :=
  if s.r.ok then step s else s

/-- The end of the bracket: if a step failed the kind is settled; if none did, the fail bit of a fresh status sample
settles it (R178, R181). A status read that fails, or a fail bit, ends the operation with `r.OK` still 1, as the
pseudocode of R176 and R180 returns there without writing it, although R26 and R183 say that the first failing step clears
it: DEDUCED (log 26). -/
def closeBracket (failBit : Byte → Bool) (k : ResultKind) (s : State) : State :=
  if s.r.ok then
    match getFeature statusAddress s with
    | (.err _, s) => raise k s
    | (.ok rx, s) =>
      if failBit (byteAt rx 0) then raise k (s.sample (byteAt rx 0))
      else respond .success (s.sample (byteAt rx 0))
  else raise k s

/-! ### PAGE_PROGRAM -/

/-- Program load: the payload is `Buf[0..len)` (R176, R97). -/
def programLoadStep (p : Phys) (s : State) : State :=
  noteAnswer (txColwr (colWord s.cfg p) (Buffer.prefixBytes s.buf s.r.len.toNat) s)

/-- The steps of `PAGE_PROGRAM` (R176), its length guard R175. -/
def pageProgramOp (s : State) : State :=
  if Config.pageDataSize < s.r.len.toNat then raise .programFailed s
  else
    match translate s.r.addr with
    | none => raise .addressOutOfRange s
    | some p =>
      closeBracket pf .programFailed
        (noteAnswer (writeDisable
          (whenOk (fun s => notePoll (waitUntilReady (s.pollCfg .pageProgram) s))
            (whenOk (fun s => noteAnswer (txRow Opcode.programExecute p.rowAddr s))
              (whenOk (programLoadStep p)
                (noteAnswer (writeEnable (s.setOk true))))))))

/-- `PAGE_PROGRAM addr len`, operation `0x4` (R176). -/
def execPageProgram (addr : LogicalAddress) (len : BitVec 16) (s : State) : Host.Outcome State Fault Refusal :=
  .next (request .pageProgram (fun r => { r with addr := addr, len := len }) pageProgramOp s)

/-! ### BLOCK_ERASE -/

/-- The steps of `BLOCK_ERASE` (R180): no length guard, and the full row address, page bits included. -/
def blockEraseOp (s : State) : State :=
  match translate s.r.addr with
  | none => raise .addressOutOfRange s
  | some p =>
    closeBracket ef .eraseFailed
      (noteAnswer (writeDisable
        (whenOk (fun s => notePoll (waitUntilReady (s.pollCfg .blockErase) s))
          (whenOk (fun s => noteAnswer (txRow Opcode.blockErase p.rowAddr s))
            (noteAnswer (writeEnable (s.setOk true)))))))

/-- `BLOCK_ERASE addr`, operation `0x5` (R180). -/
def execBlockErase (addr : LogicalAddress) (s : State) : Host.Outcome State Fault Refusal :=
  .next (request .blockErase (fun r => { r with addr := addr }) blockEraseOp s)

end Sys2Proof.Machine
end

