-- ==== Sys2Proof/Machine/Features.lean ====
section
/-! DEFINITION. Register Access: the host operations `GET_FEATURE`, `SET_FEATURE`, `CHECK_BUSY` (spec/42_feature_access.md). -/

namespace Sys2Proof.Machine

open Sys2Proof

/-- A successful read of the status register within an operation is the status sample `r.ST` (spec/10_state.md R25); a
read of another register is not. -/
def State.sampleStatus (ra b : Byte) (s : State) : State :=
  if ra = statusAddress then s.sample b else s

/-- The steps of `GET_FEATURE` (R148). The byte read from the status register is also the status sample, by R25's
definition of `r.ST`, which R148's list of the registers it writes does not name (log 25). -/
def getFeatureOp (s : State) : State :=
  match getFeature (regAddr s.r.reg) s with
  | (.err e, s) => raise .transportError (s.setTerr e)
  | (.ok rx, s) => respond .success ((s.sampleStatus (regAddr s.r.reg) (byteAt rx 0)).setRbyte (byteAt rx 0))

/-- `GET_FEATURE reg`, operation `0x6` (R148). -/
def execGetFeature (reg : BitVec 2) (s : State) : Host.Outcome State Fault Refusal :=
  .next (request .getFeature (fun r => { r with reg := reg }) getFeatureOp s)

/-- The steps of `SET_FEATURE` (R149). -/
def setFeatureOp (s : State) : State :=
  match setFeature (regAddr s.r.reg) s.r.wval s with
  | (.regAddressInvalid, s) => raise .regAddressInvalid s
  | (.transportError e, s)  => raise .transportError (s.setTerr e)
  | (.done, s)              => respond .success s

/-- `SET_FEATURE reg wval`, operation `0x7` (R149). -/
def execSetFeature (reg : BitVec 2) (wval : Byte) (s : State) : Host.Outcome State Fault Refusal :=
  .next (request .setFeature (fun r => { r with reg := reg, wval := wval }) setFeatureOp s)

/-- The steps of `CHECK_BUSY` (R150, R145). -/
def checkBusyOp (s : State) : State :=
  match getFeature statusAddress s with
  | (.err e, s) => raise .transportError (s.setTerr e)
  | (.ok rx, s) => respond .success ((s.sample (byteAt rx 0)).setRbusy (oip (byteAt rx 0)))

/-- `CHECK_BUSY`, operation `0x9` (R150). -/
def execCheckBusy (s : State) : Host.Outcome State Fault Refusal :=
  .next (request .checkBusy id checkBusyOp s)

end Sys2Proof.Machine
end

