-- ==== Sys2Proof/Machine/Translator.lean ====
section
/-! DEFINITION. The row `TRANSLATE` (spec/40_address_translator.md R110). -/

namespace Sys2Proof.Machine

open Sys2Proof

/-- `TRANSLATE addr`: the address stands on the translator's input port, and its outputs `State.translatorOut` are the
translation of it. Combinational: no transport call, no trace entry, no register (R110). -/
def execTranslate (addr : LogicalAddress) (s : State) : Host.Outcome State Fault Refusal :=
  .next { s with xaddr := addr }

end Sys2Proof.Machine
end

