-- ==== Sys2Proof/Machine/Wire.lean ====
section
/-! DEFINITION. The eleven wire commands (spec/30_encoding.md R92), each one transport transaction of its own. Their
answers stand in the trace; what an operation makes of an answer is the operation's (spec/42_feature_access.md R141).

The block has no port for a wire command on its own, and none of its operations emits one with a register address outside
the four (spec/20_memory.md R53, spec/30_encoding.md R101), a row of `2^17` or more (R89), a column word out of form
(R90), or a count above the page (R171, R175). That such a command can be presented, and that its operands are then
transmitted as given and not tested against `Instr.wf`, is the model's choice: DESIGN CHOICE (log 10). -/

namespace Sys2Proof.Machine

open Sys2Proof

/-- `PROGRAM_LOAD` (R97), column word and payload as given (log 10). -/
def execProgramLoad (w : BitVec 16) (data : List Byte) (s : State) : Host.Outcome State Fault Refusal :=
  .next (txColwr w data s).2

/-- `READ_CACHE` (R96), column word and count as given (log 10). -/
def execReadCache (w : BitVec 16) (len : Nat) (s : State) : Host.Outcome State Fault Refusal :=
  .next (txColrd w len s).2

/-- `WRITE_DISABLE` (R147). -/
def execWriteDisable (s : State) : Host.Outcome State Fault Refusal :=
  .next (writeDisable s).2

/-- `WRITE_ENABLE` (R146). -/
def execWriteEnable (s : State) : Host.Outcome State Fault Refusal :=
  .next (writeEnable s).2

/-- `GET_FEATURES` (R93, R141). A register address outside the four is transmitted as given: DESIGN CHOICE (log 10), the
block has no port at which one could be named (R53, R101). -/
def execGetFeatures (ra : Byte) (s : State) : Host.Outcome State Fault Refusal :=
  .next (getFeature ra s).2

/-- `PROGRAM_EXECUTE` (R88), the row as given (log 10). -/
def execProgramExecute (row : BitVec 24) (s : State) : Host.Outcome State Fault Refusal :=
  .next (txRow Opcode.programExecute row s).2

/-- `PAGE_READ`, the wire command (R88), the row as given (log 10). -/
def execPageReadCmd (row : BitVec 24) (s : State) : Host.Outcome State Fault Refusal :=
  .next (txRow Opcode.pageRead row s).2

/-- `SET_FEATURES` (R94), with the guard of the primitive that emits it: no transaction for the status register (R143,
R144). A register address outside the four is transmitted as given: DESIGN CHOICE (log 10), the block has no port at
which one could be named (R53, R101). -/
def execSetFeatures (ra v : Byte) (s : State) : Host.Outcome State Fault Refusal :=
  .next (setFeature ra v s).2

/-- `READ_ID`, the wire command (R95). -/
def execReadIdCmd (s : State) : Host.Outcome State Fault Refusal :=
  .next (txId s).2

/-- `BLOCK_ERASE`, the wire command (R88), the row as given (log 10). -/
def execBlockEraseCmd (row : BitVec 24) (s : State) : Host.Outcome State Fault Refusal :=
  .next (txRow Opcode.blockErase row s).2

/-- `RESET`, the wire command (R87). -/
def execResetCmd (s : State) : Host.Outcome State Fault Refusal :=
  .next (txCmd Opcode.reset s).2

end Sys2Proof.Machine
end

