-- ==== Sys2Proof/Machine/Dispatch.lean ====
section
/-! DEFINITION. One arm per instruction. -/

namespace Sys2Proof.Machine

open Sys2Proof

def exec (i : Instr) (s : State) : Host.Outcome State Fault Refusal :=
  match i with
  | .init => Sys2Proof.Machine.execInit s
  | .reset => Sys2Proof.Machine.execReset s
  | .readId => Sys2Proof.Machine.execReadId s
  | .pageRead addr len => Sys2Proof.Machine.execPageRead addr len s
  | .pageProgram addr len => Sys2Proof.Machine.execPageProgram addr len s
  | .blockErase addr => Sys2Proof.Machine.execBlockErase addr s
  | .getFeature reg => Sys2Proof.Machine.execGetFeature reg s
  | .setFeature reg wval => Sys2Proof.Machine.execSetFeature reg wval s
  | .waitReady att dly => Sys2Proof.Machine.execWaitReady att dly s
  | .checkBusy => Sys2Proof.Machine.execCheckBusy s
  | .translate addr => Sys2Proof.Machine.execTranslate addr s
  | .programLoad w data => Sys2Proof.Machine.execProgramLoad w data s
  | .readCache w len => Sys2Proof.Machine.execReadCache w len s
  | .writeDisable => Sys2Proof.Machine.execWriteDisable s
  | .writeEnable => Sys2Proof.Machine.execWriteEnable s
  | .getFeatures ra => Sys2Proof.Machine.execGetFeatures ra s
  | .programExecute row => Sys2Proof.Machine.execProgramExecute row s
  | .pageReadCmd row => Sys2Proof.Machine.execPageReadCmd row s
  | .setFeatures ra v => Sys2Proof.Machine.execSetFeatures ra v s
  | .readIdCmd => Sys2Proof.Machine.execReadIdCmd s
  | .blockEraseCmd row => Sys2Proof.Machine.execBlockEraseCmd row s
  | .resetCmd => Sys2Proof.Machine.execResetCmd s

end Sys2Proof.Machine
end

