-- ==== Sys2Proof/Machine/Sequencer.lean ====
section
/-! DEFINITION. The sequencer, one step at a time: what one step of `RUN(op, step)` does (spec/10_state.md R22).

The operations of Poller, Features and Engine run from acceptance to response in one go; here the same steps are taken
one by one, so that a hardware reset or a request can fall between two of them (spec/70_reset_and_hazards.md R233, R29).
That both agree when nothing falls between is an obligation of the package. -/

namespace Sys2Proof.Machine

open Sys2Proof

/-- The host operation a poll belongs to. -/
def PollCaller.op : PollCaller → HostOp
  | .init        => .init
  | .reset       => .reset
  | .pageRead    => .pageRead
  | .pageProgram => .pageProgram
  | .blockErase  => .blockErase
  | .waitReady   => .waitReady

/-- The operation of a step: `op` of `RUN(op, step)`. -/
def SeqStep.op : SeqStep → HostOp
  | .initDelay         => .init
  | .resetSend inInit  => if inInit then .init else .reset
  | .resetDelay inInit => if inInit then .init else .reset
  | .poll caller _     => caller.op
  | .identity inInit   => if inInit then .init else .readId
  | .readGuards        => .pageRead
  | .readLoad          => .pageRead
  | .readCache         => .pageRead
  | .programGuards     => .pageProgram
  | .programEnable     => .pageProgram
  | .programLoad       => .pageProgram
  | .programExecute    => .pageProgram
  | .programDisable    => .pageProgram
  | .programCheck      => .pageProgram
  | .eraseGuards       => .blockErase
  | .eraseEnable       => .blockErase
  | .eraseCommand      => .blockErase
  | .eraseDisable      => .blockErase
  | .eraseCheck        => .blockErase
  | .getFeature        => .getFeature
  | .setFeature        => .setFeature
  | .checkBusy         => .checkBusy

/-- Where a poll's outcome takes its caller (R163, R166, R170, R176, R180, R136). -/
def afterPoll (caller : PollCaller) (out : PollResult) (s : State) : State :=
  match caller with
  | .init =>
    match out with
    | .ready            => s.goto (.identity true)
    | .busy             => raise .resetFailed s
    | .transportError _ => raise .resetFailed s
  | .reset =>
    match out with
    | .ready            => respond .success s
    | .busy             => raise .busy s
    | .transportError _ => raise .resetFailed s
  | .pageRead =>
    match out with
    | .ready            => s.goto .readCache
    | .busy             => readFailure .readFailed s
    | .transportError _ => readFailure .readFailed s
  | .pageProgram => (notePoll (out, s)).goto .programDisable
  | .blockErase  => (notePoll (out, s)).goto .eraseDisable
  | .waitReady =>
    match out with
    | .ready            => respond .success s
    | .busy             => raise .busy s
    | .transportError e => raise .transportError (s.setTerr e)

/-- The test that follows a status read of a poll (R126): a failed read or `OIP = 0` ends the poll; otherwise another
iteration runs while fewer than `maxAttempts` have. -/
def pollTest (caller : PollCaller) (x : Answer × State) : State :=
  match x with
  | (.err e, s) => afterPoll caller (.transportError e) s
  | (.ok rx, s) =>
    if oip (byteAt rx 0) then
      if s.r.cnt < (s.pollCfg caller).maxAttempts then (s.sample (byteAt rx 0)).goto (.poll caller .delay)
      else afterPoll caller .busy (s.sample (byteAt rx 0))
    else afterPoll caller .ready (s.sample (byteAt rx 0))

/-- After a step of the bracket: the next step if it succeeded, else the write-disable owed (R183). -/
def bracketNext (next disable : SeqStep) (s : State) : State :=
  if s.r.ok then s.goto next else s.goto disable

/-- After the write-disable: the fail-bit check if no step failed, else the kind is settled (R178, R181). -/
def afterDisable (check : SeqStep) (k : ResultKind) (s : State) : State :=
  if s.r.ok then s.goto check else raise k s

/-- A step that needs the translation of `r.ADDR`, recomputed whenever it is used (spec/10_state.md R23); out of range
the operation ends with `fail`. -/
def withPhys (fail : State → State) (step : Phys → State → State) (s : State) : State :=
  match translate s.r.addr with
  | none   => fail s
  | some p => step p s

/-- One step of the sequencer at `step`. -/
def tickAt (step : SeqStep) (s : State) : State :=
  match step with
  | .initDelay => (delay s.cfg.tPorMs s).goto (.resetSend true)
  | .resetSend inInit =>
    match txCmd Opcode.reset s with
    | (.err _, s) => raise .resetFailed s
    | (.ok _, s)  => s.goto (.resetDelay inInit)
  | .resetDelay inInit => (delay s.cfg.tPorMs s).goto (.poll (if inInit then .init else .reset) .first)
  | .poll caller .first => pollTest caller (getFeature statusAddress s.clearCnt)
  | .poll caller .delay =>
    (delay (s.pollCfg caller).interPollDelay s.countAttempt).goto (.poll caller .read)
  | .poll caller .read => pollTest caller (getFeature statusAddress s)
  | .identity inInit => if inInit then initIdentity s else readIdOp s
  | .readGuards =>
    if Config.pageSize < s.r.len.toNat then readFailure .readFailed s
    else withPhys (readFailure .addressOutOfRange) (fun _ s => s.goto .readLoad) s
  | .readLoad =>
    withPhys (readFailure .addressOutOfRange) (fun p s =>
      match txRow Opcode.pageRead p.rowAddr s with
      | (.err _, s) => readFailure .readFailed s
      | (.ok _, s)  => s.goto (.poll .pageRead .first)) s
  | .readCache => withPhys (readFailure .addressOutOfRange) readCacheStep s
  | .programGuards =>
    if Config.pageDataSize < s.r.len.toNat then raise .programFailed s
    else withPhys (raise .addressOutOfRange) (fun _ s => (s.setOk true).goto .programEnable) s
  | .programEnable => bracketNext .programLoad .programDisable (noteAnswer (writeEnable s))
  | .programLoad =>
    withPhys (raise .addressOutOfRange)
      (fun p s => bracketNext .programExecute .programDisable (programLoadStep p s)) s
  | .programExecute =>
    withPhys (raise .addressOutOfRange)
      (fun p s => bracketNext (.poll .pageProgram .first) .programDisable
        (noteAnswer (txRow Opcode.programExecute p.rowAddr s))) s
  | .programDisable => afterDisable .programCheck .programFailed (noteAnswer (writeDisable s))
  | .programCheck => closeBracket pf .programFailed s
  | .eraseGuards => withPhys (raise .addressOutOfRange) (fun _ s => (s.setOk true).goto .eraseEnable) s
  | .eraseEnable => bracketNext .eraseCommand .eraseDisable (noteAnswer (writeEnable s))
  | .eraseCommand =>
    withPhys (raise .addressOutOfRange)
      (fun p s => bracketNext (.poll .blockErase .first) .eraseDisable
        (noteAnswer (txRow Opcode.blockErase p.rowAddr s))) s
  | .eraseDisable => afterDisable .eraseCheck .eraseFailed (noteAnswer (writeDisable s))
  | .eraseCheck => closeBracket ef .eraseFailed s
  | .getFeature => getFeatureOp s
  | .setFeature => setFeatureOp s
  | .checkBusy  => checkBusyOp s

/-- One step of the sequencer: in `IDLE` it does nothing until a request arrives (spec/70_reset_and_hazards.md R231). -/
def tick (s : State) : State :=
  match s.seq with
  | .idle   => s
  | .run st => tickAt st s

/-- `n` steps of the sequencer. -/
def ticks : Nat → State → State
  | 0, s     => s
  | n + 1, s => ticks n (tick s)

/-- The operation a request word names, or none for `0xA` to `0xF` (spec/30_encoding.md R84, R99). -/
def hostOpOf (w : RequestWord) : Option HostOp :=
  match (w.extractLsb' 0 4).toNat with
  | 0 => some .init
  | 1 => some .reset
  | 2 => some .readId
  | 3 => some .pageRead
  | 4 => some .pageProgram
  | 5 => some .blockErase
  | 6 => some .getFeature
  | 7 => some .setFeature
  | 8 => some .waitReady
  | 9 => some .checkBusy
  | _ => none

end Sys2Proof.Machine
end

