-- ==== Sys2Proof/Machine/Inputs.lean ====
section
/-! DEFINITION. What one step of the machine does with what is presented to it (spec/00_scope.md R13). -/

namespace Sys2Proof.Machine

open Sys2Proof

/-- The registers after a hardware reset: `r.WD_OWED = 0`, every other one unspecified (spec/10_state.md R43): a free
value, of draw `d`. -/
def freeRegs (d : Nat) : Regs where
  op     := BitVec.ofNat 4 (Config.freeReg d 0)
  addr   := BitVec.ofNat 32 (Config.freeReg d 1)
  len    := BitVec.ofNat 16 (Config.freeReg d 2)
  reg    := BitVec.ofNat 2 (Config.freeReg d 3)
  wval   := BitVec.ofNat 8 (Config.freeReg d 4)
  att    := BitVec.ofNat 16 (Config.freeReg d 5)
  dly    := BitVec.ofNat 16 (Config.freeReg d 6)
  cnt    := Config.freeReg d 7
  st     := BitVec.ofNat 8 (Config.freeReg d 8)
  ok     := (BitVec.ofNat 1 (Config.freeReg d 9)).getLsbD 0
  wdOwed := false
  res    := Config.freeKind d
  rbyte  := BitVec.ofNat 8 (Config.freeReg d 10)
  rbusy  := (BitVec.ofNat 1 (Config.freeReg d 11)).getLsbD 0
  mfr    := BitVec.ofNat 8 (Config.freeReg d 12)
  dev    := BitVec.ofNat 8 (Config.freeReg d 13)
  terr   := ⟨Fin.ofNat _ (Config.freeReg d 14)⟩

/-- A hardware reset (spec/70_reset_and_hazards.md R230, R231): `seq = IDLE`, nothing owed, the trace empty; no transport
call, no response for an operation it cuts (R233); `cfg` and the host buffer unaffected. -/
def hardReset (s : State) : State :=
  { s with seq := .idle, r := freeRegs s.draws, trace := [], draws := s.draws + 1 }

/-- The running operation uses byte `index` of the buffer: a `PAGE_PROGRAM` or a `PAGE_READ`, and the byte is in
`Buf[0..len)` (R245). -/
def bufferInUse (s : State) (index : Nat) : Bool :=
  match s.seq with
  | .idle   => false
  | .run st =>
    match st.op with
    | .pageRead | .pageProgram => decide (index < s.r.len.toNat)
    | .init | .reset | .readId | .blockErase | .getFeature | .setFeature | .waitReady | .checkBusy => false

/-- The host stores a byte to its buffer (spec/10_state.md R32). -/
def hostStore (index : Nat) (value : Byte) (s : State) : Host.Outcome State Fault Refusal :=
  if Config.pageSize ≤ index then .fault .bufferIndex
  else if bufferInUse s index then .fault .bufferRace
  else .next { s with buf := Buffer.write s.buf index value }

/-- The stop for an encoded form that is no instruction. -/
def refusalOf : Reject → Refusal
  | .reservedOperation _ => .reservedOperation
  | .emptyTransaction    => .notAWireCommand
  | .notAnOpcode _       => .notAWireCommand
  | .wrongLength _       => .notAWireCommand

/-- What a step does before it runs an instruction: a request word is latched whole, the fields its operation does not
use included (R23). -/
def State.latchItem (s : State) : Item → State
  | .host w    => s.latchWord w
  | .wire _ _  => s
  | .address _ => s

/-- Run a presented instruction. -/
def runItem (x : Item) (s : State) : Host.Outcome State Fault Refusal :=
  match decode x with
  | .ok i    => exec i (s.latchItem x)
  | .error e => .refused (refusalOf e)

/-- An instruction is presented. The translator is always available (spec/30_encoding.md R84). Anything else presented
while the controller is busy is not accepted and has no effect (R29): the step is the running operation's. -/
def presentItem (x : Item) (s : State) : Host.Outcome State Fault Refusal :=
  match x with
  | .address _ => runItem x s
  | .host _    => if s.isBusy then .next (tick s) else runItem x s
  | .wire _ _  => if s.isBusy then .next (tick s) else runItem x s

/-- A request is presented, to be run one step at a time: from `IDLE` it is latched and accepted, and the sequencer
stands at its first step; while the controller is busy it is not accepted (R29). -/
def startRequest (w : RequestWord) (s : State) : Host.Outcome State Fault Refusal :=
  if s.isBusy then .next (tick s)
  else
    match hostOpOf w with
    | some op => .next (accept op (s.latchWord w))
    | none    => .refused .reservedOperation

/-- One entry of `State.inputs`. -/
def takeInput (x : Input) (s : State) : Host.Outcome State Fault Refusal :=
  match x with
  | .present item    => presentItem item s
  | .start w         => startRequest w s
  | .quiet           => .next (tick s)
  | .hardReset       => .next (hardReset s)
  | .hostStore k b   => hostStore k b s

/-- One step: the next input, or, when none is listed, nothing presented. -/
def stepInputs (s : State) : Host.Outcome State Fault Refusal :=
  match s.inputs with
  | []        => .next (tick s)
  | x :: rest => takeInput x { s with inputs := rest }

/-- Place an encoded form where the next step takes its instruction: at the head of the inputs, the sequencer in `IDLE`. -/
def placeItem (x : Item) (s : State) : State :=
  { s with seq := .idle, inputs := .present x :: s.inputs }

end Sys2Proof.Machine
end

