-- ==== Sys2Proof/Machine/Step.lean ====
section
/-! DEFINITION. One step of the machine, and where it takes its next instruction from.

The block fetches nothing (spec/20_memory.md R79): an instruction is what the outside world presents to it, the head of
`State.inputs`. -/

namespace Sys2Proof.Machine

open Sys2Proof

/-- One step. -/
def step (s : State) : Host.Outcome State Fault Refusal := stepInputs s

/-- `s` with the instruction of an opcode-table row's bits presented to the next step. -/
def State.withFetchWord (s : State) (nbits w : Nat) : State := placeItem (layoutWord nbits w) s

end Sys2Proof.Machine
end

