-- ==== Sys2Proof/Safety.lean ====
section
/-! DEFINITION. What counts as a safe state, and what a trace lets one say of the chip.

`Safety.Inv` is the invariant every step keeps. `Safety.chipAfter` renders the environment assumptions of
spec/10_state.md R38 to R40 as a function of the calls made: no rule of the controller reads it (R42). -/

namespace Sys2Proof.Machine.Safety

open Sys2Proof

/-! ### The invariant -/

/-- The steps at which a write-disable is owed: from after write-enable to write-disable (R27, R146, R147). -/
def owedAt : SeqStep → Bool
  | .initDelay | .resetSend _ | .resetDelay _ | .identity _ => false
  | .poll .init _ | .poll .reset _ | .poll .pageRead _ | .poll .waitReady _ => false
  | .poll .pageProgram _ | .poll .blockErase _ => true
  | .readGuards | .readLoad | .readCache => false
  | .programGuards | .programEnable | .programCheck => false
  | .programLoad | .programExecute | .programDisable => true
  | .eraseGuards | .eraseEnable | .eraseCheck => false
  | .eraseCommand | .eraseDisable => true
  | .getFeature | .setFeature | .checkBusy => false

/-- The steps of the bracket that are reached only while no step has failed (R183). -/
def okNeededAt : SeqStep → Bool
  | .initDelay | .resetSend _ | .resetDelay _ | .identity _ => false
  | .poll .init _ | .poll .reset _ | .poll .pageRead _ | .poll .waitReady _ => false
  | .poll .pageProgram _ | .poll .blockErase _ => true
  | .readGuards | .readLoad | .readCache => false
  | .programGuards | .programDisable => false
  | .programEnable | .programLoad | .programExecute | .programCheck => true
  | .eraseGuards | .eraseDisable => false
  | .eraseEnable | .eraseCommand | .eraseCheck => true
  | .getFeature | .setFeature | .checkBusy => false

/-- Past its guards, an operation holds a request that passed them (R161, R171, R175). -/
def guardsPassed (st : SeqStep) (r : Regs) : Bool :=
  match st with
  | .readLoad | .readCache | .poll .pageRead _ => decide (r.len.toNat ≤ Config.pageSize) && inRange r.addr
  | .programEnable | .programLoad | .programExecute | .programDisable | .programCheck | .poll .pageProgram _ =>
    decide (r.len.toNat ≤ Config.pageDataSize) && inRange r.addr
  | .eraseEnable | .eraseCommand | .eraseDisable | .eraseCheck | .poll .blockErase _ => inRange r.addr
  | .initDelay | .resetSend _ | .resetDelay _ | .identity _ => true
  | .poll .init _ | .poll .reset _ | .poll .waitReady _ => true
  | .readGuards | .programGuards | .eraseGuards => true
  | .getFeature | .setFeature | .checkBusy => true

/-- The attempt counter at the steps of a poll's loop (R24, R128): it counts the iterations begun and never exceeds
`maxAttempts`. -/
def countInBound (st : SeqStep) (s : State) : Bool :=
  match st with
  | .poll c .delay => decide (s.r.cnt < (s.pollCfg c).maxAttempts)
  | .poll c .read  => decide (0 < s.r.cnt ∧ s.r.cnt ≤ (s.pollCfg c).maxAttempts)
  | .poll _ .first => true
  | .initDelay | .resetSend _ | .resetDelay _ | .identity _ => true
  | .readGuards | .readLoad | .readCache => true
  | .programGuards | .programEnable | .programLoad | .programExecute | .programDisable | .programCheck => true
  | .eraseGuards | .eraseEnable | .eraseCommand | .eraseDisable | .eraseCheck => true
  | .getFeature | .setFeature | .checkBusy => true

/-- The sequencer is where the registers say it is. In `IDLE` nothing is owed (R27). -/
def seqOk (s : State) : Bool :=
  match s.seq with
  | .idle   => !s.r.wdOwed
  | .run st =>
    (s.r.op == st.op.code) && (s.r.wdOwed == owedAt st) && (!okNeededAt st || s.r.ok) && guardsPassed st s.r
      && countInBound st s

/-- The input is one the host level has: not a wire command presented on its own, which the block has no port for
(R147, log 10). -/
def hostLevel : Input → Bool
  | .present (.host _)    => true
  | .present (.address _) => true
  | .present (.wire _ _)  => false
  | .start _              => true
  | .quiet                => true
  | .hardReset            => true
  | .hostStore _ _        => true

/-- The invariant: the buffer is in canonical form, the sequencer and its registers agree, and what will be presented
is at the host level. -/
def Inv (s : State) : Prop :=
  Buffer.wf s.buf = true ∧ seqOk s = true ∧ s.inputs.all hostLevel = true

/-! ### What a trace says of the chip (spec/10_state.md R38 to R40) -/

/-- What the chip's cache register was last filled with (R40, spec/20_memory.md R79). -/
inductive CacheFill where
  /-- The spec does not say. -/
  | unknown
  /-- The array page the row address bytes name, by a `PAGE_READ` command. -/
  | page (row : List Byte)
  /-- By a `PROGRAM_LOAD` of these bytes at the column word bytes. Where the bytes run past the page it names the load and
  says nothing of what the cache stores: that is not in the source (spec/20_memory.md R70, N16; log 17). -/
  | loaded (col data : List Byte)
  deriving DecidableEq, Repr

/-- What the calls made let one say of the chip. -/
structure ChipView where
  /-- The write-enable latch, where the spec says how it stands (R39). -/
  wel   : Option Bool
  /-- An internal cycle may be running: one was triggered and no status read since has shown `OIP = 0` (R38). -/
  cycle : Bool
  /-- The cache register (R40). -/
  cache : CacheFill
  deriving DecidableEq, Repr

/-- A command that reached the chip. Whether the chip clears its latch by itself at the end of a program or erase cycle
or at a reset, and what a reset does to the cache, is not stated (R39, R164): nothing is said of them. -/
def chipCommand (v : ChipView) : List Byte → ChipView
  | [0x06]               => { v with wel := some true }
  | [0x04]               => { v with wel := some false }
  | [0xFF]               => { wel := none, cycle := true, cache := .unknown }
  | [0x13, ra2, ra1, ra0] => { v with cycle := true, cache := .page [ra2, ra1, ra0] }
  | [0x10, _, _, _]      => { v with wel := none, cycle := true }
  | [0xD8, _, _, _]      => { v with wel := none, cycle := true }
  | _                    => v

/-- The cache after a failed `send`: as it was where the command does not fill it, so that a failed program execute
leaves the loaded data (spec/70_reset_and_hazards.md R242), and otherwise not known. -/
def cacheAfterFailed (v : ChipView) (tx : List Byte) : CacheFill :=
  if (chipCommand v tx).cache = v.cache then v.cache else .unknown

/-- One call. After a failed one it is not known what reached the chip. A load that was carried is named with its whole
payload, also where that runs past the page; what the cache then stores is left open (R70, log 17). -/
def chipAfter (v : ChipView) : Call → ChipView
  | .send tx (.ok _)                           => chipCommand v tx
  | .send tx (.err _)                          => { wel := none, cycle := true, cache := cacheAfterFailed v tx }
  | .sendReceive [0x0F, 0xC0] _ (.ok (st :: _)) => { v with cycle := v.cycle && oip st }
  | .sendReceive _ _ _                         => v
  | .receive _ _                               => v
  | .sendCommandThenData cmd data (.ok _)      => { v with cache := .loaded cmd.tail data }
  | .sendCommandThenData _ _ (.err _)          => { v with cache := .unknown }
  | .delay _                                   => v

/-- The calls of a trace, in order. -/
def chipAfterTrace (v : ChipView) (trace : List Call) : ChipView := trace.foldl chipAfter v

end Sys2Proof.Machine.Safety
end

