-- ==== Sys2Proof/Certificates/Slice0/Obligations.lean ====
section
/-! DEFINITION. The statements for the provers, and the words they are said in.

Bytes on the wire are written out here as numbers and by plain arithmetic on the address, not by the model's own
functions, so that a statement says what the spec says. -/

namespace Sys2Proof.Claims

open Sys2Proof Sys2Proof.Machine

/-! ### Bytes of the wire, by arithmetic -/

/-- The three row address bytes of an in-range address: `rowAddr = addr >> 11`, most significant first (R89, R116). -/
def rowWire (addr : LogicalAddress) : List Byte :=
  [BitVec.ofNat 8 (addr.toNat / 2048 / 65536), BitVec.ofNat 8 (addr.toNat / 2048 / 256),
   BitVec.ofNat 8 (addr.toNat / 2048)]

/-- The two column bytes of an in-range address: the column, with the plane at bit 12 of the word only under
`cfg.PLANE_IN_COL` (R90). -/
def colWire (c : Cfg) (addr : LogicalAddress) : List Byte :=
  [BitVec.ofNat 8 (addr.toNat % 2048 / 256 + if c.planeInCol then 16 * (addr.toNat / 131072 % 2) else 0),
   BitVec.ofNat 8 (addr.toNat % 2048)]

/-- The bytes of a 24-bit field, most significant first. -/
def threeBytes (n : Nat) : List Byte := [BitVec.ofNat 8 (n / 65536), BitVec.ofNat 8 (n / 256), BitVec.ofNat 8 n]

/-- The bytes of a 16-bit field, most significant first. -/
def twoBytes (n : Nat) : List Byte := [BitVec.ofNat 8 (n / 256), BitVec.ofNat 8 n]

/-- The bytes transmitted by a call, in order (R57 to R60). -/
def txBytes : Call → List Byte
  | .send tx _                      => tx
  | .sendReceive tx _ _             => tx
  | .receive _ _                    => []
  | .sendCommandThenData cmd data _ => cmd ++ data
  | .delay _                        => []

/-- The answer of a call, if it has one. -/
def answerOf : Call → Option Answer
  | .send _ a                  => some a
  | .sendReceive _ _ a         => some a
  | .receive _ a               => some a
  | .sendCommandThenData _ _ a => some a
  | .delay _                   => none

/-- The number of bytes a call receives. -/
def rxCount : Call → Nat
  | .send _ _                  => 0
  | .sendReceive _ n _         => n
  | .receive n _               => n
  | .sendCommandThenData _ _ _ => 0
  | .delay _                   => 0

/-- The call failed at the transport. -/
def failed (c : Call) : Bool :=
  match answerOf c with
  | some (.err _) => true
  | some (.ok _)  => false
  | none          => false

/-- `send [b]`, whatever its answer. -/
def isCommand (b : Byte) : Call → Bool
  | .send tx _                 => tx == [b]
  | .sendReceive _ _ _         => false
  | .receive _ _               => false
  | .sendCommandThenData _ _ _ => false
  | .delay _                   => false

/-! ### Polls -/

/-- A read of the status register with its answer (R126). -/
def statusRead (a : Answer) : Call := .sendReceive [0x0F, 0xC0] 1 a

/-- The calls of a poll whose reads were answered in this order: a read, then a delay and a read for each further one
(R127, R128). -/
def pollCalls (d : Nat) : List Answer → List Call
  | []      => []
  | a :: as => statusRead a :: as.flatMap fun a => [.delay d, statusRead a]

/-- The answers that show these bytes. -/
def shown (bs : List Byte) : List Answer := bs.map fun b => .ok [b]

/-- The bytes all have `OIP = 1`. -/
def allBusy (bs : List Byte) : Prop := ∀ b ∈ bs, b.getLsbD 0 = true

/-- A poll with bound `p` made these calls and ended so (R127 to R132): busy bytes, at most `maxAttempts` of them, and
then a byte with `OIP = 0` or a failed read; or `1 + maxAttempts` busy bytes. -/
def PollRun (p : PollCfg) (calls : List Call) : PollResult → Prop
  | .ready => ∃ bs b, allBusy bs ∧ bs.length ≤ p.maxAttempts ∧ b.getLsbD 0 = false ∧
      calls = pollCalls p.interPollDelay (shown bs ++ [.ok [b]])
  | .busy => ∃ bs, allBusy bs ∧ bs.length = p.maxAttempts + 1 ∧ calls = pollCalls p.interPollDelay (shown bs)
  | .transportError e => ∃ bs, allBusy bs ∧ bs.length ≤ p.maxAttempts ∧
      calls = pollCalls p.interPollDelay (shown bs ++ [.err e])

/-- The byte a status read shows, if the call is one that succeeded. -/
def statusShown : Call → Option Byte
  | .sendReceive [0x0F, 0xC0] 1 (.ok [b]) => some b
  | _ => none

/-- The last status byte a list of calls shows, or `st` if they show none (R25). -/
def lastShown (st : Byte) (calls : List Call) : Byte := (calls.filterMap statusShown).getLastD st

/-- A read of the status register. -/
def isStatusRead : Call → Bool
  | .sendReceive tx n _        => tx == [0x0F, 0xC0] && n == 1
  | .send _ _                  => false
  | .receive _ _               => false
  | .sendCommandThenData _ _ _ => false
  | .delay _                   => false

/-- The attempt counter after these calls, in an operation with one poll: the delays since the poll's first read, or `n`
if no poll was begun (R24, R128). -/
def countAfter (n : Nat) (calls : List Call) : Nat :=
  match calls.dropWhile fun c => !isStatusRead c with
  | []        => n
  | _ :: rest => rest.countP fun c => (answerOf c).isNone

/-! ### What the environment answers -/

/-- An answer to a call that receives `n` bytes obeys the length law (R58). -/
def LengthLaw (n : Nat) (a : Answer) : Prop := ∀ rx, a = .ok rx → rx.length = n

/-- `a` is the answer the scheduled one `x` stands for, to a call that receives `n` bytes. -/
def Scheduled (n : Nat) (x a : Answer) : Prop :=
  match x with
  | .err e => a = .err e
  | .ok rx => ∃ r, a = .ok r ∧ r.length = n ∧ (rx.length = n → r = rx)

/-- `t` is what one call with answer `a` leaves of `s` on the environment's side: the next scheduled answer is used up,
and it is the answer given (R63). -/
def Answered (s : State) (n : Nat) (a : Answer) (t : State) : Prop :=
  t.script = s.script.tail ∧ LengthLaw n a ∧ ∀ x, s.script.head? = some x → Scheduled n x a

/-! ### The end of an operation -/

/-- `t` is what an accepted request leaves at its end: `IDLE`, one more response, holding the response registers; `cfg`,
the translator's port and what will be presented as they were (R29, R31, R249). -/
def Ended (s t : State) : Prop :=
  t.seq = .idle ∧ t.responses = s.responses ++ [t.r.response] ∧ t.cfg = s.cfg ∧ t.xaddr = s.xaddr ∧
    t.inputs = s.inputs

/-- The write-enable bracket of an operation whose steps before the poll are `steps`, each a call waiting for its answer
(R176, R180, R183): the first failing step is followed by the write-disable alone, and the fail bit is read only if no
step failed. `ok` is `r.OK` at the end: cleared by the first failing step (R26), but not by a failure of the final status
read or by the fail bit, after which the pseudocode of R176 and R180 does not write it (log 26); `good` says whether the
operation succeeded. -/
def BracketRun (steps : List (Answer → Call)) (p : PollCfg) (failBit : Nat) (trace : List Call) (ok good : Bool) :
    Prop :=
  (∃ before step after e wd, steps = before ++ step :: after ∧
      trace = before.map (fun c => c (.ok [])) ++ [step (.err e), .send [0x04] wd] ∧ ok = false ∧ good = false) ∨
  (∃ calls out wd, PollRun p calls out ∧ out ≠ .ready ∧
      trace = steps.map (fun c => c (.ok [])) ++ calls ++ [.send [0x04] wd] ∧ ok = false ∧ good = false) ∨
  (∃ calls e, PollRun p calls .ready ∧
      trace = steps.map (fun c => c (.ok [])) ++ calls ++ [.send [0x04] (.err e)] ∧ ok = false ∧ good = false) ∨
  (∃ calls e, PollRun p calls .ready ∧
      trace = steps.map (fun c => c (.ok [])) ++ calls ++ [.send [0x04] (.ok []), statusRead (.err e)] ∧
      ok = true ∧ good = false) ∨
  (∃ calls b, PollRun p calls .ready ∧
      trace = steps.map (fun c => c (.ok [])) ++ calls ++ [.send [0x04] (.ok []), statusRead (.ok [b])] ∧
      ok = true ∧ good = !b.getLsbD failBit)

/-- The reset steps (R163): the transmit, the delay of `cfg.T_POR_MS`, the poll, and how they end. -/
def ResetRun (c : Cfg) (calls : List Call) (out : ResultKind) : Prop :=
  (∃ e, calls = [.send [0xFF] (.err e)] ∧ out = .resetFailed) ∨
  (∃ poll o, PollRun c.pollReset poll o ∧ calls = .send [0xFF] (.ok []) :: .delay c.tPorMs :: poll ∧
      ((o = .ready ∧ out = .success) ∨ (o = .busy ∧ out = .busy) ∨
        ((∃ e, o = .transportError e) ∧ out = .resetFailed)))

/-- The operations of the host level. -/
def isHostOperation : Instr → Bool
  | .init | .reset | .readId | .pageRead _ _ | .pageProgram _ _ | .blockErase _ => true
  | .getFeature _ | .setFeature _ _ | .waitReady _ _ | .checkBusy => true
  | .translate _ => false
  | .programLoad _ _ | .readCache _ _ | .writeDisable | .writeEnable | .getFeatures _ => false
  | .programExecute _ | .pageReadCmd _ | .setFeatures _ _ | .readIdCmd | .blockEraseCmd _ | .resetCmd => false

/-- The call transmits a `READ_CACHE`: its op-code is `0x03` (R92, R96). -/
def isCacheRead (c : Call) : Bool := (txBytes c).head? == some 0x03

/-- Two responses agree in the result and in the data outputs that are meaningful after `i` (R82, R14). `terr` is
meaningful exactly where the result is `TransportError`. -/
def SameOutputs (i : Instr) (x y : Response) : Prop :=
  x.res = y.res ∧
  (i = .init → x.res = .success ∨ x.res = .wrongId → x.mfr = y.mfr ∧ x.dev = y.dev) ∧
  (i = .readId → x.res = .success → x.mfr = y.mfr ∧ x.dev = y.dev) ∧
  (∀ reg, i = .getFeature reg → x.res = .success → x.rbyte = y.rbyte) ∧
  (i = .checkBusy → x.res = .success → x.rbusy = y.rbusy) ∧
  (x.res = .transportError → x.terr = y.terr)

/-- One of the seven wire formats: the eleven op-codes with their lengths, and no register address but the four, the
status register's never written (R86, R92, R101, R103). A delay transmits nothing. -/
def isWireFormat : Call → Bool
  | .send [0xFF] _ | .send [0x06] _ | .send [0x04] _ => true
  | .send [opc, _, _, _] _ => opc == 0x13 || opc == 0x10 || opc == 0xD8
  | .send [0x1F, ra, _] _ => ra == 0xA0 || ra == 0xB0 || ra == 0xD0
  | .sendReceive [0x0F, ra] 1 _ => ra == 0xA0 || ra == 0xB0 || ra == 0xC0 || ra == 0xD0
  | .sendReceive [0x9F, _] 2 _ => true
  | .sendReceive [0x03, _, _, _] n _ => decide (n ≤ 2176)
  | .sendCommandThenData [0x02, _, _] data _ => decide (data.length ≤ 2048)
  | .delay _ => true
  | _ => false

end Sys2Proof.Claims

open Sys2Proof Sys2Proof.Machine Sys2Proof.Claims

/-! ### Encoding -/

/-- R92, R36, R85, R98, R6, R201: the constants of the document, and the codes of the ten results.
Rests on the spec's own decisions D2, D12, D13. -/
def Obligations.ConstantsOfTheDocument : Prop :=
  [Opcode.programLoad, Opcode.readCache, Opcode.writeDisable, Opcode.writeEnable, Opcode.getFeatures,
     Opcode.programExecute, Opcode.pageRead, Opcode.setFeatures, Opcode.readId, Opcode.blockErase, Opcode.reset]
    = [0x02, 0x03, 0x04, 0x06, 0x0F, 0x10, 0x13, 0x1F, 0x9F, 0xD8, 0xFF] ∧
  [0, 1, 2, 3].map regAddr = [0xA0, 0xB0, 0xC0, 0xD0] ∧
  (∀ st : Byte, oip st = st.getLsbD 0 ∧ wel st = st.getLsbD 1 ∧ ef st = st.getLsbD 2 ∧ pf st = st.getLsbD 3) ∧
  [ResultKind.success, .resetFailed, .wrongId, .busy, .readFailed, .programFailed, .eraseFailed, .regAddressInvalid,
     .addressOutOfRange, .transportError].map resultCode = [0, 1, 2, 3, 4, 5, 6, 7, 8, 9] ∧
  Config.numBlocks = 2048 ∧ Config.pagesPerBlock = 64 ∧ Config.pageDataSize = 2048 ∧ Config.pageSpareSize = 128 ∧
  Config.pageSize = 2176 ∧ Config.flashSizeBytes = 2 ^ 28 ∧ Config.expectedMfrId = 0x2C ∧ Config.expectedDevId = 0x24

/-- Words written out from R81 (spec/95_test_vectors.md V-E11 to V-E24) and from the wire formats (V-E2 to V-E10) decode
to the instructions they stand for.
Rests on the spec's own decisions D3, D6, D8, D11. -/
def Obligations.WordsOfTheSpecDecode : Prop :=
  decode (.host 0x000000000000000000000000) = .ok .init ∧
  decode (.host 0x000000000000000000000001) = .ok .reset ∧
  decode (.host 0x000000000000000000000002) = .ok .readId ∧
  decode (.host 0x000000000004000200040003) = .ok (.pageRead 0x00020004 4) ∧
  decode (.host 0x000000000004000200040004) = .ok (.pageProgram 0x00020004 4) ∧
  decode (.host 0x000000000000000200000005) = .ok (.blockErase 0x00020000) ∧
  decode (.host 0x000000000000000000000026) = .ok (.getFeature 2) ∧
  decode (.host 0x000000000000000000001037) = .ok (.setFeature 3 0x40) ∧
  decode (.host 0x000100030000000000000008) = .ok (.waitReady 3 1) ∧
  decode (.host 0x000000000000000000000009) = .ok .checkBusy ∧
  decode (.wire [0x10, 0x00, 0x24, 0x68] 0) = .ok (.programExecute 0x002468) ∧
  decode (.wire [0x03, 0x05, 0x67, 0x00] 16) = .ok (.readCache 0x0567 16) ∧
  decode (.wire [0x02, 0x07, 0xFF, 0x5A] 0) = .ok (.programLoad 0x07FF [0x5A]) ∧
  decode (.wire [0x0F, 0xC0] 1) = .ok (.getFeatures 0xC0) ∧
  decode (.wire [0x1F, 0xB0, 0x10] 0) = .ok (.setFeatures 0xB0 0x10) ∧
  decode (.wire [0x9F, 0x00] 2) = .ok .readIdCmd ∧
  decode (.wire [0xD8, 0x01, 0xFF, 0xFF] 0) = .ok (.blockEraseCmd 0x01FFFF)

/-- R81, R84, R83, R99: for every request word the operation number is `req[3:0]`, the operands stand at their bit
positions, nothing else of the word matters, and the numbers `0xA` to `0xF` are no operation.
Rests on the spec's own decisions D3, D11, D19. -/
def Obligations.RequestWordFields : Prop :=
  ∀ w : RequestWord,
    let op := w.toNat % 16
    let reg := BitVec.ofNat 2 (w.toNat / 2 ^ 4)
    let wval := BitVec.ofNat 8 (w.toNat / 2 ^ 6)
    let addr := BitVec.ofNat 32 (w.toNat / 2 ^ 16)
    let len := BitVec.ofNat 16 (w.toNat / 2 ^ 48)
    let att := BitVec.ofNat 16 (w.toNat / 2 ^ 64)
    let dly := BitVec.ofNat 16 (w.toNat / 2 ^ 80)
    (op = 0 → decode (.host w) = .ok .init) ∧
    (op = 1 → decode (.host w) = .ok .reset) ∧
    (op = 2 → decode (.host w) = .ok .readId) ∧
    (op = 3 → decode (.host w) = .ok (.pageRead addr len)) ∧
    (op = 4 → decode (.host w) = .ok (.pageProgram addr len)) ∧
    (op = 5 → decode (.host w) = .ok (.blockErase addr)) ∧
    (op = 6 → decode (.host w) = .ok (.getFeature reg)) ∧
    (op = 7 → decode (.host w) = .ok (.setFeature reg wval)) ∧
    (op = 8 → decode (.host w) = .ok (.waitReady att dly)) ∧
    (op = 9 → decode (.host w) = .ok .checkBusy) ∧
    (10 ≤ op → decode (.host w) = .error (.reservedOperation (BitVec.ofNat 4 op)))

/-- R81, R84, R86, R92: decoding an encoded instruction gives it back, for every instruction of the table, well-formed or
not, every operand at every value, and every configuration; and a wire transaction that decodes has the op-code and the
length of its format: encoding what it decodes to gives back its op-code, its operand bytes and its count, under the
configuration that has its dummy byte.
Rests on the spec's own decisions D6, D8, D11. -/
def Obligations.DecodeEncodeAgree : Prop :=
  (∀ (c : Cfg) (i : Instr), decode (encode c i) = .ok i) ∧
  (∀ (tx : List Byte) (rx : Nat) (i : Instr), decode (.wire tx rx) = .ok i → ∃ c : Cfg, encode c i = .wire tx rx)

/-! ### The Address Translator -/

/-- R110 to R117, R121: for an address in range the translator's outputs are these numbers, and for any other it has none.
That `TRANSLATE` is a step, which completes on every address and sets the input port `xaddr` and nothing else, is the
model's choice (log 11): by R110 it takes no step, makes no transport call and writes no register.
Rests on the spec's own decisions D2, D5. -/
def Obligations.TranslateFields : Prop :=
  ∀ (a : LogicalAddress) (s : State),
    ∃ t, exec (.translate a) s = .next t ∧ t = { s with xaddr := a } ∧
      (a.toNat < 2 ^ 28 →
        ∃ p, t.translatorOut = some p ∧
          p.block.toNat = a.toNat / 131072 ∧ p.block.toNat < 2048 ∧
          p.plane.toNat = p.block.toNat % 2 ∧
          p.page.toNat = a.toNat / 2048 % 64 ∧ p.page.toNat < 64 ∧
          p.col.toNat = a.toNat % 2048 ∧
          p.rowAddr.toNat = p.block.toNat * 64 + p.page.toNat ∧
          p.colAddr.toNat = p.col.toNat) ∧
      (2 ^ 28 ≤ a.toNat → t.translatorOut = none)

/-- R119: the translation is a bijection between the in-range addresses and the triples (block, page, col). -/
def Obligations.TranslationBijective : Prop :=
  ∀ (block page col : Nat), block < 2048 → page < 64 → col < 2048 →
    ∃ a : LogicalAddress, a.toNat = block * 2 ^ 17 + page * 2 ^ 11 + col ∧
      (∃ p, Machine.translate a = some p ∧ p.block.toNat = block ∧ p.page.toNat = page ∧ p.col.toNat = col) ∧
      ∀ (b : LogicalAddress) (q : Phys), Machine.translate b = some q → q.block.toNat = block → q.page.toNat = page →
        q.col.toNat = col → b = a

/-! ### The wire commands -/

/-- R87, R88, R146, R147: each of the six commands that transmit and receive nothing completes from every state: one
`send` with the bytes of its format, and nothing of the controller changes but the flag that a write-disable is owed. That
a wire command can be presented on its own is the model's choice (log 10).
Rests on the spec's own decision D6. -/
def Obligations.SendCommandsComplete : Prop :=
  ∀ (s : State) (row : BitVec 24),
    ∃ (a : Answer) (u : State), Answered s 0 a u ∧
      let after := fun (c : Answer → Call) => { s with trace := s.trace ++ [c a], script := u.script, draws := u.draws }
      exec .resetCmd s = .next (after (.send [0xFF])) ∧
      exec .writeEnable s = .next { after (.send [0x06]) with r := { s.r with wdOwed := true } } ∧
      exec .writeDisable s = .next { after (.send [0x04]) with r := { s.r with wdOwed := false } } ∧
      exec (.pageReadCmd row) s = .next (after (.send (0x13 :: threeBytes row.toNat))) ∧
      exec (.programExecute row) s = .next (after (.send (0x10 :: threeBytes row.toNat))) ∧
      exec (.blockEraseCmd row) s = .next (after (.send (0xD8 :: threeBytes row.toNat)))

/-- R93, R95, R96, R97: the transactions that receive bytes or carry a payload complete from every state, with the bytes
and counts of their formats, and change nothing of the controller. That they can be presented on their own is the model's
choice (log 10).
Rests on the spec's own decisions D5, D6, D7, D35. -/
def Obligations.DataCommandsComplete : Prop :=
  ∀ (s : State) (ra : Byte) (w : BitVec 16) (n : Nat) (data : List Byte),
    (∃ t a, exec (.getFeatures ra) s = .next t ∧ Answered s 1 a t ∧
      t = { s with trace := s.trace ++ [.sendReceive [0x0F, ra] 1 a], script := t.script, draws := t.draws }) ∧
    (∃ t a, exec .readIdCmd s = .next t ∧ Answered s 2 a t ∧
      t = { s with trace := s.trace ++ [.sendReceive [0x9F, s.cfg.dummy] 2 a], script := t.script, draws := t.draws }) ∧
    (∃ t a, exec (.readCache w n) s = .next t ∧ Answered s n a t ∧
      t = { s with trace := s.trace ++ [.sendReceive (0x03 :: (twoBytes w.toNat ++ [s.cfg.dummy])) n a],
                   script := t.script, draws := t.draws }) ∧
    (∃ t a, exec (.programLoad w data) s = .next t ∧ Answered s 0 a t ∧
      t = { s with trace := s.trace ++ [.sendCommandThenData (0x02 :: twoBytes w.toNat) data a],
                   script := t.script, draws := t.draws })

/-- R94, R143, R144: `SET_FEATURES` completes from every state; it transmits `[1F, address, value]` unless the address is
the status register's, `0xC0`, which is rejected before any transaction, whatever the value. That it can be presented on
its own, and then has the guard of the primitive that emits it, is the model's choice (log 10).
Rests on the spec's own decision D8. -/
def Obligations.SetFeaturesCommand : Prop :=
  ∀ (s : State) (ra v : Byte),
    (ra = 0xC0 → exec (.setFeatures ra v) s = .next s) ∧
    (ra ≠ 0xC0 → ∃ t a, exec (.setFeatures ra v) s = .next t ∧ Answered s 0 a t ∧
      t = { s with trace := s.trace ++ [.send [0x1F, ra, v] a], script := t.script, draws := t.draws })

/-! ### The poll -/

/-- R126: from every state and for every bound the poll makes the calls of one of its three endings and no other, and
changes `r.CNT`, `r.ST` and nothing else of the controller. `r.CNT` counts its delays (R128), `r.ST` is the last byte
shown (R25). -/
def Obligations.PollCallsAndEnding : Prop :=
  ∀ (p : PollCfg) (s : State),
    ∃ out calls t, waitUntilReady p s = (out, t) ∧ PollRun p calls out ∧
      t = { s with r := { s.r with cnt := calls.countP (fun c => (answerOf c).isNone), st := lastShown s.r.st calls },
                   trace := s.trace ++ calls, script := t.script, draws := t.draws }

/-- R130: if the first read and all `maxAttempts` loop reads show `OIP = 1`, the poll returns `Busy` after exactly
`1 + maxAttempts` reads and exactly `maxAttempts` delays. -/
def Obligations.PollExhaustion : Prop :=
  ∀ (p : PollCfg) (s : State) (bs : List Byte) (rest : List Answer),
    allBusy bs → bs.length = 1 + p.maxAttempts → s.script = shown bs ++ rest →
    ∃ t, waitUntilReady p s = (.busy, t) ∧ t.script = rest ∧
      t.trace = s.trace ++ pollCalls p.interPollDelay (shown bs)

/-- R131: if read number `k` is the first that shows `OIP = 0`, every earlier one succeeded, and `k <= maxAttempts + 1`,
the poll returns `Ok` after exactly `k` reads and `k - 1` delays and issues nothing more. -/
def Obligations.PollReadyAtRead : Prop :=
  ∀ (p : PollCfg) (s : State) (bs : List Byte) (b : Byte) (rest : List Answer),
    allBusy bs → b.getLsbD 0 = false → bs.length ≤ p.maxAttempts → s.script = shown bs ++ .ok [b] :: rest →
    ∃ t, waitUntilReady p s = (.ready, t) ∧ t.script = rest ∧ t.r.st = b ∧
      t.trace = s.trace ++ pollCalls p.interPollDelay (shown bs ++ [.ok [b]])

/-- R132: if a read fails, the poll ends at once with the transport's error: no further delay and no further read.
Rests on the spec's own decision D15. -/
def Obligations.PollStopsAtFailedRead : Prop :=
  ∀ (p : PollCfg) (s : State) (bs : List Byte) (e : TransportError) (rest : List Answer),
    allBusy bs → bs.length ≤ p.maxAttempts → s.script = shown bs ++ .err e :: rest →
    ∃ t, waitUntilReady p s = (.transportError e, t) ∧ t.script = rest ∧
      t.trace = s.trace ++ pollCalls p.interPollDelay (shown bs ++ [.err e])

/-- R136: `WAIT_READY` completes: it polls with the request's bounds, and its result is `Success`, `Busy` or
`TransportError` with the transport's value. No other response register is written, and no byte of the buffer.
Rests on the spec's own decisions D15, D33. -/
def Obligations.WaitReadyRun : Prop :=
  ∀ (s : State) (att dly : BitVec 16), s.seq = .idle → s.r.wdOwed = false →
    ∃ t out, exec (.waitReady att dly) s = .next t ∧ Ended s t ∧ t.buf = s.buf ∧
      PollRun { maxAttempts := att.toNat, interPollDelay := dly.toNat } t.trace out ∧
      let polled := { s.r with op := 8, att := att, dly := dly, cnt := countAfter s.r.cnt t.trace,
                               st := lastShown s.r.st t.trace }
      match out with
      | .ready            => t.r = { polled with res := .success }
      | .busy             => t.r = { polled with res := .busy }
      | .transportError e => t.r = { polled with res := .transportError, terr := e }

/-! ### Register Access -/

/-- R148, R141, R25: `GET_FEATURE` completes on every selector: one `[0F, address]` transaction; the byte as received in
`r.RBYTE`, or the transport's error in `r.TERR`; nothing else changes, but that a byte read from the status register is
the status sample `r.ST`: R25's definition of it, which R148's list of the registers written does not name (log 25).
Rests on the spec's own decision D12. -/
def Obligations.GetFeatureRun : Prop :=
  ∀ (s : State) (reg : BitVec 2), s.seq = .idle → s.r.wdOwed = false →
    ∃ t a, exec (.getFeature reg) s = .next t ∧ Ended s t ∧ t.buf = s.buf ∧ Answered s 1 a t ∧
      t.trace = [.sendReceive [0x0F, BitVec.ofNat 8 (0xA0 + 0x10 * reg.toNat)] 1 a] ∧
      ((∃ b, a = .ok [b] ∧ t.r = { s.r with op := 6, reg := reg, rbyte := b, st := if reg = 2 then b else s.r.st,
                                            res := .success }) ∨
       (∃ e, a = .err e ∧ t.r = { s.r with op := 6, reg := reg, terr := e, res := .transportError }))

/-- R149, R144: `SET_FEATURE` completes on every selector and value: the status register is rejected with
`RegAddressInvalid` and no transaction; any other gets one `[1F, address, value]`, the value as given.
Rests on the spec's own decisions D8, D12. -/
def Obligations.SetFeatureRun : Prop :=
  ∀ (s : State) (reg : BitVec 2) (wval : Byte), s.seq = .idle → s.r.wdOwed = false →
    ∃ t, exec (.setFeature reg wval) s = .next t ∧ Ended s t ∧ t.buf = s.buf ∧
      (reg = 2 → t.trace = [] ∧ t.script = s.script ∧
        t.r = { s.r with op := 7, reg := reg, wval := wval, res := .regAddressInvalid }) ∧
      (reg ≠ 2 → ∃ a, Answered s 0 a t ∧
        t.trace = [.send [0x1F, BitVec.ofNat 8 (0xA0 + 0x10 * reg.toNat), wval] a] ∧
        ((a = .ok [] ∧ t.r = { s.r with op := 7, reg := reg, wval := wval, res := .success }) ∨
         (∃ e, a = .err e ∧ t.r = { s.r with op := 7, reg := reg, wval := wval, terr := e, res := .transportError })))

/-- R150, R145: `CHECK_BUSY` completes: one status read; bit 0 of the byte in `r.RBUSY` and the byte in `r.ST`, or the
transport's error.
Rests on the spec's own decision D33. -/
def Obligations.CheckBusyRun : Prop :=
  ∀ (s : State), s.seq = .idle → s.r.wdOwed = false →
    ∃ t a, exec .checkBusy s = .next t ∧ Ended s t ∧ t.buf = s.buf ∧ Answered s 1 a t ∧
      t.trace = [.sendReceive [0x0F, 0xC0] 1 a] ∧
      ((∃ b, a = .ok [b] ∧ t.r = { s.r with op := 9, st := b, rbusy := b.getLsbD 0, res := .success }) ∨
       (∃ e, a = .err e ∧ t.r = { s.r with op := 9, terr := e, res := .transportError }))

/-! ### The Command Engine -/

/-- R165: `READ_ID` completes: one `[9F, dummy]` transaction receiving two bytes, manufacturer then device, or the
transport's error; no comparison.
Rests on the spec's own decisions D7, D9, D29. -/
def Obligations.ReadIdRun : Prop :=
  ∀ (s : State), s.seq = .idle → s.r.wdOwed = false →
    ∃ t a, exec .readId s = .next t ∧ Ended s t ∧ t.buf = s.buf ∧ Answered s 2 a t ∧
      t.trace = [.sendReceive [0x9F, s.cfg.dummy] 2 a] ∧
      ((∃ m d, a = .ok [m, d] ∧ t.r = { s.r with op := 2, mfr := m, dev := d, res := .success }) ∨
       (∃ e, a = .err e ∧ t.r = { s.r with op := 2, terr := e, res := .transportError }))

/-- R163: `RESET` completes: the transmit, the delay of `cfg.T_POR_MS`, the poll with `cfg.POLL_RESET`; a failed transmit
ends it with `ResetFailed` and neither delay nor poll; an exhausted poll is `Busy`; a failed status read `ResetFailed`.
Rests on the spec's own decisions D15, D16. -/
def Obligations.ResetOperationRun : Prop :=
  ∀ (s : State), s.seq = .idle → s.r.wdOwed = false →
    ∃ t k, exec .reset s = .next t ∧ Ended s t ∧ t.buf = s.buf ∧ ResetRun s.cfg t.trace k ∧
      t.r = { s.r with op := 1, cnt := countAfter s.r.cnt t.trace, st := lastShown s.r.st t.trace, res := k }

/-- R166: `INIT` completes: its own delay, the reset steps, the identity transaction, the comparison. A reset that ends in
anything but success is `ResetFailed` and the identity is not read; so is a failed identity transaction; a pair that
differs from `2C 24` in either byte is `WrongID`.
Rests on the spec's own decisions D9, D16. -/
def Obligations.InitRun : Prop :=
  ∀ (s : State), s.seq = .idle → s.r.wdOwed = false →
    ∃ t calls k, exec .init s = .next t ∧ Ended s t ∧ t.buf = s.buf ∧ ResetRun s.cfg calls k ∧
      let polled := { s.r with op := 0, cnt := countAfter s.r.cnt t.trace, st := lastShown s.r.st t.trace }
      ((k ≠ .success ∧ t.trace = .delay s.cfg.tPorMs :: calls ∧ t.r = { polled with res := .resetFailed }) ∨
       (∃ e, k = .success ∧
          t.trace = .delay s.cfg.tPorMs :: calls ++ [.sendReceive [0x9F, s.cfg.dummy] 2 (.err e)] ∧
          t.r = { polled with res := .resetFailed }) ∨
       (∃ m d, k = .success ∧
          t.trace = .delay s.cfg.tPorMs :: calls ++ [.sendReceive [0x9F, s.cfg.dummy] 2 (.ok [m, d])] ∧
          t.r = { polled with mfr := m, dev := d,
                              res := if m = 0x2C ∧ d = 0x24 then .success else .wrongId }))

/-- R170, R171, R173: `PAGE_READ` completes on every address and length. Length guard, then range check, each with no
transport call; then array to cache, the poll, cache to host; the first failure ends it with `ReadFailed`. When the last
transaction succeeded byte `k` of its answer is `Buf[k]`; after a failure `Buf[0..len)` is unspecified and nothing is said
of it (log 8); no byte outside `Buf[0..len)` ever changes.
Rests on the spec's own decisions D5, D6, D7, D15, D18, D27. -/
def Obligations.PageReadRun : Prop :=
  ∀ (s : State) (addr : LogicalAddress) (len : BitVec 16), s.seq = .idle → s.r.wdOwed = false →
    let load := Call.send (0x13 :: rowWire addr)
    let fetch := Call.sendReceive (0x03 :: (colWire s.cfg addr ++ [s.cfg.dummy])) len.toNat
    ∃ t k, exec (.pageRead addr len) s = .next t ∧ Ended s t ∧
      t.r = { s.r with op := 3, addr := addr, len := len, cnt := countAfter s.r.cnt t.trace,
                       st := lastShown s.r.st t.trace, res := k } ∧
      (∀ j, len.toNat ≤ j → Buffer.read t.buf j = Buffer.read s.buf j) ∧
      ((2176 < len.toNat ∧ t.trace = [] ∧ k = .readFailed) ∨
       (len.toNat ≤ 2176 ∧ 2 ^ 28 ≤ addr.toNat ∧ t.trace = [] ∧ k = .addressOutOfRange) ∨
       (len.toNat ≤ 2176 ∧ addr.toNat < 2 ^ 28 ∧
        ((∃ e, t.trace = [load (.err e)] ∧ k = .readFailed) ∨
         (∃ calls out, PollRun s.cfg.pollRead calls out ∧ out ≠ .ready ∧ t.trace = load (.ok []) :: calls ∧
            k = .readFailed) ∨
         (∃ calls e, PollRun s.cfg.pollRead calls .ready ∧ t.trace = load (.ok []) :: calls ++ [fetch (.err e)] ∧
            k = .readFailed) ∨
         (∃ calls rx, PollRun s.cfg.pollRead calls .ready ∧ t.trace = load (.ok []) :: calls ++ [fetch (.ok rx)] ∧
            rx.length = len.toNat ∧ k = .success ∧ ∀ j, (h : j < rx.length) → Buffer.read t.buf j = rx[j]))))

/-- R175, R176, R177: `PAGE_PROGRAM` completes on every address and length. Length guard, then range check, each with no
transport call; then the bracket of write-enable, program load with the payload `Buf[0..len)`, program execute, the poll,
write-disable, and the `PF` check. The buffer does not change. That `r.OK` stays 1 when the final status read fails is the
model's reading (log 26).
Rests on the spec's own decisions D5, D6, D16, D17, D18. -/
def Obligations.PageProgramRun : Prop :=
  ∀ (s : State) (addr : LogicalAddress) (len : BitVec 16), s.seq = .idle → s.r.wdOwed = false →
    let payload := (List.range len.toNat).map (Buffer.read s.buf)
    ∃ t k, exec (.pageProgram addr len) s = .next t ∧ Ended s t ∧ t.buf = s.buf ∧
      t.r = { s.r with op := 4, addr := addr, len := len, cnt := countAfter s.r.cnt t.trace,
                       st := lastShown s.r.st t.trace, ok := t.r.ok, res := k } ∧
      ((2048 < len.toNat ∧ t.trace = [] ∧ t.r.ok = s.r.ok ∧ k = .programFailed) ∨
       (len.toNat ≤ 2048 ∧ 2 ^ 28 ≤ addr.toNat ∧ t.trace = [] ∧ t.r.ok = s.r.ok ∧ k = .addressOutOfRange) ∨
       (len.toNat ≤ 2048 ∧ addr.toNat < 2 ^ 28 ∧
        ∃ good, k = (if good then .success else .programFailed) ∧
          BracketRun [.send [0x06], .sendCommandThenData (0x02 :: colWire s.cfg addr) payload,
            .send (0x10 :: rowWire addr)] s.cfg.pollPgm 3 t.trace t.r.ok good))

/-- R180, R181: `BLOCK_ERASE` completes on every address. Range check with no transport call; then the bracket of
write-enable, the erase command with the full row address, the poll, write-disable, and the `EF` check. The buffer does
not change. That `r.OK` stays 1 when the final status read fails is the model's reading (log 26).
Rests on the spec's own decisions D6, D16, D17. -/
def Obligations.BlockEraseRun : Prop :=
  ∀ (s : State) (addr : LogicalAddress), s.seq = .idle → s.r.wdOwed = false →
    ∃ t k, exec (.blockErase addr) s = .next t ∧ Ended s t ∧ t.buf = s.buf ∧
      t.r = { s.r with op := 5, addr := addr, cnt := countAfter s.r.cnt t.trace,
                       st := lastShown s.r.st t.trace, ok := t.r.ok, res := k } ∧
      ((2 ^ 28 ≤ addr.toNat ∧ t.trace = [] ∧ t.r.ok = s.r.ok ∧ k = .addressOutOfRange) ∨
       (addr.toNat < 2 ^ 28 ∧
        ∃ good, k = (if good then .success else .eraseFailed) ∧
          BracketRun [.send [0x06], .send (0xD8 :: rowWire addr)] s.cfg.pollErs 2 t.trace t.r.ok good))

/-- R171, R173: `PAGE_READ` with any length above `PAGE_SIZE`, for every address, is `ReadFailed` with no transport call; no
answer is used and no register is written but `r.RES` and the latch. The buffer's bytes are unspecified after it (R173,
log 8); it stays in its canonical form.
Rests on the spec's own decisions D18, D27. -/
def Obligations.OversizeReadMakesNoCall : Prop :=
  ∀ (s : State) (addr : LogicalAddress) (len : BitVec 16), s.seq = .idle → s.r.wdOwed = false → 2176 < len.toNat →
    ∃ t, exec (.pageRead addr len) s = .next t ∧ Ended s t ∧ t.trace = [] ∧ t.script = s.script ∧
      t.r = { s.r with op := 3, addr := addr, len := len, res := .readFailed } ∧
      (Buffer.wf s.buf = true → Buffer.wf t.buf = true)

/-! ### Where the operations succeed

With these answers of the transport each operation ends in `Success`: a ready chip after any number of busy samples within
the poll's bound. -/

/-- R148, R149, R150, R165: the operations of one transaction end in `Success` when the transport carries it.
Rests on the spec's own decisions D8, D9, D12, D29, D33. -/
def Obligations.SingleTransactionOperationsSucceed : Prop :=
  ∀ (s : State) (reg : BitVec 2) (wval b m d : Byte) (rest : List Answer), s.seq = .idle →
    (s.script = .ok [b] :: rest → ∃ t, exec (.getFeature reg) s = .next t ∧ Ended s t ∧ t.script = rest ∧
      t.r.res = .success ∧ t.r.rbyte = b) ∧
    (s.script = .ok [] :: rest → reg ≠ 2 → ∃ t, exec (.setFeature reg wval) s = .next t ∧ Ended s t ∧ t.script = rest ∧
      t.r.res = .success ∧ t.trace = [.send [0x1F, BitVec.ofNat 8 (0xA0 + 0x10 * reg.toNat), wval] (.ok [])]) ∧
    (s.script = .ok [b] :: rest → ∃ t, exec .checkBusy s = .next t ∧ Ended s t ∧ t.script = rest ∧
      t.r.res = .success ∧ t.r.rbusy = b.getLsbD 0) ∧
    (s.script = .ok [m, d] :: rest → ∃ t, exec .readId s = .next t ∧ Ended s t ∧ t.script = rest ∧
      t.r.res = .success ∧ t.r.mfr = m ∧ t.r.dev = d)

/-- R136, R163, R166: `WAIT_READY`, `RESET` and `INIT` end in `Success` when the chip becomes ready within the bound and,
for `INIT`, identifies itself as `2C 24`; their traces are these.
Rests on the spec's own decisions D7, D33. -/
def Obligations.PollingOperationsSucceed : Prop :=
  ∀ (s : State) (att dly : BitVec 16) (bs : List Byte) (b : Byte) (rest : List Answer), s.seq = .idle → allBusy bs →
    b.getLsbD 0 = false →
    (bs.length ≤ att.toNat → s.script = shown bs ++ .ok [b] :: rest →
      ∃ t, exec (.waitReady att dly) s = .next t ∧ Ended s t ∧ t.script = rest ∧ t.r.res = .success ∧
        t.trace = pollCalls dly.toNat (shown bs ++ [.ok [b]])) ∧
    (bs.length ≤ s.cfg.pollReset.maxAttempts → s.script = .ok [] :: shown bs ++ .ok [b] :: rest →
      ∃ t, exec .reset s = .next t ∧ Ended s t ∧ t.script = rest ∧ t.r.res = .success ∧
        t.trace = .send [0xFF] (.ok []) :: .delay s.cfg.tPorMs ::
          pollCalls s.cfg.pollReset.interPollDelay (shown bs ++ [.ok [b]])) ∧
    (bs.length ≤ s.cfg.pollReset.maxAttempts → s.script = .ok [] :: shown bs ++ .ok [b] :: .ok [0x2C, 0x24] :: rest →
      ∃ t, exec .init s = .next t ∧ Ended s t ∧ t.script = rest ∧ t.r.res = .success ∧ t.r.mfr = 0x2C ∧ t.r.dev = 0x24 ∧
        t.trace = .delay s.cfg.tPorMs :: .send [0xFF] (.ok []) :: .delay s.cfg.tPorMs ::
          (pollCalls s.cfg.pollReset.interPollDelay (shown bs ++ [.ok [b]]) ++
            [.sendReceive [0x9F, s.cfg.dummy] 2 (.ok [0x2C, 0x24])]))

/-- R170: `PAGE_READ` with a legal length and address ends in `Success` when the transport carries its transactions and
the chip becomes ready within the bound; the bytes answered stand in `Buf[0..len)` and the trace is this.
Rests on the spec's own decisions D5, D6, D7, D27. -/
def Obligations.PageReadSucceeds : Prop :=
  ∀ (s : State) (addr : LogicalAddress) (len : BitVec 16) (bs : List Byte) (b : Byte) (data : List Byte)
    (rest : List Answer), s.seq = .idle → len.toNat ≤ 2176 → addr.toNat < 2 ^ 28 → allBusy bs → b.getLsbD 0 = false →
    bs.length ≤ s.cfg.pollRead.maxAttempts → data.length = len.toNat →
    s.script = .ok [] :: shown bs ++ .ok [b] :: .ok data :: rest →
    ∃ t, exec (.pageRead addr len) s = .next t ∧ Ended s t ∧ t.script = rest ∧ t.r.res = .success ∧
      t.trace = .send (0x13 :: rowWire addr) (.ok []) ::
        (pollCalls s.cfg.pollRead.interPollDelay (shown bs ++ [.ok [b]]) ++
          [.sendReceive (0x03 :: (colWire s.cfg addr ++ [s.cfg.dummy])) len.toNat (.ok data)]) ∧
      (∀ j, (h : j < data.length) → Buffer.read t.buf j = data[j]) ∧
      (∀ j, len.toNat ≤ j → Buffer.read t.buf j = Buffer.read s.buf j)

/-- R176, R178: `PAGE_PROGRAM` with a legal length and address, every transaction carried and the chip ready within the
bound, ends in `Success` if and only if `PF`, bit 3 of the final sample, is 0; the trace is this.
Rests on the spec's own decisions D5, D6, D17. -/
def Obligations.PageProgramSucceeds : Prop :=
  ∀ (s : State) (addr : LogicalAddress) (len : BitVec 16) (bs : List Byte) (b final : Byte) (rest : List Answer),
    s.seq = .idle → len.toNat ≤ 2048 → addr.toNat < 2 ^ 28 → allBusy bs → b.getLsbD 0 = false →
    bs.length ≤ s.cfg.pollPgm.maxAttempts →
    s.script = .ok [] :: .ok [] :: .ok [] :: shown bs ++ .ok [b] :: .ok [] :: .ok [final] :: rest →
    ∃ t, exec (.pageProgram addr len) s = .next t ∧ Ended s t ∧ t.script = rest ∧ t.buf = s.buf ∧
      t.r.res = (if final.getLsbD 3 then .programFailed else .success) ∧
      t.trace = .send [0x06] (.ok []) ::
        .sendCommandThenData (0x02 :: colWire s.cfg addr) ((List.range len.toNat).map (Buffer.read s.buf)) (.ok []) ::
        .send (0x10 :: rowWire addr) (.ok []) ::
        (pollCalls s.cfg.pollPgm.interPollDelay (shown bs ++ [.ok [b]]) ++
          [.send [0x04] (.ok []), statusRead (.ok [final])])

/-- R180, R181: `BLOCK_ERASE` of a legal address, every transaction carried and the chip ready within the bound, ends in
`Success` if and only if `EF`, bit 2 of the final sample, is 0; the trace is this.
Rests on the spec's own decisions D6, D17. -/
def Obligations.BlockEraseSucceeds : Prop :=
  ∀ (s : State) (addr : LogicalAddress) (bs : List Byte) (b final : Byte) (rest : List Answer),
    s.seq = .idle → addr.toNat < 2 ^ 28 → allBusy bs → b.getLsbD 0 = false →
    bs.length ≤ s.cfg.pollErs.maxAttempts →
    s.script = .ok [] :: .ok [] :: shown bs ++ .ok [b] :: .ok [] :: .ok [final] :: rest →
    ∃ t, exec (.blockErase addr) s = .next t ∧ Ended s t ∧ t.script = rest ∧ t.buf = s.buf ∧
      t.r.res = (if final.getLsbD 2 then .eraseFailed else .success) ∧
      t.trace = .send [0x06] (.ok []) :: .send (0xD8 :: rowWire addr) (.ok []) ::
        (pollCalls s.cfg.pollErs.interPollDelay (shown bs ++ [.ok [b]]) ++
          [.send [0x04] (.ok []), statusRead (.ok [final])])

/-! ### Rules about every operation -/

/-- R182: in every `PAGE_PROGRAM` and `BLOCK_ERASE` that passes its guards, whatever the transport answers, `send [06]` is
the first call and occurs once, and `send [04]` occurs once; in every other host operation, and in one that fails a
guard, neither occurs. -/
def Obligations.WriteEnableBracket : Prop :=
  ∀ (s : State) (i : Instr), s.seq = .idle → s.r.wdOwed = false → isHostOperation i = true →
    ∃ t, exec i s = .next t ∧ t.r.wdOwed = false ∧
      let passes := match i with
        | .pageProgram addr len => len.toNat ≤ 2048 ∧ addr.toNat < 2 ^ 28
        | .blockErase addr => addr.toNat < 2 ^ 28
        | _ => False
      (passes → t.trace.countP (isCommand 0x06) = 1 ∧ t.trace.countP (isCommand 0x04) = 1 ∧
        ∃ a rest, t.trace = .send [0x06] a :: rest) ∧
      (¬ passes → t.trace.countP (isCommand 0x06) = 0 ∧ t.trace.countP (isCommand 0x04) = 0)

/-- R206, R205: no call is made after the first that fails, other than the write-disable owed; and an operation one of
whose calls failed does not end in success.
Rests on the spec's own decision D17. -/
def Obligations.FailuresArePrecise : Prop :=
  ∀ (s : State) (i : Instr), s.seq = .idle → s.r.wdOwed = false → isHostOperation i = true →
    ∃ t, exec i s = .next t ∧
      ∀ before c after, t.trace = before ++ c :: after → failed c = true → (∀ d ∈ before, failed d = false) →
        (after = [] ∨ ∃ a, after = [.send [0x04] a]) ∧ t.r.res ≠ .success

/-- R92, R100, R101, R103, R59: every call of every host operation is in one of the seven formats; no other op-code, no
other register address, no other length is ever transmitted, and `receive` is called by nothing.
Rests on the spec's own decision D8. -/
def Obligations.OnlyWireFormatsEmitted : Prop :=
  ∀ (s : State) (i : Instr), s.seq = .idle → s.r.wdOwed = false → isHostOperation i = true →
    ∃ t, exec i s = .next t ∧ ∀ c ∈ t.trace, isWireFormat c = true

/-- R86, R89, R90, R101: every call of every host operation but a delay is the transaction of a well-formed wire
instruction: its bytes and its count decode to one, its row address below `2^17`, its column word in form, its register
address one of the four.
Rests on the spec's own decision D5. -/
def Obligations.EmittedCallsAreWellFormed : Prop :=
  ∀ (s : State) (i : Instr), s.seq = .idle → s.r.wdOwed = false → isHostOperation i = true →
    ∃ t, exec i s = .next t ∧
      ∀ c ∈ t.trace, (∃ ms, c = .delay ms) ∨
        ∃ j, decode (.wire (txBytes c) (rxCount c)) = .ok j ∧ j.wf s.cfg = true

/-- R58, R63, R76: the answers of an operation's calls are those the environment scheduled, in order, one per call that
has an answer, each of the length its call receives; the answers not used stay scheduled. The schedule, and what an
answer of another length stands for, are the model's choice (log 4).
Rests on the spec's own decision D35. -/
def Obligations.AnswersComeFromTheScript : Prop :=
  ∀ (s : State) (i : Instr), s.seq = .idle → s.r.wdOwed = false → isHostOperation i = true →
    ∃ t, exec i s = .next t ∧
      let asked := t.trace.filter fun c => (answerOf c).isSome
      t.script = s.script.drop asked.length ∧
      ∀ (k : Nat) (c : Call) (a : Answer), asked[k]? = some c → answerOf c = some a →
        LengthLaw (rxCount c) a ∧ ∀ x, s.script[k]? = some x → Scheduled (rxCount c) x a

/-- R20, R76, R14: what an operation does is a function of the request, `cfg`, the buffer and the answers: two states that
agree on these give all of R14's observation alike: the trace, the response in its result and its meaningful data
outputs (R82), the buffer; whatever earlier operations left in the registers.
Rests on the spec's own decision D22. -/
def Obligations.NothingCarriesOver : Prop :=
  ∀ (s u : State) (i : Instr), s.seq = .idle → u.seq = .idle → s.r.wdOwed = false → u.r.wdOwed = false →
    s.cfg = u.cfg → s.buf = u.buf → s.script = u.script → s.draws = u.draws → isHostOperation i = true →
    ∃ t v x y, exec i s = .next t ∧ exec i u = .next v ∧ t.trace = v.trace ∧ t.buf = v.buf ∧ t.script = v.script ∧
      t.draws = v.draws ∧ t.responses = s.responses ++ [x] ∧ v.responses = u.responses ++ [y] ∧ SameOutputs i x y

/-- R29, R204: exactly one response follows an accepted request, whatever its result and whatever the transport answers,
and the controller is back in `IDLE`; a request presented while the controller is busy has no effect.
Rests on the spec's own decision D30. -/
def Obligations.OneResponsePerRequest : Prop :=
  ∀ (s : State) (i : Instr), isHostOperation i = true →
    (s.seq = .idle → ∃ t, exec i s = .next t ∧ t.seq = .idle ∧ ∃ x, t.responses = s.responses ++ [x]) ∧
    (s.seq ≠ .idle → exec i s = .next s)

/-- R40, R77, R172: every cache read in the trace of a `PAGE_READ`, carried or failed, is its last call, with the request's
column and count; by the calls before it the cache holds the page of the row address, and a status read since the cycle
was triggered has shown `OIP = 0`. A `PAGE_READ` that succeeds has one. What a trace says of the chip is
`Safety.chipAfter`'s reading of the environment rules (log 17).
Rests on the spec's own decisions D5, D6, D7. -/
def Obligations.CacheReadAfterReady : Prop :=
  ∀ (s : State) (addr : LogicalAddress) (len : BitVec 16) (v : Safety.ChipView), s.seq = .idle → s.r.wdOwed = false →
    ∃ t, exec (.pageRead addr len) s = .next t ∧
      (∀ before c after, t.trace = before ++ c :: after → isCacheRead c = true →
        after = [] ∧ (∃ a, c = .sendReceive (0x03 :: (colWire s.cfg addr ++ [s.cfg.dummy])) len.toNat a) ∧
        (Safety.chipAfterTrace v before).cycle = false ∧
        (Safety.chipAfterTrace v before).cache = .page (rowWire addr)) ∧
      (t.r.res = .success → ∃ c ∈ t.trace, isCacheRead c = true)

/-- R39, R182: after a `PAGE_PROGRAM` or `BLOCK_ERASE` that passed its guards, if the transport carried the write-disable,
the chip's write-enable latch is clear. What a trace says of the chip is `Safety.chipAfter`'s reading of the environment
rules (log 17). -/
def Obligations.LatchReleased : Prop :=
  ∀ (s : State) (addr : LogicalAddress) (len : BitVec 16) (v : Safety.ChipView), s.seq = .idle → s.r.wdOwed = false →
    addr.toNat < 2 ^ 28 → len.toNat ≤ 2048 →
    ∀ i, i = .pageProgram addr len ∨ i = .blockErase addr →
      ∃ t, exec i s = .next t ∧
        (.send [0x04] (.ok []) ∈ t.trace → (Safety.chipAfterTrace v t.trace).wel = some false)

/-! ### The step -/

/-- R12, R13, R23: the next step runs the instruction presented in `IDLE`: it is `exec` of it, the input used up, and for a
host request the whole request word in the latch. Three clauses are the model's choice: that one step carries a request
to its response (log 1); that a wire transaction can be presented at all, the block having no port for it (log 10); and
that an address presented, in any state, is a step, which is `exec` of it and uses up the input (log 11): by R110
`TRANSLATE` takes no step. -/
def Obligations.StepRunsDecodedInstruction : Prop :=
  ∀ (s : State) (x : Item) (rest : List Input) (i : Instr),
    (s.seq = .idle ∨ ∃ a, x = .address a) → s.inputs = .present x :: rest → decode x = .ok i →
    step s = exec i (match x with
      | .host w => { s with inputs := rest
                            r := { s.r with op := BitVec.ofNat 4 w.toNat, reg := BitVec.ofNat 2 (w.toNat / 2 ^ 4),
                                            wval := BitVec.ofNat 8 (w.toNat / 2 ^ 6),
                                            addr := BitVec.ofNat 32 (w.toNat / 2 ^ 16),
                                            len := BitVec.ofNat 16 (w.toNat / 2 ^ 48),
                                            att := BitVec.ofNat 16 (w.toNat / 2 ^ 64),
                                            dly := BitVec.ofNat 16 (w.toNat / 2 ^ 80) } }
      | .wire _ _ => { s with inputs := rest }
      | .address _ => { s with inputs := rest })

/-- R231, R29: in `IDLE`, with nothing presented, nothing at all happens. That with nothing presented one step of the
machine is one step of the sequencer is the model's choice (log 1): R22 does not fix it. -/
def Obligations.QuietStep : Prop :=
  ∀ (s : State) (rest : List Input),
    (s.inputs = [] → step s = .next (tick s)) ∧
    (s.inputs = .quiet :: rest → step s = .next (tick { s with inputs := rest })) ∧
    (s.seq = .idle → tick s = s)

/-- R23: the request latch holds the accepted request, unchanged to the end of its operation, the fields the operation
does not use included.
Rests on the spec's own decisions D3, D4. -/
def Obligations.LatchHoldsTheRequest : Prop :=
  ∀ (s : State) (w : RequestWord) (rest : List Input), s.seq = .idle → s.inputs = .present (.host w) :: rest →
    w.toNat % 16 < 10 →
    ∃ t, step s = .next t ∧ t.inputs = rest ∧ t.r.op.toNat = w.toNat % 16 ∧ t.r.reg.toNat = w.toNat / 2 ^ 4 % 4 ∧
      t.r.wval.toNat = w.toNat / 2 ^ 6 % 2 ^ 8 ∧ t.r.addr.toNat = w.toNat / 2 ^ 16 % 2 ^ 32 ∧
      t.r.len.toNat = w.toNat / 2 ^ 48 % 2 ^ 16 ∧ t.r.att.toNat = w.toNat / 2 ^ 64 % 2 ^ 16 ∧
      t.r.dly.toNat = w.toNat / 2 ^ 80

/-- R99: a request with operation number `0xA` to `0xF` is refused: the machine has no step.
Rests on the spec's own decision D19. -/
def Obligations.ReservedOperationsRefused : Prop :=
  ∀ (s : State) (w : RequestWord) (rest : List Input), s.seq = .idle → 10 ≤ w.toNat % 16 →
    step { s with inputs := .present (.host w) :: rest } = .refused .reservedOperation ∧
    step { s with inputs := .start w :: rest } = .refused .reservedOperation

/-- R29: a request presented while the controller is busy, in either form, is not accepted and has no effect: the step is
the one taken when nothing is presented. That a wire transaction presented as an item is turned away in the same way is
the model's choice (log 12).
Rests on the spec's own decision D30. -/
def Obligations.BusyRequestIgnored : Prop :=
  ∀ (s : State) (w : RequestWord) (rest : List Input), s.seq ≠ .idle →
    step { s with inputs := .present (.host w) :: rest } = step { s with inputs := .quiet :: rest } ∧
    step { s with inputs := .start w :: rest } = step { s with inputs := .quiet :: rest } ∧
    (∀ tx rx, step { s with inputs := .present (.wire tx rx) :: rest } = step { s with inputs := .quiet :: rest })

/-- R230, R231, R233: a hardware reset, in any state and inside any operation, puts the sequencer in `IDLE` with nothing
owed and the trace empty, makes no transport call, produces no response, and leaves `cfg`, the buffer, the translator's
port and the scheduled answers as they are. That it is an input that falls between two steps is the model's choice
(log 3, log 19).
Rests on the spec's own decisions D23, D37. -/
def Obligations.HardwareReset : Prop :=
  ∀ (s : State) (rest : List Input),
    ∃ t, step { s with inputs := .hardReset :: rest } = .next t ∧ t.seq = .idle ∧ t.r.wdOwed = false ∧ t.trace = [] ∧
      t.responses = s.responses ∧ t.cfg = s.cfg ∧ t.buf = s.buf ∧ t.xaddr = s.xaddr ∧ t.script = s.script ∧
      t.inputs = rest

/-- R32, R54, R245: the host's store to `Buf[j]` changes that byte and no other; an index outside `Buf[0..2176)` does not
exist, and a byte that a running `PAGE_READ` or `PAGE_PROGRAM` uses must not be stored to. That the machine stops in the
last two cases is the model's choice (log 20).
Rests on the spec's own decision D27. -/
def Obligations.HostStores : Prop :=
  ∀ (s : State) (j : Nat) (b : Byte) (rest : List Input), Buffer.wf s.buf = true →
    (2176 ≤ j → step { s with inputs := .hostStore j b :: rest } = .fault .bufferIndex) ∧
    (j < 2176 → (∃ st, s.seq = .run st ∧ (st.op = .pageRead ∨ st.op = .pageProgram) ∧ j < s.r.len.toNat) →
      step { s with inputs := .hostStore j b :: rest } = .fault .bufferRace) ∧
    (j < 2176 → (¬ ∃ st, s.seq = .run st ∧ (st.op = .pageRead ∨ st.op = .pageProgram) ∧ j < s.r.len.toNat) →
      ∃ t, step { s with inputs := .hostStore j b :: rest } = .next t ∧ Buffer.wf t.buf = true ∧
        t = { s with inputs := rest, buf := t.buf } ∧
        ∀ n, Buffer.read t.buf n = if n = j then b else Buffer.read s.buf n)

/-- R31: no step changes `cfg`. -/
def Obligations.ConfigurationConstant : Prop :=
  ∀ (s t : State), step s = .next t → t.cfg = s.cfg

/-- R43: right after reset the controller is in `IDLE`, owes nothing, and its trace is empty; no response has been
produced; with nothing presented it does nothing (R231).
Rests on the spec's own decisions D5, D7, D23. -/
def Obligations.StateAfterReset : Prop :=
  State.reset.seq = .idle ∧ State.reset.r.wdOwed = false ∧ State.reset.trace = [] ∧ State.reset.responses = [] ∧
    State.reset.cfg.planeInCol = false ∧ State.reset.cfg.dummy = 0x00 ∧ step State.reset = .next State.reset

/-- The invariant holds right after reset. -/
def Obligations.ResetMeetsInvariant : Prop := Safety.Inv State.reset

/-- R27, R22, R24, R26, R161: every step keeps the invariant: the buffer stays in canonical form, in `IDLE` nothing is
owed, and at each step of an operation the latch, the flag of the owed write-disable, the failure latch, the guards passed
and the attempt counter are as that step needs them. -/
def Obligations.StepKeepsInvariant : Prop :=
  ∀ (s t : State), Safety.Inv s → step s = .next t → Safety.Inv t

/-- R22: an operation run one step of the sequencer at a time ends in the very state in which it ends when it is run to its
response at once, and was in `IDLE` at no step before. That there are these two forms is the model's choice (log 1). -/
def Obligations.PacedRunIsTheOperation : Prop :=
  ∀ (s t : State) (w : RequestWord) (rest : List Input), s.seq = .idle →
    step { s with inputs := .present (.host w) :: rest } = .next t →
    ∃ u n, step { s with inputs := .start w :: rest } = .next u ∧ ticks n u = t ∧
      ∀ m, m < n → (ticks m u).seq ≠ .idle

/-- R133, R249: every operation ends, from every step it can stand at. The number of steps of the sequencer left is at most
8 and twice the largest of the five poll bounds, the four of `cfg` and the request's; that count is of the model's own
division of an operation into steps (log 14). -/
def Obligations.EveryOperationEnds : Prop :=
  ∀ (s : State), Safety.Inv s →
    ∃ n ≤ 2 * max s.cfg.pollReset.maxAttempts (max s.cfg.pollRead.maxAttempts (max s.cfg.pollPgm.maxAttempts
      (max s.cfg.pollErs.maxAttempts s.r.att.toNat))) + 8, (ticks n s).seq = .idle

/-! ### What a failure leaves -/

/-- R242: a failed operation is not undone. After a `PAGE_PROGRAM` whose execute step failed, which ends in
`ProgramFailed`, the cache holds the loaded data; after a `PAGE_READ` whose cache read failed, which ends in `ReadFailed`,
the cache holds the page. Where the payload runs past the page (`col + len > 2048`) the first clause says only which load
the cache was last filled by: R70 leaves open what it then stores (log 17). What a trace says of the chip is `Safety.chipAfter`'s reading of the environment rules (log 17).
Rests on the spec's own decisions D5, D6, D7, D16. -/
def Obligations.FailedOperationNotUndone : Prop :=
  ∀ (s : State) (addr : LogicalAddress) (len : BitVec 16) (v : Safety.ChipView) (e : TransportError), s.seq = .idle →
    s.r.wdOwed = false →
    (∃ t, exec (.pageProgram addr len) s = .next t ∧
      (.send (0x10 :: rowWire addr) (.err e) ∈ t.trace → t.r.res = .programFailed ∧
        (Safety.chipAfterTrace v t.trace).cache =
          .loaded (colWire s.cfg addr) ((List.range len.toNat).map (Buffer.read s.buf)))) ∧
    (∃ t, exec (.pageRead addr len) s = .next t ∧
      (.sendReceive (0x03 :: (colWire s.cfg addr ++ [s.cfg.dummy])) len.toNat (.err e) ∈ t.trace →
        t.r.res = .readFailed ∧ (Safety.chipAfterTrace v t.trace).cache = .page (rowWire addr)))
end

