-- ==== Sys2Proof/Laws/Buffer.lean ====
section
/-! SUPPORT. The laws of the host buffer: every operation keeps the canonical form, a read after a write to the same index
gives the byte written, and every other index is left alone. -/

namespace Sys2Proof.Machine.Laws

open Sys2Proof Sys2Proof.Machine

/-- Whatever is listed from `k` on, an index below `k` reads as the blank byte. -/
theorem read_below {m : List Host.Cell} {k j : Nat} (h : Buffer.wfFrom k m = true) (hj : j < k) :
    Buffer.read m j = Buffer.blank := by
  induction m generalizing k with
  | nil => rfl
  | cons c m ih =>
    obtain ⟨a, b⟩ := c
    simp only [Buffer.wfFrom, Bool.and_eq_true, decide_eq_true_eq] at h
    obtain ⟨⟨⟨hk, _⟩, _⟩, hm⟩ := h
    have hne : a ≠ j := by omega
    simp only [Buffer.read, hne, if_false]
    exact ih hm (by omega)

theorem wfFrom_mono {m : List Host.Cell} {k j : Nat} (h : Buffer.wfFrom k m = true) (hj : j ≤ k) :
    Buffer.wfFrom j m = true := by
  cases m with
  | nil => rfl
  | cons c m =>
    obtain ⟨a, b⟩ := c
    simp only [Buffer.wfFrom, Bool.and_eq_true, decide_eq_true_eq] at h ⊢
    exact ⟨⟨⟨by omega, h.1.1.2⟩, h.1.2⟩, h.2⟩

/-- An entry in front of what is listed from the next index on. -/
theorem wfFrom_entry {m : List Host.Cell} {k j : Nat} {b : Byte} (hk : k ≤ j) (hj : j < Config.pageSize)
    (h : Buffer.wfFrom (j + 1) m = true) : Buffer.wfFrom k (Buffer.entry j b ++ m) = true := by
  by_cases hb : b = Buffer.blank
  · simpa [Buffer.entry, hb] using wfFrom_mono h (by omega)
  · simp [Buffer.entry, hb, Buffer.wfFrom, hk, hj, h]

theorem read_entry (m : List Host.Cell) (j n : Nat) (b : Byte) (h : Buffer.read m j = Buffer.blank) :
    Buffer.read (Buffer.entry j b ++ m) n = if n = j then b else Buffer.read m n := by
  by_cases hb : b = Buffer.blank
  · by_cases hn : n = j
    · simp [Buffer.entry, hb, hn, h]
    · simp [Buffer.entry, hb, hn]
  · by_cases hn : n = j
    · simp [Buffer.entry, hb, Buffer.read, hn]
    · simp [Buffer.entry, hb, Buffer.read, hn, Ne.symm hn]

/-- A store keeps the canonical form. -/
theorem wfFrom_write {m : List Host.Cell} {k j : Nat} (b : Byte) (h : Buffer.wfFrom k m = true) (hk : k ≤ j)
    (hj : j < Config.pageSize) : Buffer.wfFrom k (Buffer.write m j b) = true := by
  induction m generalizing k with
  | nil => simpa [Buffer.write] using wfFrom_entry (m := []) hk hj rfl
  | cons c m ih =>
    obtain ⟨a, x⟩ := c
    have h0 := h
    simp only [Buffer.wfFrom, Bool.and_eq_true, decide_eq_true_eq] at h
    obtain ⟨⟨⟨hka, ha⟩, hx⟩, hm⟩ := h
    rcases Nat.lt_trichotomy j a with hlt | heq | hgt
    · simp only [Buffer.write, hlt, if_true]
      exact wfFrom_entry hk hj (by simp [Buffer.wfFrom, ha, hx, hm]; omega)
    · subst heq
      simp only [Buffer.write, lt_irrefl, if_false, if_true]
      exact wfFrom_entry hk hj hm
    · have h1 : ¬ j < a := by omega
      have h2 : j ≠ a := by omega
      simp only [Buffer.write, h1, h2, if_false, Buffer.wfFrom, Bool.and_eq_true, decide_eq_true_eq]
      exact ⟨⟨⟨hka, ha⟩, hx⟩, ih hm (by omega)⟩

theorem wf_write {m : List Host.Cell} {j : Nat} (b : Byte) (h : Buffer.wf m = true) (hj : j < Config.pageSize) :
    Buffer.wf (Buffer.write m j b) = true :=
  wfFrom_write b h (Nat.zero_le j) hj

/-- A read after a store. -/
theorem read_write {m : List Host.Cell} {k : Nat} (j n : Nat) (b : Byte) (h : Buffer.wfFrom k m = true) :
    Buffer.read (Buffer.write m j b) n = if n = j then b else Buffer.read m n := by
  induction m generalizing k with
  | nil => simpa [Buffer.write] using read_entry [] j n b rfl
  | cons c m ih =>
    obtain ⟨a, x⟩ := c
    have h0 := h
    simp only [Buffer.wfFrom, Bool.and_eq_true, decide_eq_true_eq] at h
    obtain ⟨_, hm⟩ := h
    rcases Nat.lt_trichotomy j a with hlt | heq | hgt
    · simp only [Buffer.write, hlt, if_true]
      refine read_entry _ j n b (read_below (k := a) ?_ hlt)
      simp only [Buffer.wfFrom, Bool.and_eq_true, decide_eq_true_eq] at h0 ⊢
      exact ⟨⟨⟨le_refl a, h0.1.1.2⟩, h0.1.2⟩, hm⟩
    · subst heq
      simp only [Buffer.write, lt_irrefl, if_false, if_true]
      rw [read_entry m j n b (read_below hm (by omega))]
      by_cases hn : n = j
      · simp [hn]
      · simp [Buffer.read, hn, Ne.symm hn]
    · have h1 : ¬ j < a := by omega
      have h2 : j ≠ a := by omega
      simp only [Buffer.write, h1, h2, if_false, Buffer.read, ih hm]
      by_cases hn : a = n
      · have : n ≠ j := by omega
        simp [hn, this]
      · simp [hn]

/-- The entries of a byte string, read back. -/
theorem read_cells_append (bs : List Byte) (k n : Nat) (m : List Host.Cell)
    (hm : ∀ j, j < k + bs.length → Buffer.read m j = Buffer.blank) :
    Buffer.read (Buffer.cells k bs ++ m) n = if k ≤ n ∧ n < k + bs.length then bs.getD (n - k) 0
      else Buffer.read m n := by
  induction bs generalizing k n with
  | nil =>
    have : ¬ (k ≤ n ∧ n < k) := by omega
    simp [Buffer.cells, this]
  | cons b bs ih =>
    simp only [List.length_cons] at hm
    have hm' : ∀ j, j < k + 1 + bs.length → Buffer.read m j = Buffer.blank := fun j hj => hm j (by omega)
    have hrest : Buffer.read (Buffer.cells (k + 1) bs ++ m) k = Buffer.blank := by
      rw [ih (k + 1) k hm', if_neg (by omega)]
      exact hm k (by omega)
    simp only [Buffer.cells, List.append_assoc, List.length_cons]
    rw [read_entry _ k n b hrest, ih (k + 1) n hm']
    by_cases hn : n = k
    · subst hn
      simp
    · by_cases hin : k + 1 ≤ n ∧ n < k + 1 + bs.length
      · have h2 : k ≤ n ∧ n < k + (bs.length + 1) := by omega
        have h3 : n - k = (n - (k + 1)) + 1 := by omega
        rw [if_neg hn, if_pos hin, if_pos h2, h3, List.getD_cons_succ]
      · have h2 : ¬ (k ≤ n ∧ n < k + (bs.length + 1)) := by omega
        rw [if_neg hn, if_neg hin, if_neg h2]

theorem read_filter (m : List Host.Cell) (l n : Nat) :
    Buffer.read (m.filter fun c => decide (l ≤ c.1)) n = if l ≤ n then Buffer.read m n else Buffer.blank := by
  induction m with
  | nil => simp [Buffer.read]
  | cons c m ih =>
    obtain ⟨a, b⟩ := c
    by_cases ha : l ≤ a
    · simp only [List.filter_cons, ha, decide_true, if_true, Buffer.read, ih]
      by_cases hn : a = n
      · subst hn
        simp [ha]
      · simp [hn]
    · simp only [List.filter_cons, ha, decide_false, Bool.false_eq_true, if_false, Buffer.read, ih]
      by_cases hn : a = n
      · subst hn
        simp [ha]
      · simp [hn]

/-- A read after a transfer into `Buf[0..len)`. -/
theorem read_storePrefix (m : List Host.Cell) (bs : List Byte) (n : Nat) :
    Buffer.read (Buffer.storePrefix m bs) n = if n < bs.length then bs.getD n 0 else Buffer.read m n := by
  have hm : ∀ j, j < 0 + bs.length →
      Buffer.read (m.filter fun c => decide (bs.length ≤ c.1)) j = Buffer.blank := by
    intro j hj
    rw [read_filter, if_neg (by omega)]
  rw [Buffer.storePrefix, read_cells_append bs 0 n _ hm, read_filter]
  by_cases hn : n < bs.length
  · simp [hn]
  · simp [hn, Nat.le_of_not_lt hn]

theorem wfFrom_cells {m : List Host.Cell} (bs : List Byte) (k : Nat) (hk : k + bs.length ≤ Config.pageSize)
    (h : Buffer.wfFrom (k + bs.length) m = true) : Buffer.wfFrom k (Buffer.cells k bs ++ m) = true := by
  induction bs generalizing k with
  | nil => simpa [Buffer.cells] using h
  | cons b bs ih =>
    simp only [List.length_cons] at h hk
    simp only [Buffer.cells, List.append_assoc]
    refine wfFrom_entry (le_refl k) (by omega) (ih (k + 1) (by omega) ?_)
    rwa [show k + 1 + bs.length = k + (bs.length + 1) by omega]

theorem wfFrom_filter {m : List Host.Cell} {k : Nat} (l : Nat) (h : Buffer.wfFrom k m = true) :
    Buffer.wfFrom (max k l) (m.filter fun c => decide (l ≤ c.1)) = true := by
  induction m generalizing k with
  | nil => rfl
  | cons c m ih =>
    obtain ⟨a, b⟩ := c
    simp only [Buffer.wfFrom, Bool.and_eq_true, decide_eq_true_eq] at h
    obtain ⟨⟨⟨hk, ha⟩, hb⟩, hm⟩ := h
    by_cases hl : l ≤ a
    · simp only [List.filter_cons, hl, decide_true, if_true, Buffer.wfFrom, Bool.and_eq_true, decide_eq_true_eq]
      exact ⟨⟨⟨by omega, ha⟩, hb⟩, wfFrom_mono (ih hm) (by omega)⟩
    · simp only [List.filter_cons, hl, decide_false, Bool.false_eq_true, if_false]
      exact wfFrom_mono (ih hm) (by omega)

/-- A transfer into `Buf[0..len)` keeps the canonical form. -/
theorem wf_storePrefix {m : List Host.Cell} (bs : List Byte) (h : Buffer.wf m = true)
    (hl : bs.length ≤ Config.pageSize) : Buffer.wf (Buffer.storePrefix m bs) = true :=
  wfFrom_cells bs 0 (by omega) (wfFrom_mono (wfFrom_filter bs.length h) (by omega))

@[simp] theorem prefixBytes_length (m : List Host.Cell) (n : Nat) : (Buffer.prefixBytes m n).length = n := by
  simp [Buffer.prefixBytes]

end Sys2Proof.Machine.Laws
end

