-- ==== Sys2Proof/Laws/Chip.lean ====
section
/-! SUPPORT. What one call lets one say of the chip (`Safety.chipAfter`), call by call, so that no proof unfolds it. -/

namespace Sys2Proof.Machine.Laws

open Sys2Proof Sys2Proof.Machine.Safety

/-! ### Traces -/

@[simp] theorem chipAfterTrace_nil (v : ChipView) : chipAfterTrace v [] = v := rfl
@[simp] theorem chipAfterTrace_cons (v : ChipView) (c : Call) (cs : List Call) :
    chipAfterTrace v (c :: cs) = chipAfterTrace (chipAfter v c) cs := rfl
@[simp] theorem chipAfterTrace_append (v : ChipView) (cs ds : List Call) :
    chipAfterTrace v (cs ++ ds) = chipAfterTrace (chipAfterTrace v cs) ds := List.foldl_append ..

/-! ### Calls that leave the cache as it is -/

@[simp] theorem chipAfter_delay (v : ChipView) (ms : Nat) : chipAfter v (.delay ms) = v := rfl

/-- No read changes the cache or the latch, carried or failed. -/
theorem chipAfter_sendReceive (v : ChipView) (tx : List Byte) (n : Nat) (a : Answer) :
    (chipAfter v (.sendReceive tx n a)).cache = v.cache ∧ (chipAfter v (.sendReceive tx n a)).wel = v.wel := by
  unfold chipAfter
  split <;> simp_all

/-- A write-disable, carried or failed, leaves the cache. -/
theorem chipAfter_disable_cache (v : ChipView) (a : Answer) : (chipAfter v (.send [0x04] a)).cache = v.cache := by
  cases a
  · rfl
  · exact if_pos rfl

/-- A program execute, carried or failed, leaves the cache (R242). -/
theorem chipAfter_execute_cache (v : ChipView) (a b c : Byte) (x : Answer) :
    (chipAfter v (.send [0x10, a, b, c] x)).cache = v.cache := by
  cases x
  · rfl
  · exact if_pos rfl

end Sys2Proof.Machine.Laws
end

