-- ==== Sys2Proof/Laws/Decode.lean ====
section
/-! SUPPORT. The fields of a packed request word, and the bytes of the wire's address fields, read back. -/

namespace Sys2Proof.Laws

open Sys2Proof

/-- A bit field as a quotient. -/
theorem extractLsb'_eq_ofNat {m : Nat} (w : BitVec m) (k n : Nat) :
    w.extractLsb' k n = BitVec.ofNat n (w.toNat / 2 ^ k) := by
  apply BitVec.eq_of_toNat_eq
  simp [BitVec.extractLsb'_toNat, Nat.shiftRight_eq_div_pow]

/-- A field inside the upper part of a concatenation. -/
theorem extract_hi {v w : Nat} (x : BitVec v) (y : BitVec w) (k n : Nat) (h : w ≤ k) :
    (x ++ y).extractLsb' k n = x.extractLsb' (k - w) n := BitVec.extractLsb'_append_eq_of_le h

/-- The lower part of a concatenation. -/
theorem extract_lo {v w : Nat} (x : BitVec v) (y : BitVec w) : (x ++ y).extractLsb' 0 w = y := by
  rw [BitVec.extractLsb'_append_eq_of_add_le (by omega), BitVec.extractLsb'_eq_self]

section
variable (op : BitVec 4) (reg : BitVec 2) (wval : Byte) (addr : LogicalAddress) (len att dly : BitVec 16)

@[simp] theorem packRequest_op : (packRequest op reg wval addr len att dly).extractLsb' 0 4 = op :=
  extract_lo _ op

@[simp] theorem packRequest_reg : (packRequest op reg wval addr len att dly).extractLsb' 4 2 = reg :=
  (extract_hi _ op 4 2 (by decide)).trans (extract_lo _ reg)

@[simp] theorem packRequest_wval : (packRequest op reg wval addr len att dly).extractLsb' 6 8 = wval :=
  (extract_hi _ op 6 8 (by decide)).trans ((extract_hi _ reg 2 8 (by decide)).trans (extract_lo _ wval))

@[simp] theorem packRequest_addr : (packRequest op reg wval addr len att dly).extractLsb' 16 32 = addr :=
  (extract_hi _ op 16 32 (by decide)).trans <| (extract_hi _ reg 12 32 (by decide)).trans <|
    (extract_hi _ wval 10 32 (by decide)).trans <| (extract_hi _ (0 : BitVec 2) 2 32 (by decide)).trans
      (extract_lo _ addr)

@[simp] theorem packRequest_len : (packRequest op reg wval addr len att dly).extractLsb' 48 16 = len :=
  (extract_hi _ op 48 16 (by decide)).trans <| (extract_hi _ reg 44 16 (by decide)).trans <|
    (extract_hi _ wval 42 16 (by decide)).trans <| (extract_hi _ (0 : BitVec 2) 34 16 (by decide)).trans <|
      (extract_hi _ addr 32 16 (by decide)).trans (extract_lo _ len)

@[simp] theorem packRequest_att : (packRequest op reg wval addr len att dly).extractLsb' 64 16 = att :=
  (extract_hi _ op 64 16 (by decide)).trans <| (extract_hi _ reg 60 16 (by decide)).trans <|
    (extract_hi _ wval 58 16 (by decide)).trans <| (extract_hi _ (0 : BitVec 2) 50 16 (by decide)).trans <|
      (extract_hi _ addr 48 16 (by decide)).trans <| (extract_hi _ len 16 16 (by decide)).trans (extract_lo _ att)

@[simp] theorem packRequest_dly : (packRequest op reg wval addr len att dly).extractLsb' 80 16 = dly :=
  (extract_hi _ op 80 16 (by decide)).trans <| (extract_hi _ reg 76 16 (by decide)).trans <|
    (extract_hi _ wval 74 16 (by decide)).trans <| (extract_hi _ (0 : BitVec 2) 66 16 (by decide)).trans <|
      (extract_hi _ addr 64 16 (by decide)).trans <| (extract_hi _ len 32 16 (by decide)).trans <|
        (extract_hi _ att 16 16 (by decide)).trans BitVec.extractLsb'_eq_self

end

/-- Three bytes are the bytes of the 24-bit field they make. -/
@[simp] theorem rowBytes_append (a b c : Byte) : rowBytes (a ++ b ++ c) = [a, b, c] := by
  simp only [rowBytes, List.cons.injEq, and_true]
  exact ⟨(extract_hi (a ++ b) c 16 8 (by decide)).trans ((extract_hi a b 8 8 (by decide)).trans
      BitVec.extractLsb'_eq_self), (extract_hi (a ++ b) c 8 8 (by decide)).trans (extract_lo a b), extract_lo (a ++ b) c⟩

/-- Two bytes are the bytes of the 16-bit field they make. -/
@[simp] theorem colBytes_append (a b : Byte) : colBytes (a ++ b) = [a, b] := by
  simp only [colBytes, List.cons.injEq, and_true]
  exact ⟨(extract_hi a b 8 8 (by decide)).trans BitVec.extractLsb'_eq_self, extract_lo a b⟩

/-- A 24-bit field is made of its bytes. -/
@[simp] theorem append_rowBytes (row : BitVec 24) :
    (row.extractLsb' 16 8 ++ row.extractLsb' 8 8 ++ row.extractLsb' 0 8 : BitVec 24) = row := by
  have h1 : (row.extractLsb' 16 8 ++ row.extractLsb' 8 8 : BitVec (8 + 8)) = row.extractLsb' 8 (8 + 8) :=
    BitVec.extractLsb'_append_extractLsb'_eq_extractLsb' rfl
  have h2 : (row.extractLsb' 8 (8 + 8) ++ row.extractLsb' 0 8 : BitVec (8 + 8 + 8)) = row.extractLsb' 0 (8 + 8 + 8) :=
    BitVec.extractLsb'_append_extractLsb'_eq_extractLsb' rfl
  rw [← h1] at h2
  exact h2.trans BitVec.extractLsb'_eq_self

/-- A 16-bit field is made of its bytes. -/
@[simp] theorem append_colBytes (w : BitVec 16) :
    (w.extractLsb' 8 8 ++ w.extractLsb' 0 8 : BitVec 16) = w :=
  (BitVec.extractLsb'_append_extractLsb'_eq_extractLsb' (x := w) rfl).trans BitVec.extractLsb'_eq_self

end Sys2Proof.Laws
end

