-- ==== Sys2Proof/Laws/State.lean ====
section
/-! SUPPORT. One lemma per field per update of the state, true by unfolding, so that no proof unfolds a record update. -/

namespace Sys2Proof.Machine.Laws

open Sys2Proof

/-! ### withRegs -/

@[simp] theorem withRegs_seq (s : State) (f : Regs → Regs) : (s.withRegs f).seq = s.seq := rfl
@[simp] theorem withRegs_r (s : State) (f : Regs → Regs) : (s.withRegs f).r = f s.r := rfl
@[simp] theorem withRegs_buf (s : State) (f : Regs → Regs) : (s.withRegs f).buf = s.buf := rfl
@[simp] theorem withRegs_xaddr (s : State) (f : Regs → Regs) : (s.withRegs f).xaddr = s.xaddr := rfl
@[simp] theorem withRegs_trace (s : State) (f : Regs → Regs) : (s.withRegs f).trace = s.trace := rfl
@[simp] theorem withRegs_responses (s : State) (f : Regs → Regs) : (s.withRegs f).responses = s.responses := rfl
@[simp] theorem withRegs_cfg (s : State) (f : Regs → Regs) : (s.withRegs f).cfg = s.cfg := rfl
@[simp] theorem withRegs_inputs (s : State) (f : Regs → Regs) : (s.withRegs f).inputs = s.inputs := rfl
@[simp] theorem withRegs_script (s : State) (f : Regs → Regs) : (s.withRegs f).script = s.script := rfl
@[simp] theorem withRegs_draws (s : State) (f : Regs → Regs) : (s.withRegs f).draws = s.draws := rfl

/-! ### goto -/

@[simp] theorem goto_seq (s : State) (p : SeqStep) : (s.goto p).seq = .run p := rfl
@[simp] theorem goto_r (s : State) (p : SeqStep) : (s.goto p).r = s.r := rfl
@[simp] theorem goto_buf (s : State) (p : SeqStep) : (s.goto p).buf = s.buf := rfl
@[simp] theorem goto_xaddr (s : State) (p : SeqStep) : (s.goto p).xaddr = s.xaddr := rfl
@[simp] theorem goto_trace (s : State) (p : SeqStep) : (s.goto p).trace = s.trace := rfl
@[simp] theorem goto_responses (s : State) (p : SeqStep) : (s.goto p).responses = s.responses := rfl
@[simp] theorem goto_cfg (s : State) (p : SeqStep) : (s.goto p).cfg = s.cfg := rfl
@[simp] theorem goto_inputs (s : State) (p : SeqStep) : (s.goto p).inputs = s.inputs := rfl
@[simp] theorem goto_script (s : State) (p : SeqStep) : (s.goto p).script = s.script := rfl
@[simp] theorem goto_draws (s : State) (p : SeqStep) : (s.goto p).draws = s.draws := rfl

/-! ### delay -/

@[simp] theorem delay_seq (ms : Nat) (s : State) : (delay ms s).seq = s.seq := rfl
@[simp] theorem delay_r (ms : Nat) (s : State) : (delay ms s).r = s.r := rfl
@[simp] theorem delay_buf (ms : Nat) (s : State) : (delay ms s).buf = s.buf := rfl
@[simp] theorem delay_xaddr (ms : Nat) (s : State) : (delay ms s).xaddr = s.xaddr := rfl
@[simp] theorem delay_trace (ms : Nat) (s : State) : (delay ms s).trace = s.trace ++ [.delay ms] := rfl
@[simp] theorem delay_responses (ms : Nat) (s : State) : (delay ms s).responses = s.responses := rfl
@[simp] theorem delay_cfg (ms : Nat) (s : State) : (delay ms s).cfg = s.cfg := rfl
@[simp] theorem delay_inputs (ms : Nat) (s : State) : (delay ms s).inputs = s.inputs := rfl
@[simp] theorem delay_script (ms : Nat) (s : State) : (delay ms s).script = s.script := rfl
@[simp] theorem delay_draws (ms : Nat) (s : State) : (delay ms s).draws = s.draws := rfl

/-! ### transport -/

@[simp] theorem transport_seq (mk : Answer → Call) (n : Nat) (s : State) : ((transport mk n s).2).seq = s.seq := rfl
@[simp] theorem transport_r (mk : Answer → Call) (n : Nat) (s : State) : ((transport mk n s).2).r = s.r := rfl
@[simp] theorem transport_buf (mk : Answer → Call) (n : Nat) (s : State) : ((transport mk n s).2).buf = s.buf := rfl
@[simp] theorem transport_xaddr (mk : Answer → Call) (n : Nat) (s : State) : ((transport mk n s).2).xaddr = s.xaddr := rfl
@[simp] theorem transport_trace (mk : Answer → Call) (n : Nat) (s : State) : ((transport mk n s).2).trace = s.trace ++ [mk (s.nextAnswer n)] := rfl
@[simp] theorem transport_responses (mk : Answer → Call) (n : Nat) (s : State) : ((transport mk n s).2).responses = s.responses := rfl
@[simp] theorem transport_cfg (mk : Answer → Call) (n : Nat) (s : State) : ((transport mk n s).2).cfg = s.cfg := rfl
@[simp] theorem transport_inputs (mk : Answer → Call) (n : Nat) (s : State) : ((transport mk n s).2).inputs = s.inputs := rfl
@[simp] theorem transport_script (mk : Answer → Call) (n : Nat) (s : State) : ((transport mk n s).2).script = s.script.tail := rfl
@[simp] theorem transport_draws (mk : Answer → Call) (n : Nat) (s : State) : ((transport mk n s).2).draws = s.draws + 1 := rfl

/-! ### accept -/

@[simp] theorem accept_seq (op : HostOp) (s : State) : (accept op s).seq = .run (firstStep op) := rfl
@[simp] theorem accept_r (op : HostOp) (s : State) : (accept op s).r = { s.r with op := op.code } := rfl
@[simp] theorem accept_buf (op : HostOp) (s : State) : (accept op s).buf = s.buf := rfl
@[simp] theorem accept_xaddr (op : HostOp) (s : State) : (accept op s).xaddr = s.xaddr := rfl
@[simp] theorem accept_trace (op : HostOp) (s : State) : (accept op s).trace = [] := rfl
@[simp] theorem accept_responses (op : HostOp) (s : State) : (accept op s).responses = s.responses := rfl
@[simp] theorem accept_cfg (op : HostOp) (s : State) : (accept op s).cfg = s.cfg := rfl
@[simp] theorem accept_inputs (op : HostOp) (s : State) : (accept op s).inputs = s.inputs := rfl
@[simp] theorem accept_script (op : HostOp) (s : State) : (accept op s).script = s.script := rfl
@[simp] theorem accept_draws (op : HostOp) (s : State) : (accept op s).draws = s.draws := rfl

/-! ### respond -/

@[simp] theorem respond_seq (k : ResultKind) (s : State) : (respond k s).seq = .idle := rfl
@[simp] theorem respond_r (k : ResultKind) (s : State) : (respond k s).r = { s.r with res := k } := rfl
@[simp] theorem respond_buf (k : ResultKind) (s : State) : (respond k s).buf = s.buf := rfl
@[simp] theorem respond_xaddr (k : ResultKind) (s : State) : (respond k s).xaddr = s.xaddr := rfl
@[simp] theorem respond_trace (k : ResultKind) (s : State) : (respond k s).trace = s.trace := rfl
@[simp] theorem respond_responses (k : ResultKind) (s : State) : (respond k s).responses = s.responses ++ [({ s.r with res := k }).response] := rfl
@[simp] theorem respond_cfg (k : ResultKind) (s : State) : (respond k s).cfg = s.cfg := rfl
@[simp] theorem respond_inputs (k : ResultKind) (s : State) : (respond k s).inputs = s.inputs := rfl
@[simp] theorem respond_script (k : ResultKind) (s : State) : (respond k s).script = s.script := rfl
@[simp] theorem respond_draws (k : ResultKind) (s : State) : (respond k s).draws = s.draws := rfl

/-! ### hardReset -/

@[simp] theorem hardReset_seq (s : State) : (hardReset s).seq = .idle := rfl
@[simp] theorem hardReset_r (s : State) : (hardReset s).r = freeRegs s.draws := rfl
@[simp] theorem hardReset_buf (s : State) : (hardReset s).buf = s.buf := rfl
@[simp] theorem hardReset_xaddr (s : State) : (hardReset s).xaddr = s.xaddr := rfl
@[simp] theorem hardReset_trace (s : State) : (hardReset s).trace = [] := rfl
@[simp] theorem hardReset_responses (s : State) : (hardReset s).responses = s.responses := rfl
@[simp] theorem hardReset_cfg (s : State) : (hardReset s).cfg = s.cfg := rfl
@[simp] theorem hardReset_inputs (s : State) : (hardReset s).inputs = s.inputs := rfl
@[simp] theorem hardReset_script (s : State) : (hardReset s).script = s.script := rfl
@[simp] theorem hardReset_draws (s : State) : (hardReset s).draws = s.draws + 1 := rfl

/-! ### The named register writes are `withRegs` of one register -/

@[simp] theorem clearCnt_eq (s : State) : s.clearCnt = s.withRegs fun r => { r with cnt := 0 } := rfl
@[simp] theorem countAttempt_eq (s : State) : s.countAttempt = s.withRegs fun r => { r with cnt := r.cnt + 1 } := rfl
@[simp] theorem sample_eq (s : State) (b : Byte) : s.sample b = s.withRegs fun r => { r with st := b } := rfl
@[simp] theorem setOk_eq (s : State) (b : Bool) : s.setOk b = s.withRegs fun r => { r with ok := b } := rfl
@[simp] theorem setOwed_eq (s : State) (b : Bool) : s.setOwed b = s.withRegs fun r => { r with wdOwed := b } := rfl
@[simp] theorem setTerr_eq (s : State) (e : TransportError) : s.setTerr e = s.withRegs fun r => { r with terr := e } := rfl
@[simp] theorem setRbyte_eq (s : State) (b : Byte) : s.setRbyte b = s.withRegs fun r => { r with rbyte := b } := rfl
@[simp] theorem setRbusy_eq (s : State) (b : Bool) : s.setRbusy b = s.withRegs fun r => { r with rbusy := b } := rfl
@[simp] theorem setIdentity_eq (s : State) (m d : Byte) : s.setIdentity m d = s.withRegs fun r => { r with mfr := m, dev := d } := rfl

@[simp] theorem withRegs_withRegs (s : State) (f g : Regs → Regs) :
    (s.withRegs f).withRegs g = s.withRegs fun r => g (f r) := rfl

end Sys2Proof.Machine.Laws
end

