-- ==== Sys2Proof/Laws/Ops.lean ====
section
/-! SUPPORT. What each shared operation can do, said once: the transport's answers, the wire transactions, the primitives
of Register Access, and the end of an operation. -/

namespace Sys2Proof.Machine.Laws

open Sys2Proof

/-! ### Flags and operands -/

theorem oip_eq (st : Byte) : oip st = st.getLsbD 0 := by revert st; decide
theorem wel_eq (st : Byte) : wel st = st.getLsbD 1 := by revert st; decide
theorem ef_eq (st : Byte) : ef st = st.getLsbD 2 := by revert st; decide
theorem pf_eq (st : Byte) : pf st = st.getLsbD 3 := by revert st; decide

theorem inRange_iff (addr : LogicalAddress) : inRange addr = true ↔ addr.toNat < 268435456 := by
  unfold inRange; exact decide_eq_true_iff

theorem translate_of_inRange {addr : LogicalAddress} (h : addr.toNat < 268435456) :
    translate addr = some
      { block   := BitVec.ofNat 11 (blockOf addr.toNat)
        plane   := BitVec.ofNat 1 (planeOf addr.toNat)
        page    := BitVec.ofNat 6 (pageOf addr.toNat)
        col     := BitVec.ofNat 11 (colOf addr.toNat)
        rowAddr := BitVec.ofNat 24 (rowOf addr.toNat)
        colAddr := BitVec.ofNat 12 (colOf addr.toNat) } := by
  rw [translate, if_pos ((inRange_iff addr).2 h)]

theorem translate_of_not_inRange {addr : LogicalAddress} (h : 268435456 ≤ addr.toNat) : translate addr = none := by
  have : ¬ inRange addr = true := by rw [inRange_iff]; omega
  rw [translate, if_neg this]

/-- The shift-and-mask formulas as quotients and remainders. -/
theorem blockOf_eq (a : Nat) : blockOf a = a / 131072 := by simp [blockOf, Config.blockShift, Nat.shiftRight_eq_div_pow]
theorem pageOf_eq (a : Nat) : pageOf a = a / 2048 % 64 := by
  rw [pageOf, show Config.pageMask = 2 ^ 6 - 1 from rfl, Nat.and_two_pow_sub_one_eq_mod, Nat.shiftRight_eq_div_pow]
  rfl
theorem colOf_eq (a : Nat) : colOf a = a % 2048 := by
  rw [colOf, show Config.colMask = 2 ^ 11 - 1 from rfl, Nat.and_two_pow_sub_one_eq_mod]
theorem planeOf_eq (a : Nat) : planeOf a = a / 131072 % 2 := by
  simp [planeOf, blockOf_eq, Nat.and_one_is_mod]
/-- The OR of the row address is a sum, its page field being below 64 (R116). -/
theorem rowOf_eq (a : Nat) : rowOf a = a / 2048 := by
  have h : a / 2048 % 64 < 2 ^ 6 := by omega
  rw [rowOf, blockOf_eq, pageOf_eq, show Config.pageBits = 6 from rfl, Nat.shiftLeft_eq, Nat.mul_comm,
    ← Nat.two_pow_add_eq_or_of_lt h]
  omega

theorem rowBytes_ofNat (n : Nat) :
    rowBytes (BitVec.ofNat 24 n) = [BitVec.ofNat 8 (n / 65536), BitVec.ofNat 8 (n / 256), BitVec.ofNat 8 n] := by
  simp only [rowBytes, List.cons.injEq, and_true]
  refine ⟨?_, ?_, ?_⟩ <;> apply BitVec.eq_of_toNat_eq <;>
    simp [BitVec.extractLsb'_toNat, Nat.shiftRight_eq_div_pow] <;> omega

theorem colBytes_ofNat (n : Nat) :
    colBytes (BitVec.ofNat 16 n) = [BitVec.ofNat 8 (n / 256), BitVec.ofNat 8 n] := by
  simp only [colBytes, List.cons.injEq, and_true]
  refine ⟨?_, ?_⟩ <;> apply BitVec.eq_of_toNat_eq <;>
    simp [BitVec.extractLsb'_toNat, Nat.shiftRight_eq_div_pow] <;> omega

theorem regAddr_eq (reg : BitVec 2) : regAddr reg = BitVec.ofNat 8 (0xA0 + 0x10 * reg.toNat) := by
  revert reg; decide

/-- Only selector 2 names the status register (spec/10_state.md R36). -/
theorem regAddr_status (reg : BitVec 2) : regAddr reg = statusAddress ↔ reg = 2 := by revert reg; decide

/-! ### The transport's answers -/

@[simp] theorem fitLength_length (n d : Nat) (rx : List Byte) : (fitLength n d rx).length = n := by
  simp [fitLength]; omega

theorem fitLength_of_length {n : Nat} (d : Nat) {rx : List Byte} (h : rx.length = n) : fitLength n d rx = rx := by
  subst h; simp [fitLength]

/-- An answer is a failure, or the bytes of the length law (R58). -/
theorem nextAnswer_cases (s : State) (n : Nat) :
    (∃ e, s.nextAnswer n = .err e) ∨ ∃ rx, s.nextAnswer n = .ok rx ∧ rx.length = n := by
  unfold State.nextAnswer
  cases s.script.headD (Config.freeAnswer s.draws) with
  | err e => exact .inl ⟨e, rfl⟩
  | ok rx => exact .inr ⟨_, rfl, fitLength_length n _ rx⟩

theorem nextAnswer_length {s : State} {n : Nat} {rx : List Byte} (h : s.nextAnswer n = .ok rx) : rx.length = n := by
  obtain ⟨e, he⟩ | ⟨r, hr, hl⟩ := nextAnswer_cases s n
  · rw [he] at h; cases h
  · rw [hr] at h; cases h; exact hl

/-- The answer of a call that receives nothing. -/
theorem nextAnswer_zero (s : State) : s.nextAnswer 0 = .ok [] ∨ ∃ e, s.nextAnswer 0 = .err e := by
  obtain he | ⟨r, hr, hl⟩ := nextAnswer_cases s 0
  · exact .inr he
  · rw [List.length_eq_zero_iff.1 hl] at hr; exact .inl hr

/-- The answer of a call that receives one byte. -/
theorem nextAnswer_one (s : State) : (∃ b, s.nextAnswer 1 = .ok [b]) ∨ ∃ e, s.nextAnswer 1 = .err e := by
  obtain he | ⟨r, hr, hl⟩ := nextAnswer_cases s 1
  · exact .inr he
  · obtain ⟨b, rfl⟩ := List.length_eq_one_iff.1 hl; exact .inl ⟨b, hr⟩

theorem nextAnswer_scripted_err {s : State} {e : TransportError} {rest : List Answer} (n : Nat)
    (h : s.script = .err e :: rest) : s.nextAnswer n = .err e := by
  simp [State.nextAnswer, h, fitAnswer]

theorem nextAnswer_scripted_ok {s : State} {rx : List Byte} {rest : List Answer} {n : Nat}
    (h : s.script = .ok rx :: rest) (hn : rx.length = n) : s.nextAnswer n = .ok rx := by
  simp [State.nextAnswer, h, fitAnswer, fitLength_of_length _ hn]

/-- A call's answer depends on the script and the draw number alone. -/
theorem nextAnswer_congr {s t : State} (n : Nat) (hs : s.script = t.script) (hd : s.draws = t.draws) :
    s.nextAnswer n = t.nextAnswer n := by
  simp [State.nextAnswer, hs, hd]

@[simp] theorem nextAnswer_withRegs (s : State) (f : Regs → Regs) (n : Nat) :
    (s.withRegs f).nextAnswer n = s.nextAnswer n := rfl
@[simp] theorem nextAnswer_delay (s : State) (ms n : Nat) : (delay ms s).nextAnswer n = s.nextAnswer n := rfl
@[simp] theorem nextAnswer_accept (s : State) (op : HostOp) (n : Nat) : (accept op s).nextAnswer n = s.nextAnswer n := rfl

@[simp] theorem transport_fst (mk : Answer → Call) (n : Nat) (s : State) : (transport mk n s).1 = s.nextAnswer n := rfl

/-! ### The primitives -/

/-- `writeEnable` is its transaction, after which a write-disable is owed. -/
theorem writeEnable_eq (s : State) :
    writeEnable s = (s.nextAnswer 0, (transport (.send [0x06]) 0 s).2.setOwed true) := rfl

/-- `writeDisable` is its transaction, after which none is owed. -/
theorem writeDisable_eq (s : State) :
    writeDisable s = (s.nextAnswer 0, (transport (.send [0x04]) 0 s).2.setOwed false) := rfl

/-! ### The end of an operation -/

theorem raise_not_owed {s : State} (k : ResultKind) (h : s.r.wdOwed = false) : raise k s = respond k s := by
  simp [raise, cleanup, h]

/-- After a failure entry the controller is in `IDLE`, owes nothing, and has produced one response with the kind. -/
theorem raise_spec (k : ResultKind) (s : State) :
    (raise k s).seq = .idle ∧ (raise k s).r.wdOwed = false ∧ (raise k s).r.res = k ∧
      (raise k s).responses = s.responses ++ [(raise k s).r.response] ∧ (raise k s).cfg = s.cfg ∧
      (raise k s).buf = s.buf ∧ (raise k s).xaddr = s.xaddr ∧ (raise k s).inputs = s.inputs := by
  cases h : s.r.wdOwed <;> simp [raise, cleanup, h, writeDisable_eq, respond]

end Sys2Proof.Machine.Laws
end

