-- ==== Sys2Proof/Laws/Poller.lean ====
section
/-! SUPPORT. What the poll can do, said once. -/

namespace Sys2Proof.Machine.Laws

open Sys2Proof

/-- `s` after a poll's calls: the counter, the sample, the trace, and the environment's side. -/
def polled (s : State) (cnt : Nat) (st : Byte) (calls : List Call) (used : Nat) : State :=
  { s with r := { s.r with cnt := cnt, st := st }, trace := s.trace ++ calls,
           script := s.script.drop used, draws := s.draws + used }

@[simp] theorem polled_seq (s : State) (n : Nat) (b : Byte) (cs : List Call) (u : Nat) :
    (polled s n b cs u).seq = s.seq := rfl
@[simp] theorem polled_r (s : State) (n : Nat) (b : Byte) (cs : List Call) (u : Nat) :
    (polled s n b cs u).r = { s.r with cnt := n, st := b } := rfl
@[simp] theorem polled_buf (s : State) (n : Nat) (b : Byte) (cs : List Call) (u : Nat) :
    (polled s n b cs u).buf = s.buf := rfl
@[simp] theorem polled_xaddr (s : State) (n : Nat) (b : Byte) (cs : List Call) (u : Nat) :
    (polled s n b cs u).xaddr = s.xaddr := rfl
@[simp] theorem polled_trace (s : State) (n : Nat) (b : Byte) (cs : List Call) (u : Nat) :
    (polled s n b cs u).trace = s.trace ++ cs := rfl
@[simp] theorem polled_responses (s : State) (n : Nat) (b : Byte) (cs : List Call) (u : Nat) :
    (polled s n b cs u).responses = s.responses := rfl
@[simp] theorem polled_cfg (s : State) (n : Nat) (b : Byte) (cs : List Call) (u : Nat) :
    (polled s n b cs u).cfg = s.cfg := rfl
@[simp] theorem polled_inputs (s : State) (n : Nat) (b : Byte) (cs : List Call) (u : Nat) :
    (polled s n b cs u).inputs = s.inputs := rfl
@[simp] theorem polled_script (s : State) (n : Nat) (b : Byte) (cs : List Call) (u : Nat) :
    (polled s n b cs u).script = s.script.drop u := rfl
@[simp] theorem polled_draws (s : State) (n : Nat) (b : Byte) (cs : List Call) (u : Nat) :
    (polled s n b cs u).draws = s.draws + u := rfl

theorem polled_polled (s : State) (n m : Nat) (b c : Byte) (cs ds : List Call) (u v : Nat) :
    polled (polled s n b cs u) m c ds v = polled s m c (cs ++ ds) (u + v) := by
  simp [polled, List.append_assoc, Nat.add_assoc]

/-- A call of the status read with its answer. -/
def statusCall (a : Answer) : Call := .sendReceive [0x0F, 0xC0] 1 a

/-- One status read: its answer, and the state after it. -/
theorem getFeature_status (s : State) :
    getFeature statusAddress s =
      (s.nextAnswer 1, polled s s.r.cnt s.r.st [statusCall (s.nextAnswer 1)] 1) := by
  simp [getFeature, txGetf, sendReceive, transport, polled, statusCall, statusAddress, Opcode.getFeatures]

/-- The answers to the next `n` one-byte calls. -/
def nextAnswers : Nat → State → List Answer
  | 0, _     => []
  | n + 1, s => s.nextAnswer 1 :: nextAnswers n (polled s 0 0 [] 1)

@[simp] theorem nextAnswers_length (n : Nat) (s : State) : (nextAnswers n s).length = n := by
  induction n generalizing s with
  | zero => rfl
  | succ n ih => simp [nextAnswers, ih]

/-- The answers depend on the environment's side alone. -/
theorem nextAnswers_congr (n : Nat) {s t : State} (hs : s.script = t.script) (hd : s.draws = t.draws) :
    nextAnswers n s = nextAnswers n t := by
  induction n generalizing s t with
  | zero => rfl
  | succ n ih =>
    rw [nextAnswers, nextAnswers, nextAnswer_congr 1 hs hd]
    exact congrArg _ (ih (by simp [hs]) (by simp [hd]))

/-- How a run of reads with these answers ends, if at most `n` are made: busy bytes, and then a byte with `OIP = 0` or a
failure within the bound; or `n` busy bytes. `st` is the last byte shown. -/
def ReadsEnd (n : Nat) (st0 : Byte) (answers : List Answer) (st : Byte) : PollResult → Prop
  | .ready => ∃ (bs : List Byte) (b : Byte), (∀ x ∈ bs, oip x = true) ∧ bs.length < n ∧ oip b = false ∧ st = b ∧
      answers = bs.map (fun x => .ok [x]) ++ [.ok [b]]
  | .busy => ∃ bs : List Byte, (∀ x ∈ bs, oip x = true) ∧ bs.length = n ∧ st = bs.getLastD st0 ∧
      answers = bs.map fun x => .ok [x]
  | .transportError e => ∃ bs : List Byte, (∀ x ∈ bs, oip x = true) ∧ bs.length < n ∧ st = bs.getLastD st0 ∧
      answers = bs.map (fun x => .ok [x]) ++ [.err e]

/-- A busy byte before a run of reads. -/
theorem ReadsEnd.cons {n : Nat} {st0 st b : Byte} {answers : List Answer} {out : PollResult} (hb : oip b = true)
    (h : ReadsEnd n b answers st out) : ReadsEnd (n + 1) st0 (.ok [b] :: answers) st out := by
  cases out with
  | ready =>
    obtain ⟨bs, c, h1, h2, h3, h4, rfl⟩ := h
    exact ⟨b :: bs, c, by simpa [hb] using h1, by simpa using h2, h3, h4, rfl⟩
  | busy =>
    obtain ⟨bs, h1, h2, h3, rfl⟩ := h
    exact ⟨b :: bs, by simpa [hb] using h1, by simpa using h2, by rw [h3]; cases bs <;> simp [List.getLastD], rfl⟩
  | transportError e =>
    obtain ⟨bs, h1, h2, h3, rfl⟩ := h
    exact ⟨b :: bs, by simpa [hb] using h1, by simpa using h2, by rw [h3]; cases bs <;> simp [List.getLastD], rfl⟩

/-- The calls of the loop: a delay and a read for each answer. -/
def loopCalls (d : Nat) (answers : List Answer) : List Call := answers.flatMap fun a => [.delay d, statusCall a]

/-- The loop with `n` iterations left (R126). -/
theorem pollLoop_spec (d n : Nat) (s : State) :
    ∃ out k st, pollLoop d n s =
        (out, polled s (s.r.cnt + k) st (loopCalls d (nextAnswers k s)) k) ∧
      ReadsEnd n s.r.st (nextAnswers k s) st out := by
  induction n generalizing s with
  | zero => exact ⟨.busy, 0, s.r.st, by simp [pollLoop, polled, nextAnswers, loopCalls], [], by simp, rfl, rfl, rfl⟩
  | succ n ih =>
    have hg : getFeature statusAddress (delay d s.countAttempt) = (s.nextAnswer 1,
        polled s (s.r.cnt + 1) s.r.st [.delay d, statusCall (s.nextAnswer 1)] 1) := by
      rw [getFeature_status]; simp [polled, delay, State.withRegs]; exact ⟨rfl, rfl⟩
    rw [pollLoop, hg]
    obtain ⟨b, hb⟩ | ⟨e, he⟩ := nextAnswer_one s
    · cases ho : oip b with
      | false =>
        refine ⟨.ready, 1, b, ?_, [], b, by simp, by simp, ho, rfl, by simp [nextAnswers, hb]⟩
        simp [hb, byteAt, ho, nextAnswers, loopCalls, polled, State.withRegs]
      | true =>
        obtain ⟨out, k, st, h1, h2⟩ := ih (polled s (s.r.cnt + 1) b [.delay d, statusCall (.ok [b])] 1)
        have hn : nextAnswers k (polled s (s.r.cnt + 1) b [.delay d, statusCall (.ok [b])] 1)
            = nextAnswers k (polled s 0 0 [] 1) := nextAnswers_congr k rfl rfl
        refine ⟨out, k + 1, st, ?_, ?_⟩
        · simp only [hb, byteAt, List.getD_cons_zero, ho, if_true, nextAnswers, ← hn]
          refine Eq.trans ?_ (h1.trans ?_)
          · rfl
          · rw [polled_polled]
            simp [loopCalls, Nat.add_assoc, Nat.add_comm 1 k]
        · rw [nextAnswers, hb, ← hn]
          exact ReadsEnd.cons ho h2
    · refine ⟨.transportError e, 1, s.r.st, ?_, [], by simp, by simp, rfl, by simp [nextAnswers, he]⟩
      simp [he, nextAnswers, loopCalls]

/-- The calls of a poll: a read with no delay before it, then the loop's. -/
def waitCalls (d : Nat) : List Answer → List Call
  | []      => []
  | a :: as => statusCall a :: loopCalls d as

/-- The poll (R126). -/
theorem waitUntilReady_spec (p : PollCfg) (s : State) :
    ∃ out k st, waitUntilReady p s =
        (out, polled s k st (waitCalls p.interPollDelay (nextAnswers (k + 1) s)) (k + 1)) ∧
      ReadsEnd (p.maxAttempts + 1) s.r.st (nextAnswers (k + 1) s) st out := by
  have hg : getFeature statusAddress s.clearCnt = (s.nextAnswer 1,
      polled s 0 s.r.st [statusCall (s.nextAnswer 1)] 1) := by
    rw [getFeature_status]; simp [polled, State.withRegs]; exact ⟨rfl, rfl⟩
  rw [waitUntilReady, hg]
  obtain ⟨b, hb⟩ | ⟨e, he⟩ := nextAnswer_one s
  · cases ho : oip b with
    | false =>
      refine ⟨.ready, 0, b, ?_, [], b, by simp, by simp, ho, rfl, by simp [nextAnswers, hb]⟩
      simp [hb, byteAt, ho, nextAnswers, waitCalls, loopCalls, polled, State.withRegs]
    | true =>
      obtain ⟨out, k, st, h1, h2⟩ :=
        pollLoop_spec p.interPollDelay p.maxAttempts (polled s 0 b [statusCall (.ok [b])] 1)
      have hn : nextAnswers k (polled s 0 b [statusCall (.ok [b])] 1)
          = nextAnswers k (polled s 0 0 [] 1) := nextAnswers_congr k rfl rfl
      refine ⟨out, k, st, ?_, ?_⟩
      · simp only [hb, byteAt, List.getD_cons_zero, ho, if_true, nextAnswers, ← hn]
        refine Eq.trans ?_ (h1.trans ?_)
        · rfl
        · rw [polled_polled]
          simp [waitCalls, Nat.add_comm 1 k]
      · rw [nextAnswers, hb, ← hn]
        exact ReadsEnd.cons ho h2
  · refine ⟨.transportError e, 0, s.r.st, ?_, [], by simp, by simp, rfl, by simp [nextAnswers, he]⟩
    simp [he, nextAnswers, waitCalls, loopCalls]

end Sys2Proof.Machine.Laws
end

