-- ==== Sys2Proof/Laws/Engine.lean ====
section
/-! SUPPORT. What the operations' shared parts can do, said once: accepting a request, one transport call, the address
bytes of a translated address, the failure of a `PAGE_READ`, and the write-enable bracket. -/

namespace Sys2Proof.Machine.Laws

open Sys2Proof

/-! ### Accepting a request -/

theorem request_idle {s : State} (op : HostOp) (operands : Regs → Regs) (run : State → State) (h : s.seq = .idle) :
    request op operands run s = run (accept op (s.withRegs operands)) := by
  simp [request, h]

theorem request_busy {s : State} (op : HostOp) (operands : Regs → Regs) (run : State → State) (h : s.seq ≠ .idle) :
    request op operands run s = s := by
  cases hs : s.seq with
  | idle => exact absurd hs h
  | run st => simp [request, hs]

/-! ### One transport call: its answer, and the state after it -/

theorem send_cases (tx : List Byte) (s : State) :
    (∃ e, send tx s = (.err e, polled s s.r.cnt s.r.st [.send tx (.err e)] 1)) ∨
      send tx s = (.ok [], polled s s.r.cnt s.r.st [.send tx (.ok [])] 1) := by
  obtain h | ⟨e, h⟩ := nextAnswer_zero s
  · exact .inr (by simp [send, transport, h, polled])
  · exact .inl ⟨e, by simp [send, transport, h, polled]⟩

theorem sendReceive_cases (tx : List Byte) (n : Nat) (s : State) :
    (∃ e, sendReceive tx n s = (.err e, polled s s.r.cnt s.r.st [.sendReceive tx n (.err e)] 1)) ∨
      ∃ rx, rx.length = n ∧
        sendReceive tx n s = (.ok rx, polled s s.r.cnt s.r.st [.sendReceive tx n (.ok rx)] 1) := by
  obtain ⟨e, h⟩ | ⟨rx, h, hl⟩ := nextAnswer_cases s n
  · exact .inl ⟨e, by simp [sendReceive, transport, h, polled]⟩
  · exact .inr ⟨rx, hl, by simp [sendReceive, transport, h, polled]⟩

theorem sendCommandThenData_cases (cmd data : List Byte) (s : State) :
    (∃ e, sendCommandThenData cmd data s =
        (.err e, polled s s.r.cnt s.r.st [.sendCommandThenData cmd data (.err e)] 1)) ∨
      sendCommandThenData cmd data s =
        (.ok [], polled s s.r.cnt s.r.st [.sendCommandThenData cmd data (.ok [])] 1) := by
  obtain h | ⟨e, h⟩ := nextAnswer_zero s
  · exact .inr (by simp [sendCommandThenData, transport, h, polled])
  · exact .inl ⟨e, by simp [sendCommandThenData, transport, h, polled]⟩

/-- The guard of `setFeature` (R144). -/
theorem setFeature_status (v : Byte) (s : State) : setFeature statusAddress v s = (.regAddressInvalid, s) :=
  if_pos rfl

theorem setFeature_other {ra : Byte} (v : Byte) (s : State) (h : ra ≠ statusAddress) :
    (∃ e, setFeature ra v s =
        (.transportError e, polled s s.r.cnt s.r.st [.send [0x1F, ra, v] (.err e)] 1)) ∨
      setFeature ra v s = (.done, polled s s.r.cnt s.r.st [.send [0x1F, ra, v] (.ok [])] 1) := by
  have ht : txSetf ra v s = send [0x1F, ra, v] s := rfl
  obtain ⟨e, hs⟩ | hs := send_cases [0x1F, ra, v] s
  · exact .inl ⟨e, by rw [setFeature, if_neg h, ht, hs]⟩
  · exact .inr (by rw [setFeature, if_neg h, ht, hs])

/-! ### The address bytes of a translated address -/

/-- Bit 12 of a column word is the plane under `cfg.PLANE_IN_COL`, and the rest is the column. -/
theorem colWord_ofNat (c : Cfg) (a : Nat) {p : Phys} (hc : p.colAddr = BitVec.ofNat 12 (a % 2048))
    (hp : p.plane = BitVec.ofNat 1 (a / 131072 % 2)) :
    colWord c p = BitVec.ofNat 16 (a % 2048 + if c.planeInCol then 4096 * (a / 131072 % 2) else 0) := by
  have hlt : a % 2048 < 2 ^ 12 := by omega
  have hplane : a / 131072 % 2 = 0 ∨ a / 131072 % 2 = 1 := by omega
  unfold colWord
  rw [hc, hp]
  generalize a % 2048 = n at *
  cases c.planeInCol
  · apply BitVec.eq_of_toNat_eq
    simp
    omega
  · obtain h | h := hplane
    · rw [h]
      apply BitVec.eq_of_toNat_eq
      simp
      omega
    · rw [h]
      apply BitVec.eq_of_toNat_eq
      have hor := Nat.two_pow_add_eq_or_of_lt hlt 1
      simp only [if_true, BitVec.toNat_or, BitVec.toNat_setWidth, BitVec.toNat_ofNat, BitVec.toNat_shiftLeft]
      rw [Nat.mod_eq_of_lt (a := n) (by omega), Nat.mod_eq_of_lt (a := n) (by omega)]
      have h4096 : (1 % 2 ^ 1 % 2 ^ 16) <<< 12 % 2 ^ 16 = 2 ^ 12 * 1 := by decide
      rw [h4096, Nat.or_comm, ← hor]
      omega

/-- The row address bytes of the translated address (R89, R116). -/
theorem rowBytes_translate {addr : LogicalAddress} {p : Phys} (h : translate addr = some p) :
    rowBytes p.rowAddr = [BitVec.ofNat 8 (addr.toNat / 2048 / 65536), BitVec.ofNat 8 (addr.toNat / 2048 / 256),
      BitVec.ofNat 8 (addr.toNat / 2048)] := by
  unfold translate at h
  split at h
  · cases h
    rw [rowBytes_ofNat, rowOf_eq]
  · cases h

/-- The column word of the translated address (R90). -/
theorem colWord_translate {addr : LogicalAddress} {p : Phys} (c : Cfg) (h : translate addr = some p) :
    colWord c p = BitVec.ofNat 16
      (addr.toNat % 2048 + if c.planeInCol then 4096 * (addr.toNat / 131072 % 2) else 0) := by
  unfold translate at h
  split at h
  · cases h
    exact colWord_ofNat c addr.toNat (by rw [colOf_eq]) (by rw [planeOf_eq])
  · cases h

/-! ### The status sample of `GET_FEATURE` -/

theorem regAddr_eq_status (reg : BitVec 2) : regAddr reg = statusAddress ↔ reg = 2 := by
  revert reg; decide

@[simp] theorem sampleStatus_status (s : State) (b : Byte) : s.sampleStatus statusAddress b = s.sample b := rfl

theorem sampleStatus_other {ra : Byte} (s : State) (b : Byte) (h : ra ≠ statusAddress) : s.sampleStatus ra b = s :=
  if_neg h

/-- The sample of a selector: `r.ST` is the byte if the selector names the status register, and as it was if not. -/
theorem sampleStatus_reg (s : State) (reg : BitVec 2) (b : Byte) :
    s.sampleStatus (regAddr reg) b = { s with r := { s.r with st := if reg = 2 then b else s.r.st } } := by
  by_cases h : reg = 2
  · subst h; rfl
  · rw [sampleStatus_other s b fun e => h ((regAddr_eq_status reg).1 e), if_neg h]

/-! ### The failure of a `PAGE_READ` -/

theorem spoilBuffer_eq (s : State) :
    spoilBuffer s = { s with buf := (spoilBuffer s).buf, draws := (spoilBuffer s).draws } := rfl

/-- No byte outside `Buf[0..len)` changes. -/
theorem read_spoilBuffer (s : State) {j : Nat} (h : s.r.len.toNat ≤ j) :
    Buffer.read (spoilBuffer s).buf j = Buffer.read s.buf j := by
  simp only [spoilBuffer, read_storePrefix, List.length_map, List.length_range]
  rw [if_neg (by omega)]

theorem wf_spoilBuffer {s : State} (h : Buffer.wf s.buf = true) : Buffer.wf (spoilBuffer s).buf = true := by
  exact wf_storePrefix _ h (by simp)

/-- With nothing owed the failure is the response, and the buffer's free bytes. -/
theorem readFailure_eq {s : State} (k : ResultKind) (h : s.r.wdOwed = false) :
    readFailure k s = { respond k s with buf := (spoilBuffer s).buf, draws := (spoilBuffer s).draws } := by
  rw [readFailure, spoilBuffer_eq, raise_not_owed _ (by exact h)]
  rfl

/-! ### The write-enable bracket -/

@[simp] theorem noteAnswer_ok (rx : List Byte) (s : State) : noteAnswer (.ok rx, s) = s := rfl
@[simp] theorem noteAnswer_err (e : TransportError) (s : State) : noteAnswer (.err e, s) = s.setOk false := rfl

/-- Once a step has failed, a later one is skipped (R183). -/
theorem whenOk_failed {s : State} (step : State → State) (h : s.r.ok = false) : whenOk step s = s := by
  simp [whenOk, h]
theorem whenOk_good {s : State} (step : State → State) (h : s.r.ok = true) : whenOk step s = step s := by
  simp [whenOk, h]

/-- After write-enable one write-disable is owed, and `r.OK` still stands only if its transaction succeeded. -/
theorem noteAnswer_writeEnable (s : State) :
    ∃ t, noteAnswer (writeEnable s) = t ∧ t.buf = s.buf ∧ t.cfg = s.cfg ∧ t.inputs = s.inputs ∧
      t.trace = s.trace ++ [.send [0x06] (s.nextAnswer 0)] ∧ t.r = { s.r with wdOwed := true, ok := t.r.ok } ∧
      (t.r.ok = true → s.r.ok = true) := by
  refine ⟨_, rfl, ?_⟩
  rw [writeEnable_eq]
  cases h : s.nextAnswer 0 <;> simp [h]

/-- After write-disable none is owed. -/
theorem noteAnswer_writeDisable (s : State) :
    ∃ t, noteAnswer (writeDisable s) = t ∧ t.buf = s.buf ∧ t.cfg = s.cfg ∧ t.inputs = s.inputs ∧
      t.trace = s.trace ++ [.send [0x04] (s.nextAnswer 0)] ∧ t.r = { s.r with wdOwed := false, ok := t.r.ok } ∧
      (t.r.ok = true → s.r.ok = true) := by
  refine ⟨_, rfl, ?_⟩
  rw [writeDisable_eq]
  cases h : s.nextAnswer 0 <;> simp [h]

/-- The end of the bracket with nothing owed: the kind is settled, or the fresh sample settles it. -/
theorem closeBracket_cases {s : State} (failBit : Byte → Bool) (k : ResultKind) (h : s.r.wdOwed = false) :
    (s.r.ok = false ∧ closeBracket failBit k s = respond k s) ∨
      (∃ e, s.r.ok = true ∧
        closeBracket failBit k s = respond k (polled s s.r.cnt s.r.st [statusCall (.err e)] 1)) ∨
      ∃ b, s.r.ok = true ∧ closeBracket failBit k s =
        respond (if failBit b then k else .success) (polled s s.r.cnt b [statusCall (.ok [b])] 1) := by
  unfold closeBracket
  cases ho : s.r.ok with
  | false => exact .inl ⟨rfl, raise_not_owed k h⟩
  | true =>
    rw [getFeature_status]
    obtain ⟨b, hb⟩ | ⟨e, he⟩ := nextAnswer_one s
    · refine .inr (.inr ⟨b, rfl, ?_⟩)
      rw [hb]
      simp only [byteAt, List.getD_cons_zero]
      cases failBit b
      · rfl
      · exact raise_not_owed k h
    · refine .inr (.inl ⟨e, rfl, ?_⟩)
      rw [he]
      exact raise_not_owed k h

end Sys2Proof.Machine.Laws
end

