-- ==== Sys2Proof/Laws/PerInstr.lean ====
section
/-! SUPPORT. Statements about every instruction, one lemma per constructor. -/

namespace Sys2Proof.Laws

open Sys2Proof

/-- The table's `width_bits`, `mask` and `match` of an instruction's row (spec/opcode_table.json). -/
def TableBits.row : Instr → Nat × Nat × Nat
  | .init              => (96, 0xF, 0x0)
  | .reset             => (96, 0xF, 0x1)
  | .readId            => (96, 0xF, 0x2)
  | .pageRead _ _      => (96, 0xF, 0x3)
  | .pageProgram _ _   => (96, 0xF, 0x4)
  | .blockErase _      => (96, 0xF, 0x5)
  | .getFeature _      => (96, 0xF, 0x6)
  | .setFeature _ _    => (96, 0xF, 0x7)
  | .waitReady _ _     => (96, 0xF, 0x8)
  | .checkBusy         => (96, 0xF, 0x9)
  | .translate _       => (0, 0, 0)
  | .programLoad _ _   => (8, 0xFF, 0x02)
  | .readCache _ _     => (8, 0xFF, 0x03)
  | .writeDisable      => (8, 0xFF, 0x04)
  | .writeEnable       => (8, 0xFF, 0x06)
  | .getFeatures _     => (8, 0xFF, 0x0F)
  | .programExecute _  => (8, 0xFF, 0x10)
  | .pageReadCmd _     => (8, 0xFF, 0x13)
  | .setFeatures _ _   => (8, 0xFF, 0x1F)
  | .readIdCmd         => (8, 0xFF, 0x9F)
  | .blockEraseCmd _   => (8, 0xFF, 0xD8)
  | .resetCmd          => (8, 0xFF, 0xFF)

/-- The bits the table numbers: a request word, or the first transmitted byte, or none; with their number. -/
def TableBits.bitsOf : Item → Nat × Nat
  | .host w            => (96, w.toNat)
  | .wire [] _         => (8, 0)
  | .wire (opc :: _) _ => (8, opc.toNat)
  | .address _         => (0, 0)

/-- The encoding has the width of its row, and the row's fixed bits, under every configuration. -/
def TableBits.Statement (i : Instr) : Prop :=
  ∀ c : Cfg, (TableBits.bitsOf (encode c i)).1 = (TableBits.row i).1 ∧
    (TableBits.bitsOf (encode c i)).2 &&& (TableBits.row i).2.1 = (TableBits.row i).2.2

/-- The low four bits of a packed request word are its operation number. -/
theorem packRequest_low (op : BitVec 4) (reg : BitVec 2) (wval : Byte) (addr : LogicalAddress)
    (len att dly : BitVec 16) : (packRequest op reg wval addr len att dly).toNat &&& 0xF = op.toNat := by
  have h := congrArg BitVec.toNat (packRequest_op op reg wval addr len att dly)
  rw [BitVec.extractLsb'_toNat, Nat.shiftRight_zero] at h
  rw [← h, show (0xF : Nat) = 2 ^ 4 - 1 from rfl, Nat.and_two_pow_sub_one_eq_mod]

/-- The bits of a byte are its first eight. -/
theorem byte_low (b : Byte) : b.toNat &&& 0xFF = b.toNat := by
  rw [show (0xFF : Nat) = 2 ^ 8 - 1 from rfl, Nat.and_two_pow_sub_one_eq_mod, Nat.mod_eq_of_lt b.isLt]

theorem TableBits.init : TableBits.Statement .init := fun _ => ⟨rfl, packRequest_low ..⟩
theorem TableBits.reset : TableBits.Statement .reset := fun _ => ⟨rfl, packRequest_low ..⟩
theorem TableBits.readId : TableBits.Statement .readId := fun _ => ⟨rfl, packRequest_low ..⟩
theorem TableBits.pageRead (addr : LogicalAddress) (len : BitVec 16) : TableBits.Statement (.pageRead addr len) :=
  fun _ => ⟨rfl, packRequest_low ..⟩
theorem TableBits.pageProgram (addr : LogicalAddress) (len : BitVec 16) :
    TableBits.Statement (.pageProgram addr len) := fun _ => ⟨rfl, packRequest_low ..⟩
theorem TableBits.blockErase (addr : LogicalAddress) : TableBits.Statement (.blockErase addr) :=
  fun _ => ⟨rfl, packRequest_low ..⟩
theorem TableBits.getFeature (reg : BitVec 2) : TableBits.Statement (.getFeature reg) :=
  fun _ => ⟨rfl, packRequest_low ..⟩
theorem TableBits.setFeature (reg : BitVec 2) (wval : Byte) : TableBits.Statement (.setFeature reg wval) :=
  fun _ => ⟨rfl, packRequest_low ..⟩
theorem TableBits.waitReady (att dly : BitVec 16) : TableBits.Statement (.waitReady att dly) :=
  fun _ => ⟨rfl, packRequest_low ..⟩
theorem TableBits.checkBusy : TableBits.Statement .checkBusy := fun _ => ⟨rfl, packRequest_low ..⟩
theorem TableBits.translate (addr : LogicalAddress) : TableBits.Statement (.translate addr) :=
  fun _ => ⟨rfl, Nat.and_zero 0⟩
theorem TableBits.programLoad (colWord : BitVec 16) (data : List Byte) :
    TableBits.Statement (.programLoad colWord data) := fun _ => ⟨rfl, byte_low _⟩
theorem TableBits.readCache (colWord : BitVec 16) (len : Nat) : TableBits.Statement (.readCache colWord len) :=
  fun _ => ⟨rfl, byte_low _⟩
theorem TableBits.writeDisable : TableBits.Statement .writeDisable := fun _ => ⟨rfl, byte_low _⟩
theorem TableBits.writeEnable : TableBits.Statement .writeEnable := fun _ => ⟨rfl, byte_low _⟩
theorem TableBits.getFeatures (ra : Byte) : TableBits.Statement (.getFeatures ra) := fun _ => ⟨rfl, byte_low _⟩
theorem TableBits.programExecute (row : BitVec 24) : TableBits.Statement (.programExecute row) := fun _ => ⟨rfl, byte_low _⟩
theorem TableBits.pageReadCmd (row : BitVec 24) : TableBits.Statement (.pageReadCmd row) := fun _ => ⟨rfl, byte_low _⟩
theorem TableBits.setFeatures (ra v : Byte) : TableBits.Statement (.setFeatures ra v) := fun _ => ⟨rfl, byte_low _⟩
theorem TableBits.readIdCmd : TableBits.Statement .readIdCmd := fun _ => ⟨rfl, byte_low _⟩
theorem TableBits.blockEraseCmd (row : BitVec 24) : TableBits.Statement (.blockEraseCmd row) := fun _ => ⟨rfl, byte_low _⟩
theorem TableBits.resetCmd : TableBits.Statement .resetCmd := fun _ => ⟨rfl, byte_low _⟩

end Sys2Proof.Laws
end

