-- ==== Sys2Proof/Tests/Slice0.lean ====
section
/-! SUPPORT. The model's own tests: the checks of WellFormed, words written out from the spec's encodings, one step on small
states with the vectors of spec/95_test_vectors.md, and for each statement with hypotheses a witness that meets them.

Every expected value comes from spec/95_test_vectors.md or from a rule's formula, by hand. -/

namespace Sys2Proof.Tests

open Sys2Proof Sys2Proof.Machine Sys2Proof.Claims

/-! ### Helpers -/

/-- The configuration at the head of spec/95_test_vectors.md. -/
def cfg : Cfg where
  tPorMs     := 2
  pollReset  := ⟨3, 1⟩
  pollRead   := ⟨3, 1⟩
  pollPgm    := ⟨4, 1⟩
  pollErs    := ⟨4, 2⟩
  planeInCol := false
  dummy      := 0x00

/-- Some error of the transport. -/
def error : TransportError := ⟨⟨0, Nat.succ_pos _⟩⟩

/-- `IDLE`, `Buf[0..4) = DE AD BE EF`, these answers scheduled. -/
def start (script : List Answer) : State :=
  { State.reset with cfg := cfg, script := script, buf := [(0, 0xDE), (1, 0xAD), (2, 0xBE), (3, 0xEF)] }

/-- The state after `i`, or the state before it if it does not answer next. -/
def after (i : Instr) (s : State) : State :=
  match exec i s with
  | .next t    => t
  | .fault _   => s
  | .refused _ => s

/-- `i` answers next, with this trace and this result. -/
def ends (i : Instr) (script : List Answer) (trace : List Call) (k : ResultKind) : Bool :=
  match exec i (start script) with
  | .next t    => decide (t.trace = trace ∧ t.r.res = k ∧ t.seq = .idle ∧ t.r.wdOwed = false)
  | .fault _   => false
  | .refused _ => false

/-- `i` answers next and appends this call to an empty trace, the controller's registers as given. -/
def sends (i : Instr) (script : List Answer) (call : Call) (r : Regs) : Bool :=
  match exec i (start script) with
  | .next t    => decide (t.trace = [call] ∧ t.r = r ∧ t.seq = .idle)
  | .fault _   => false
  | .refused _ => false

/-- `sendReceive [0F C0] 1 -> Ok [b]`. -/
def read (b : Byte) : Call := .sendReceive [0x0F, 0xC0] 1 (.ok [b])

/-! ### WellFormed: an ill-formed term for each check -/

theorem test_wf_register_address : Instr.wf cfg (.getFeatures 0xA1) = false := by decide
theorem test_wf_register_address_set : Instr.wf cfg (.setFeatures 0xE0 0) = false := by decide
theorem test_wf_status_not_written : Instr.wf cfg (.setFeatures 0xC0 0) = false := by decide
theorem test_wf_row_17_bits : Instr.wf cfg (.programExecute 0x020000) = false ∧
    Instr.wf cfg (.pageReadCmd 0x020000) = false ∧ Instr.wf cfg (.blockEraseCmd 0x020000) = false := by decide
theorem test_wf_column_high_bits : Instr.wf cfg (.readCache 0x2000 0) = false := by decide
theorem test_wf_column_plane_bit : Instr.wf cfg (.readCache 0x1000 0) = false ∧
    Instr.wf { cfg with planeInCol := true } (.readCache 0x1000 0) = true := by decide
theorem test_wf_column_in_page : Instr.wf cfg (.readCache 0x0880 0) = false ∧
    Instr.wf cfg (.readCache 0x087F 0) = true := by decide
theorem test_wf_read_length : Instr.wf cfg (.readCache 0 2177) = false ∧ Instr.wf cfg (.readCache 0 2176) = true := by
  decide
theorem test_wf_load_column : Instr.wf cfg (.programLoad 0x2000 []) = false := by decide
theorem test_wf_load_length : Instr.wf cfg (.programLoad 0 (List.replicate 2049 0)) = false := by
  rw [Instr.wf, List.length_replicate]; rfl

/-! ### Decoding: words written out from R81 and R86 -/

/-- V-E11 to V-E24. -/
theorem test_decode_request_words :
    decode (.host 0x000000000000000000000000) = .ok .init ∧
    decode (.host 0x000000000000000000000001) = .ok .reset ∧
    decode (.host 0x000000000000000000000002) = .ok .readId ∧
    decode (.host 0x000000000881000200040003) = .ok (.pageRead 0x00020004 2177) ∧
    decode (.host 0x000000000004000200040004) = .ok (.pageProgram 0x00020004 4) ∧
    decode (.host 0x000000000000000200000005) = .ok (.blockErase 0x00020000) ∧
    decode (.host 0x000000000000000000000016) = .ok (.getFeature 1) ∧
    decode (.host 0x000000000000000000001037) = .ok (.setFeature 3 0x40) ∧
    decode (.host 0x000100030000000000000008) = .ok (.waitReady 3 1) ∧
    decode (.host 0x000000000000000000000009) = .ok .checkBusy := by
  refine ⟨?_, ?_, ?_, ?_, ?_, ?_, ?_, ?_, ?_, ?_⟩ <;> rfl

/-- R83: the reserved bits and the fields an operation does not use are ignored. -/
theorem test_decode_unused_fields_ignored : decode (.host 0xFFFFFFFFFFFFFFFFFFFFFFF9) = .ok .checkBusy := rfl

/-- V-E25. -/
theorem test_decode_reserved_operation : decode (.host 0xFFFFFFFFFFFFFFFFFFFFFFFA) = .error (.reservedOperation 0xA) :=
  rfl

/-- V-E2 to V-E10, and one word of each other command. -/
theorem test_decode_wire :
    decode (.wire [0x02, 0x07, 0xFF, 0x5A] 0) = .ok (.programLoad 0x07FF [0x5A]) ∧
    decode (.wire [0x03, 0x05, 0x67, 0x00] 16) = .ok (.readCache 0x0567 16) ∧
    decode (.wire [0x04] 0) = .ok .writeDisable ∧
    decode (.wire [0x06] 0) = .ok .writeEnable ∧
    decode (.wire [0x0F, 0xC0] 1) = .ok (.getFeatures 0xC0) ∧
    decode (.wire [0x10, 0x00, 0x24, 0x68] 0) = .ok (.programExecute 0x002468) ∧
    decode (.wire [0x13, 0x00, 0x00, 0x40] 0) = .ok (.pageReadCmd 0x000040) ∧
    decode (.wire [0x1F, 0xB0, 0x10] 0) = .ok (.setFeatures 0xB0 0x10) ∧
    decode (.wire [0x9F, 0x00] 2) = .ok .readIdCmd ∧
    decode (.wire [0xD8, 0x01, 0xFF, 0xFF] 0) = .ok (.blockEraseCmd 0x01FFFF) ∧
    decode (.wire [0xFF] 0) = .ok .resetCmd := by
  refine ⟨?_, ?_, ?_, ?_, ?_, ?_, ?_, ?_, ?_, ?_, ?_⟩ <;> rfl

theorem test_decode_wire_rejects :
    decode (.wire [] 0) = .error .emptyTransaction ∧ decode (.wire [0x05] 0) = .error (.notAnOpcode 0x05) ∧
    decode (.wire [0x06, 0x00] 0) = .error (.wrongLength 0x06) ∧
    decode (.wire [0x0F, 0xC0] 2) = .error (.wrongLength 0x0F) ∧
    decode (.wire [0x10, 0x00, 0x24] 0) = .error (.wrongLength 0x10) := by
  refine ⟨?_, ?_, ?_, ?_, ?_⟩ <;> rfl

/-- Rows of spec/opcode_table.json. -/
theorem test_table_words : decodeTableWord 96 0x3 = some (.pageRead 0 0) ∧ decodeTableWord 96 0xF = none ∧
    decodeTableWord 0 0 = some (.translate 0) ∧ decodeTableWord 8 0xD8 = some (.blockEraseCmd 0) ∧
    decodeTableWord 8 0x02 = some (.programLoad 0 []) ∧ decodeTableWord 8 0x05 = none := by
  refine ⟨?_, ?_, ?_, ?_, ?_, ?_⟩ <;> rfl

/-! ### One step: the vectors of spec/95_test_vectors.md -/

/-- V-T8. -/
theorem test_translate : (after (.translate 0x01234567) (start [])).translatorOut =
    some { block := 145, plane := 1, page := 40, col := 1383, rowAddr := 9320, colAddr := 1383 } := by decide
/-- V-T11. -/
theorem test_translate_out_of_range : (after (.translate 0x10000000) (start [])).translatorOut = none := by decide

/-- V-T8, the last column: the plane bit of the column word. -/
theorem test_column_word_plane : (Machine.translate 0x01234567).map (colWord { cfg with planeInCol := true }) =
    some 0x1567 := by decide

/-- V-F1. -/
theorem test_getFeature : ends (.getFeature 2) [.ok [0x02]] [read 0x02] .success = true ∧
    (after (.getFeature 2) (start [.ok [0x02]])).r.rbyte = 0x02 := by decide
/-- R25: a `GET_FEATURE` of the status register is a status sample, and V-F2, of another register, is none. -/
theorem test_getFeature_sample : (after (.getFeature 2) (start [.ok [0x02]])).r.st = 0x02 ∧
    (after (.getFeature 1) (start [.ok [0x10]])).r.st = (start []).r.st := by decide
/-- V-F3. -/
theorem test_getFeature_error :
    ends (.getFeature 0) [.err error] [.sendReceive [0x0F, 0xA0] 1 (.err error)] .transportError = true ∧
    ∀ e, (after (.getFeature 0) (start [.err e])).r.terr = e := by
  refine ⟨by decide, fun _ => rfl⟩
/-- V-F4. -/
theorem test_setFeature_status : ends (.setFeature 2 0xFF) [] [] .regAddressInvalid = true := by decide
/-- V-F6. -/
theorem test_setFeature : ends (.setFeature 3 0x40) [.ok []] [.send [0x1F, 0xD0, 0x40] (.ok [])] .success = true := by
  decide
/-- V-F8. -/
theorem test_checkBusy : ends .checkBusy [.ok [0x03]] [read 0x03] .success = true ∧
    (after .checkBusy (start [.ok [0x03]])).r.rbusy = true := by decide
/-- V-F9. -/
theorem test_checkBusy_ready : (after .checkBusy (start [.ok [0x0A]])).r.rbusy = false ∧
    (after .checkBusy (start [.ok [0x0A]])).r.st = 0x0A := by decide

/-- V-P12. -/
theorem test_waitReady : ends (.waitReady 3 1) [.ok [0x01], .ok [0x00]] [read 0x01, .delay 1, read 0x00] .success = true ∧
    (after (.waitReady 3 1) (start [.ok [0x01], .ok [0x00]])).r.cnt = 1 := by decide
/-- V-P13. -/
theorem test_waitReady_busy :
    ends (.waitReady 1 1) [.ok [0x01], .ok [0x01]] [read 0x01, .delay 1, read 0x01] .busy = true := by decide

/-- V-C6. -/
theorem test_reset_busy : ends .reset [.ok [], .ok [1], .ok [1], .ok [1], .ok [1]]
    [.send [0xFF] (.ok []), .delay 2, read 1, .delay 1, read 1, .delay 1, read 1, .delay 1, read 1] .busy = true := by
  decide
/-- V-C6a. -/
theorem test_reset_failed : ends .reset [.ok [], .ok [1], .err error]
    [.send [0xFF] (.ok []), .delay 2, read 1, .delay 1, .sendReceive [0x0F, 0xC0] 1 (.err error)] .resetFailed = true := by
  decide
/-- V-C6c. -/
theorem test_readId : ends .readId [.ok [0x2C, 0x25]] [.sendReceive [0x9F, 0x00] 2 (.ok [0x2C, 0x25])] .success = true ∧
    (after .readId (start [.ok [0x2C, 0x25]])).r.mfr = 0x2C ∧ (after .readId (start [.ok [0x2C, 0x25]])).r.dev = 0x25 := by
  decide
/-- V-C6b. -/
theorem test_readId_error : ends .readId [.err error] [.sendReceive [0x9F, 0x00] 2 (.err error)] .transportError = true := by
  decide
/-- V-C1. -/
theorem test_init : ends .init [.ok [], .ok [1], .ok [0], .ok [0x2C, 0x24]]
    [.delay 2, .send [0xFF] (.ok []), .delay 2, read 1, .delay 1, read 0, .sendReceive [0x9F, 0x00] 2 (.ok [0x2C, 0x24])]
    .success = true := by decide
/-- V-C5a. -/
theorem test_init_wrong_id : ends .init [.ok [], .ok [0], .ok [0x2C, 0x25]]
    [.delay 2, .send [0xFF] (.ok []), .delay 2, read 0, .sendReceive [0x9F, 0x00] 2 (.ok [0x2C, 0x25])]
    .wrongId = true := by decide

/-- V-C20. -/
theorem test_pageRead : ends (.pageRead 0x00020004 4) [.ok [], .ok [0], .ok [1, 2, 0, 4]]
    [.send [0x13, 0x00, 0x00, 0x40] (.ok []), read 0, .sendReceive [0x03, 0x00, 0x04, 0x00] 4 (.ok [1, 2, 0, 4])]
    .success = true ∧
    (after (.pageRead 0x00020004 4) (start [.ok [], .ok [0], .ok [1, 2, 0, 4]])).buf = [(0, 1), (1, 2), (3, 4)] := by
  decide
/-- V-C25: the length guard comes first. -/
theorem test_pageRead_guards : ends (.pageRead 0x10000000 2177) [] [] .readFailed = true := by decide

/-- V-C13: `PF` in the final sample. -/
theorem test_pageProgram_fail_bit :
    ends (.pageProgram 0x00020004 4) [.ok [], .ok [], .ok [], .ok [0], .ok [], .ok [0x08]]
      [.send [0x06] (.ok []), .sendCommandThenData [0x02, 0x00, 0x04] [0xDE, 0xAD, 0xBE, 0xEF] (.ok []),
       .send [0x10, 0x00, 0x00, 0x40] (.ok []), read 0, .send [0x04] (.ok []), read 0x08] .programFailed = true := by
  decide
/-- V-C9: the execute fails, the write-disable is still sent. -/
theorem test_pageProgram_cleanup :
    ends (.pageProgram 0x00020004 4) [.ok [], .ok [], .err error, .ok []]
      [.send [0x06] (.ok []), .sendCommandThenData [0x02, 0x00, 0x04] [0xDE, 0xAD, 0xBE, 0xEF] (.ok []),
       .send [0x10, 0x00, 0x00, 0x40] (.err error), .send [0x04] (.ok [])] .programFailed = true := by decide

/-- V-C18: the page bit is in the address bytes, and `EF` fails the erase. -/
theorem test_blockErase_fail_bit :
    ends (.blockErase 0x00020800) [.ok [], .ok [], .ok [0], .ok [], .ok [0x04]]
      [.send [0x06] (.ok []), .send [0xD8, 0x00, 0x00, 0x41] (.ok []), read 0, .send [0x04] (.ok []), read 0x04]
      .eraseFailed = true := by decide
/-- V-C19a: `PF` is not tested by an erase. -/
theorem test_blockErase_ignores_pf :
    ends (.blockErase 0x00020000) [.ok [], .ok [], .ok [1], .ok [0], .ok [], .ok [0x08]]
      [.send [0x06] (.ok []), .send [0xD8, 0x00, 0x00, 0x40] (.ok []), read 1, .delay 2, read 0, .send [0x04] (.ok []),
       read 0x08] .success = true := by decide

/-! The wire commands, by their formats (V-E2 to V-E10). -/

theorem test_programLoad : sends (.programLoad 0x07FF [0x5A]) [.ok []]
    (.sendCommandThenData [0x02, 0x07, 0xFF] [0x5A] (.ok [])) Regs.reset = true := by decide
theorem test_readCache : sends (.readCache 0x0567 2) [.ok [8, 9]]
    (.sendReceive [0x03, 0x05, 0x67, 0x00] 2 (.ok [8, 9])) Regs.reset = true := by decide
theorem test_writeDisable : sends .writeDisable [.ok []] (.send [0x04] (.ok [])) Regs.reset = true := by decide
theorem test_writeEnable : sends .writeEnable [.err error] (.send [0x06] (.err error))
    { Regs.reset with wdOwed := true } = true := by decide
theorem test_getFeatures : sends (.getFeatures 0xB0) [.ok [7]] (.sendReceive [0x0F, 0xB0] 1 (.ok [7])) Regs.reset = true := by
  decide
theorem test_programExecute : sends (.programExecute 0x002468) [.ok []] (.send [0x10, 0x00, 0x24, 0x68] (.ok []))
    Regs.reset = true := by decide
theorem test_pageReadCmd : sends (.pageReadCmd 0x01FFFF) [.ok []] (.send [0x13, 0x01, 0xFF, 0xFF] (.ok []))
    Regs.reset = true := by decide
theorem test_setFeatures : sends (.setFeatures 0xB0 0x10) [.ok []] (.send [0x1F, 0xB0, 0x10] (.ok [])) Regs.reset = true := by
  decide
theorem test_readIdCmd : sends .readIdCmd [.ok [0x2C, 0x24]] (.sendReceive [0x9F, 0x00] 2 (.ok [0x2C, 0x24]))
    Regs.reset = true := by decide
theorem test_blockEraseCmd : sends (.blockEraseCmd 0x01FFFF) [.ok []] (.send [0xD8, 0x01, 0xFF, 0xFF] (.ok []))
    Regs.reset = true := by decide
theorem test_resetCmd : sends .resetCmd [.ok []] (.send [0xFF] (.ok [])) Regs.reset = true := by decide

/-! ### The step -/

/-- The presented word of V-E23, and the response it gives (V-F8). -/
theorem test_step_runs_word :
    (match step ((start [.ok [0x03]]).withFetchWord 96 0x9) with
     | .next t    => decide (t.r.rbusy = true ∧ t.r.op = 9 ∧ t.inputs = [] ∧ t.responses.length = 1)
     | .fault _   => false
     | .refused _ => false) = true := by decide

/-- Program 1, request 3, one sequencer step at a time: accepted, then ended by its one transaction. -/
theorem test_step_paced :
    (match step { start [.ok [0x00]] with inputs := [.start 0x6, .quiet] } with
     | .next t    => decide (t.seq = .run .getFeature ∧ (tick t).seq = .idle ∧
         (tick t).trace = [.sendReceive [0x0F, 0xA0] 1 (.ok [0x00])])
     | .fault _   => false
     | .refused _ => false) = true := by decide

/-! ### Witnesses: states and operands that meet the hypotheses of the statements -/

theorem witness_RequestWordFields :
    (0x0 : RequestWord).toNat % 16 = 0 ∧ (0xFFFFFFFFFFFFFFFFFFFFFFF1 : RequestWord).toNat % 16 = 1 ∧
    (0x12 : RequestWord).toNat % 16 = 2 ∧ (0x000000000004000200040003 : RequestWord).toNat % 16 = 3 ∧
    (0x000000000004000200040004 : RequestWord).toNat % 16 = 4 ∧ (0x5 : RequestWord).toNat % 16 = 5 ∧
    (0x26 : RequestWord).toNat % 16 = 6 ∧ (0x1037 : RequestWord).toNat % 16 = 7 ∧
    (0x000100030000000000000008 : RequestWord).toNat % 16 = 8 ∧ (0x9 : RequestWord).toNat % 16 = 9 ∧
    10 ≤ (0xA : RequestWord).toNat % 16 ∧ 10 ≤ (0xFFFFFFFFFFFFFFFFFFFFFFFF : RequestWord).toNat % 16 := by decide

theorem witness_DecodeEncodeAgree : decode (.wire [0x03, 0x05, 0x67, 0x33] 0) = .ok (.readCache 0x0567 0) := rfl

theorem witness_TranslateFields : (0x0FFFFFFF : LogicalAddress).toNat < 2 ^ 28 ∧
    2 ^ 28 ≤ (0x10000000 : LogicalAddress).toNat := by decide

theorem witness_TranslationBijective : (2047 : Nat) < 2048 ∧ (63 : Nat) < 64 ∧ (2047 : Nat) < 2048 ∧
    ∃ q, Machine.translate 0x0FFFFFFF = some q ∧ q.block.toNat = 2047 ∧ q.page.toNat = 63 ∧ q.col.toNat = 2047 :=
  ⟨by decide, by decide, by decide, _, rfl, rfl, rfl, rfl⟩

theorem witness_SetFeaturesCommand : (0xC0 : Byte) = 0xC0 ∧ (0xA0 : Byte) ≠ 0xC0 := by decide

/-- V-P2, and the bound 0 of V-P4. -/
theorem witness_PollExhaustion :
    allBusy [0x01, 0x03, 0xFF] ∧ [0x01, 0x03, (0xFF : Byte)].length = 1 + (PollCfg.mk 2 5).maxAttempts ∧
    (start [.ok [0x01], .ok [0x03], .ok [0xFF]]).script = shown [0x01, 0x03, 0xFF] ++ [] ∧
    allBusy [0x01] ∧ [(0x01 : Byte)].length = 1 + (PollCfg.mk 0 7).maxAttempts :=
  ⟨by unfold allBusy; decide, rfl, rfl, by unfold allBusy; decide, rfl⟩

/-- V-P11, the last read allowed, and V-P5, the first one. -/
theorem witness_PollReadyAtRead :
    allBusy [0x01, 0x01, 0x01] ∧ (0x0E : Byte).getLsbD 0 = false ∧
    [0x01, 0x01, (0x01 : Byte)].length ≤ (PollCfg.mk 3 1).maxAttempts ∧
    (start [.ok [0x01], .ok [0x01], .ok [0x01], .ok [0x0E]]).script =
      shown [0x01, 0x01, 0x01] ++ .ok [0x0E] :: [] ∧
    allBusy [] ∧ ([] : List Byte).length ≤ (PollCfg.mk 0 7).maxAttempts :=
  ⟨by unfold allBusy; decide, rfl, by decide, rfl, by unfold allBusy; decide, by decide⟩

/-- V-P6. -/
theorem witness_PollStopsAtFailedRead :
    allBusy [0x01] ∧ [(0x01 : Byte)].length ≤ (PollCfg.mk 3 1).maxAttempts ∧
    (start [.ok [0x01], .err error]).script = shown [0x01] ++ .err error :: [] :=
  ⟨by unfold allBusy; decide, by decide, rfl⟩

/-- The hypotheses shared by the statements of the host operations: after reset, and after an operation. -/
theorem witness_idle_not_owed : (start []).seq = .idle ∧ (start []).r.wdOwed = false ∧
    (after .checkBusy (start [.ok [0x03]])).seq = .idle ∧ (after .checkBusy (start [.ok [0x03]])).r.wdOwed = false := by
  decide

theorem witness_WaitReadyRun : (start [.err error]).seq = .idle ∧ (start [.err error]).r.wdOwed = false ∧
    ends (.waitReady 3 1) [.err error] [.sendReceive [0x0F, 0xC0] 1 (.err error)] .transportError = true := by decide

theorem witness_GetFeatureRun : (start [.ok [0x40]]).seq = .idle ∧ (start [.ok [0x40]]).r.wdOwed = false ∧
    ends (.getFeature 3) [.ok [0x40]] [.sendReceive [0x0F, 0xD0] 1 (.ok [0x40])] .success = true := by decide

/-- One witness for each clause: selector 2, and another. -/
theorem witness_SetFeatureRun : (start []).seq = .idle ∧ (start []).r.wdOwed = false ∧ (2 : BitVec 2) = 2 ∧
    (1 : BitVec 2) ≠ 2 ∧
    ends (.setFeature 1 0xFF) [.err error] [.send [0x1F, 0xB0, 0xFF] (.err error)] .transportError = true := by decide

theorem witness_CheckBusyRun : (start [.err error]).seq = .idle ∧ (start [.err error]).r.wdOwed = false ∧
    ends .checkBusy [.err error] [.sendReceive [0x0F, 0xC0] 1 (.err error)] .transportError = true := by decide

theorem witness_ReadIdRun : (start [.ok [0, 0]]).seq = .idle ∧ (start [.ok [0, 0]]).r.wdOwed = false ∧
    ends .readId [.ok [0, 0]] [.sendReceive [0x9F, 0x00] 2 (.ok [0, 0])] .success = true := by decide

/-- V-C4, without `INIT`'s delay. -/
theorem witness_ResetOperationRun : (start [.err error]).seq = .idle ∧ (start [.err error]).r.wdOwed = false ∧
    ends .reset [.err error] [.send [0xFF] (.err error)] .resetFailed = true := by decide

/-- V-C5. -/
theorem witness_InitRun : (start [.ok [], .ok [0], .err error]).seq = .idle ∧
    (start [.ok [], .ok [0], .err error]).r.wdOwed = false ∧
    ends .init [.ok [], .ok [0], .err error]
      [.delay 2, .send [0xFF] (.ok []), .delay 2, read 0, .sendReceive [0x9F, 0x00] 2 (.err error)] .resetFailed = true := by
  decide

/-- One witness for each clause, at the bounds of the length and of the address. -/
theorem witness_PageReadRun : (start []).seq = .idle ∧ (start []).r.wdOwed = false ∧
    2176 < (2177 : BitVec 16).toNat ∧ (2176 : BitVec 16).toNat ≤ 2176 ∧ 2 ^ 28 ≤ (0x10000000 : LogicalAddress).toNat ∧
    (0x0FFFFFFF : LogicalAddress).toNat < 2 ^ 28 ∧
    ends (.pageRead 0x10000000 2176) [] [] .addressOutOfRange = true ∧
    ends (.pageRead 0x0FFFFFFF 2) [.ok [], .ok [0], .err error]
      [.send [0x13, 0x01, 0xFF, 0xFF] (.ok []), read 0, .sendReceive [0x03, 0x07, 0xFF, 0x00] 2 (.err error)]
      .readFailed = true := by decide

theorem witness_PageProgramRun : (start []).seq = .idle ∧ (start []).r.wdOwed = false ∧
    2048 < (2049 : BitVec 16).toNat ∧ (2048 : BitVec 16).toNat ≤ 2048 ∧
    ends (.pageProgram 0x0FFFFFFF 2049) [] [] .programFailed = true ∧
    ends (.pageProgram 0x10000000 2048) [] [] .addressOutOfRange = true ∧
    ends (.pageProgram 0x0FFFFFFF 0) [.err error, .err error] [.send [0x06] (.err error), .send [0x04] (.err error)]
      .programFailed = true := by decide

theorem witness_BlockEraseRun : (start []).seq = .idle ∧ (start []).r.wdOwed = false ∧
    ends (.blockErase 0x10000000) [] [] .addressOutOfRange = true ∧
    ends (.blockErase 0x0FFFFFFF) [.ok [], .ok [], .ok [0], .err error]
      [.send [0x06] (.ok []), .send [0xD8, 0x01, 0xFF, 0xFF] (.ok []), read 0, .send [0x04] (.err error)]
      .eraseFailed = true := by decide

/-- At the smallest and at the largest oversize length. -/
theorem witness_OversizeReadMakesNoCall : (start []).seq = .idle ∧ (start []).r.wdOwed = false ∧
    2176 < (2177 : BitVec 16).toNat ∧ 2176 < (0xFFFF : BitVec 16).toNat ∧ Buffer.wf (start []).buf = true ∧
    ends (.pageRead 0xFFFFFFFF 0xFFFF) [.ok []] [] .readFailed = true := by decide

theorem witness_SingleTransactionOperationsSucceed : (start []).seq = .idle ∧ (3 : BitVec 2) ≠ 2 ∧
    (start [.ok [0x40]]).script = .ok [0x40] :: [] ∧ (start [.ok []]).script = .ok [] :: [] ∧
    (start [.ok [0x2C, 0x24]]).script = .ok [0x2C, 0x24] :: [] := by decide

theorem witness_PollingOperationsSucceed : (start []).seq = .idle ∧ allBusy [0x01] ∧ (0x00 : Byte).getLsbD 0 = false ∧
    [(0x01 : Byte)].length ≤ (1 : BitVec 16).toNat ∧ [(0x01 : Byte)].length ≤ (start []).cfg.pollReset.maxAttempts ∧
    (start [.ok [0x01], .ok [0x00]]).script = shown [0x01] ++ .ok [0x00] :: [] ∧
    (start [.ok [], .ok [0x01], .ok [0x00]]).script = .ok [] :: shown [0x01] ++ .ok [0x00] :: [] ∧
    (start [.ok [], .ok [0x01], .ok [0x00], .ok [0x2C, 0x24]]).script =
      .ok [] :: shown [0x01] ++ .ok [0x00] :: .ok [0x2C, 0x24] :: [] :=
  ⟨rfl, by unfold allBusy; decide, rfl, by decide, by decide, rfl, rfl, rfl⟩

theorem witness_PageReadSucceeds : (start []).seq = .idle ∧ (4 : BitVec 16).toNat ≤ 2176 ∧
    (0x00020004 : LogicalAddress).toNat < 2 ^ 28 ∧ allBusy [0x01] ∧ (0x00 : Byte).getLsbD 0 = false ∧
    [(0x01 : Byte)].length ≤ (start []).cfg.pollRead.maxAttempts ∧ [1, 2, 3, (4 : Byte)].length = (4 : BitVec 16).toNat ∧
    (start [.ok [], .ok [0x01], .ok [0x00], .ok [1, 2, 3, 4]]).script =
      .ok [] :: shown [0x01] ++ .ok [0x00] :: .ok [1, 2, 3, 4] :: [] :=
  ⟨rfl, by decide, by decide, by unfold allBusy; decide, rfl, by decide, rfl, rfl⟩

/-- V-C14. -/
theorem witness_PageProgramSucceeds : (start []).seq = .idle ∧ (4 : BitVec 16).toNat ≤ 2048 ∧
    (0x00020004 : LogicalAddress).toNat < 2 ^ 28 ∧ allBusy [0x01] ∧ (0x00 : Byte).getLsbD 0 = false ∧
    [(0x01 : Byte)].length ≤ (start []).cfg.pollPgm.maxAttempts ∧
    (start [.ok [], .ok [], .ok [], .ok [0x01], .ok [0x00], .ok [], .ok [0x00]]).script =
      .ok [] :: .ok [] :: .ok [] :: shown [0x01] ++ .ok [0x00] :: .ok [] :: .ok [0x00] :: [] :=
  ⟨rfl, by decide, by decide, by unfold allBusy; decide, rfl, by decide, rfl⟩

/-- V-C17. -/
theorem witness_BlockEraseSucceeds : (start []).seq = .idle ∧ (0x00020000 : LogicalAddress).toNat < 2 ^ 28 ∧
    allBusy [0x01] ∧ (0x00 : Byte).getLsbD 0 = false ∧ [(0x01 : Byte)].length ≤ (start []).cfg.pollErs.maxAttempts ∧
    (start [.ok [], .ok [], .ok [0x01], .ok [0x00], .ok [], .ok [0x00]]).script =
      .ok [] :: .ok [] :: shown [0x01] ++ .ok [0x00] :: .ok [] :: .ok [0x00] :: [] :=
  ⟨rfl, by decide, by unfold allBusy; decide, rfl, by decide, rfl⟩

/-- A host operation for each clause: one that passes its guards, one that does not, and one that has none. -/
theorem witness_WriteEnableBracket : (start []).seq = .idle ∧ (start []).r.wdOwed = false ∧
    isHostOperation (.pageProgram 0x0FFFFFFF 2048) = true ∧ (2048 : BitVec 16).toNat ≤ 2048 ∧
    (0x0FFFFFFF : LogicalAddress).toNat < 2 ^ 28 ∧ isHostOperation (.pageProgram 0 2049) = true ∧
    ¬ (2049 : BitVec 16).toNat ≤ 2048 ∧ isHostOperation (.blockErase 0x10000000) = true ∧
    isHostOperation .readId = true := by decide

/-- An erase whose command fails: the failing call, what came before it, and what follows. -/
theorem witness_FailuresArePrecise : (start [.ok [], .err error, .ok []]).seq = .idle ∧
    (start [.ok [], .err error, .ok []]).r.wdOwed = false ∧ isHostOperation (.blockErase 0) = true ∧
    (after (.blockErase 0) (start [.ok [], .err error, .ok []])).trace =
      [.send [0x06] (.ok [])] ++ .send [0xD8, 0, 0, 0] (.err error) :: [.send [0x04] (.ok [])] ∧
    failed (.send [0xD8, 0, 0, 0] (.err error)) = true ∧ failed (.send [0x06] (.ok [])) = false := by decide

theorem witness_OnlyWireFormatsEmitted : (start [.ok [0x40]]).seq = .idle ∧ (start [.ok [0x40]]).r.wdOwed = false ∧
    isHostOperation (.getFeature 3) = true ∧
    .sendReceive [0x0F, 0xD0] 1 (.ok [0x40]) ∈ (after (.getFeature 3) (start [.ok [0x40]])).trace := by decide

theorem witness_EmittedCallsAreWellFormed : (start [.ok []]).seq = .idle ∧ (start [.ok []]).r.wdOwed = false ∧
    isHostOperation (.setFeature 3 0x40) = true ∧
    .send [0x1F, 0xD0, 0x40] (.ok []) ∈ (after (.setFeature 3 0x40) (start [.ok []])).trace := by decide

theorem witness_AnswersComeFromTheScript : (start [.ok [0x40]]).seq = .idle ∧ (start [.ok [0x40]]).r.wdOwed = false ∧
    isHostOperation (.getFeature 3) = true ∧ (start [.ok [0x40]]).script[0]? = some (.ok [0x40]) ∧
    ((after (.getFeature 3) (start [.ok [0x40]])).trace.filter fun c => (answerOf c).isSome)[0]? =
      some (.sendReceive [0x0F, 0xD0] 1 (.ok [0x40])) := by decide

/-- Two states that differ in the registers an earlier operation left. -/
theorem witness_NothingCarriesOver :
    let s := start [.ok [0x40]]
    let u := { s with r := { s.r with st := 0xFF, rbyte := 7, cnt := 3, ok := true, res := .busy } }
    s.seq = .idle ∧ u.seq = .idle ∧ s.r.wdOwed = false ∧ u.r.wdOwed = false ∧ s.cfg = u.cfg ∧ s.buf = u.buf ∧
      s.script = u.script ∧ s.draws = u.draws ∧ isHostOperation (.getFeature 3) = true ∧ s ≠ u := by decide

theorem witness_OneResponsePerRequest : isHostOperation .init = true ∧ (start []).seq = .idle ∧
    ({ start [] with seq := .run .readLoad } : State).seq ≠ .idle := by decide

/-- V-C20, and a cache read that fails. -/
theorem witness_CacheReadAfterReady : (start [.ok [], .ok [0], .ok [7]]).seq = .idle ∧
    (start [.ok [], .ok [0], .ok [7]]).r.wdOwed = false ∧
    (after (.pageRead 0x00020004 1) (start [.ok [], .ok [0], .ok [7]])).r.res = .success ∧
    (after (.pageRead 0x00020004 1) (start [.ok [], .ok [0], .err error])).trace =
      [.send [0x13, 0x00, 0x00, 0x40] (.ok []), read 0] ++ .sendReceive [0x03, 0x00, 0x04, 0x00] 1 (.err error) :: [] ∧
    isCacheRead (.sendReceive [0x03, 0x00, 0x04, 0x00] 1 (.err error)) = true := by decide

theorem witness_LatchReleased : (start []).seq = .idle ∧ (start []).r.wdOwed = false ∧
    (0x0FFFFFFF : LogicalAddress).toNat < 2 ^ 28 ∧ (2048 : BitVec 16).toNat ≤ 2048 ∧
    .send [0x04] (.ok []) ∈ (after (.blockErase 0x0FFFFFFF) (start [.err error, .ok []])).trace := by decide

/-- One witness for each form of what is presented. -/
theorem witness_StepRunsDecodedInstruction :
    ({ start [] with inputs := [.present (.host 0x9)] } : State).seq = .idle ∧
    ({ start [] with inputs := [.present (.host 0x9)] } : State).inputs = .present (.host 0x9) :: [] ∧
    decode (.host 0x9) = .ok .checkBusy ∧ decode (.wire [0xFF] 0) = .ok .resetCmd ∧
    decode (.address 0x800) = .ok (.translate 0x800) ∧
    ({ start [] with seq := .run .checkBusy } : State).seq ≠ .idle ∧
    (∃ a, Item.address 0x800 = .address a) := ⟨rfl, rfl, rfl, rfl, rfl, by decide, _, rfl⟩

theorem witness_QuietStep : (start []).inputs = [] ∧ (start []).seq = .idle ∧
    ({ start [] with inputs := [.quiet] } : State).inputs = .quiet :: [] := by decide

theorem witness_LatchHoldsTheRequest :
    ({ start [] with inputs := [.present (.host 0x1037)] } : State).seq = .idle ∧
    ({ start [] with inputs := [.present (.host 0x1037)] } : State).inputs = .present (.host 0x1037) :: [] ∧
    (0x1037 : RequestWord).toNat % 16 < 10 := by decide

theorem witness_ReservedOperationsRefused : (start []).seq = .idle ∧ 10 ≤ (0xA : RequestWord).toNat % 16 ∧
    10 ≤ (0x1F : RequestWord).toNat % 16 := by decide

theorem witness_BusyRequestIgnored : ({ start [] with seq := .run .checkBusy } : State).seq ≠ .idle := by decide

/-- One witness for each clause: outside the buffer, in use, and free; the last at the end of `Buf[0..len)`. -/
theorem witness_HostStores :
    let busy := { start [] with seq := .run .programLoad, r := { Regs.reset with len := 4 } }
    Buffer.wf (start []).buf = true ∧ Buffer.wf busy.buf = true ∧ 2176 ≤ 2176 ∧
      (SeqStep.programLoad.op = .pageRead ∨ SeqStep.programLoad.op = .pageProgram) ∧ 3 < busy.r.len.toNat ∧
      ¬ 4 < busy.r.len.toNat ∧
      (match step { busy with inputs := [.hostStore 3 1] } with | .fault .bufferRace => true | _ => false) = true ∧
      (match step { busy with inputs := [.hostStore 4 1] } with | .next t => t.buf.length == 5 | _ => false) = true ∧
      (match step { busy with inputs := [.hostStore 2176 1] } with | .fault .bufferIndex => true | _ => false) = true := by
  decide

theorem witness_ConfigurationConstant : step (start []) = .next (start []) := rfl

/-- In `IDLE`, and in the middle of a program's poll. -/
theorem witness_StepKeepsInvariant :
    let busy := { start [.ok [1]] with
      seq := .run (.poll .pageProgram .read)
      r := { Regs.reset with op := 4, addr := 0x00020004, len := 4, cnt := 4, ok := true, wdOwed := true }
      inputs := [.quiet, .hardReset, .start 0x9] }
    (Buffer.wf (start []).buf = true ∧ Safety.seqOk (start []) = true ∧
      (start []).inputs.all Safety.hostLevel = true) ∧
    (Buffer.wf busy.buf = true ∧ Safety.seqOk busy = true ∧ busy.inputs.all Safety.hostLevel = true) := by decide

theorem witness_PacedRunIsTheOperation :
    (start [.ok [0x03]]).seq = .idle ∧
    (match step { start [.ok [0x03]] with inputs := [.present (.host 0x9)] } with | .next _ => true | _ => false) = true := by
  decide

theorem witness_EveryOperationEnds :
    let busy := { start [.ok [1]] with
      seq := .run (.poll .waitReady .delay)
      r := { Regs.reset with op := 8, att := 3, cnt := 2 } }
    Buffer.wf busy.buf = true ∧ Safety.seqOk busy = true ∧ busy.inputs.all Safety.hostLevel = true := by decide

/-- One witness for each clause: a failed execute, a failed cache read. -/
theorem witness_FailedOperationNotUndone : (start []).seq = .idle ∧ (start []).r.wdOwed = false ∧
    .send [0x10, 0x00, 0x00, 0x40] (.err error) ∈
      (after (.pageProgram 0x00020004 1) (start [.ok [], .ok [], .err error, .ok []])).trace ∧
    .sendReceive [0x03, 0x00, 0x04, 0x00] 1 (.err error) ∈
      (after (.pageRead 0x00020004 1) (start [.ok [], .ok [0], .err error])).trace := by decide

end Sys2Proof.Tests
end

section
/-! The step with an instruction presented to it: the request latch by arithmetic, and when a presented item is run. -/

namespace Sys2Proof.Proofs.Presented

open Sys2Proof Sys2Proof.Machine Sys2Proof.Laws Sys2Proof.Claims

/-- The latched request word, each field a quotient of the word (R23, R81). -/
theorem latchWord_eq_quotients (s : State) (w : RequestWord) :
    s.latchWord w = s.withRegs fun r =>
      { r with op := BitVec.ofNat 4 w.toNat, reg := BitVec.ofNat 2 (w.toNat / 2 ^ 4),
               wval := BitVec.ofNat 8 (w.toNat / 2 ^ 6), addr := BitVec.ofNat 32 (w.toNat / 2 ^ 16),
               len := BitVec.ofNat 16 (w.toNat / 2 ^ 48), att := BitVec.ofNat 16 (w.toNat / 2 ^ 64),
               dly := BitVec.ofNat 16 (w.toNat / 2 ^ 80) } := by
  simp only [State.latchWord, extractLsb'_eq_ofNat, Nat.pow_zero, Nat.div_one]

theorem runItem_of_decode {x : Item} {i : Instr} (h : decode x = .ok i) (s : State) :
    runItem x s = exec i (s.latchItem x) := by
  simp only [runItem, h]

theorem isBusy_of_idle {s : State} (h : s.seq = .idle) : s.isBusy = false := by
  simp only [State.isBusy, h]

/-- In `IDLE` every item presented is run (R29). -/
theorem presentItem_of_idle {s : State} (x : Item) (h : s.seq = .idle) : presentItem x s = runItem x s := by
  cases x <;> simp [presentItem, isBusy_of_idle h]

/-- An address presented is translated in any state (R84). -/
theorem presentItem_address (s : State) (a : LogicalAddress) :
    presentItem (.address a) s = runItem (.address a) s := rfl

/-- The step with an item presented takes the item from the inputs. -/
theorem step_present {s : State} {x : Item} {rest : List Input} (h : s.inputs = .present x :: rest) :
    step s = presentItem x { s with inputs := rest } := by
  simp only [step, stepInputs, h, takeInput]

/-- The step with an item presented that is available and decodes runs the instruction on the latched item. -/
theorem step_eq_exec {s : State} {x : Item} {rest : List Input} {i : Instr}
    (havail : s.seq = .idle ∨ ∃ a, x = .address a) (hin : s.inputs = .present x :: rest) (hdec : decode x = .ok i) :
    step s = exec i (({ s with inputs := rest } : State).latchItem x) := by
  have hrun : presentItem x { s with inputs := rest } = runItem x { s with inputs := rest } := by
    obtain hidle | ⟨a, rfl⟩ := havail
    · exact presentItem_of_idle x hidle
    · exact presentItem_address _ a
  rw [step_present hin, hrun, runItem_of_decode hdec]

/-- Settles O39: an item that is available and decodes is run, on the state with its fields latched. -/
theorem stepRunsDecodedInstruction : Obligations.StepRunsDecodedInstruction := by
  intro s x rest i havail hin hdec
  rw [step_eq_exec havail hin hdec]
  cases x with
  | host w => exact congrArg (exec i) (latchWord_eq_quotients _ w)
  | wire tx rx => rfl
  | address a => rfl

end Sys2Proof.Proofs.Presented
end

section
/-! The answers of an operation: what one transport call takes from the schedule, the invariant that every call so far
was answered from it in order, and that every step of every host operation keeps the invariant. -/

namespace Sys2Proof.Proofs.Answers

open Sys2Proof Sys2Proof.Machine Sys2Proof.Machine.Laws Sys2Proof.Claims

/-! ### One call -/

/-- The answer to the next call is the one the next scheduled answer stands for (log 4). -/
theorem nextAnswer_scheduled {s : State} {x : Answer} (n : Nat) (h : s.script.head? = some x) :
    Scheduled n x (s.nextAnswer n) := by
  obtain ⟨rest, hscript⟩ := List.head?_eq_some_iff.1 h
  cases x with
  | err e => exact nextAnswer_scripted_err n hscript
  | ok rx =>
    have hfit : s.nextAnswer n = .ok (fitLength n s.draws rx) := by simp [State.nextAnswer, hscript, fitAnswer]
    exact ⟨_, hfit, fitLength_length n _ rx, fitLength_of_length _⟩

/-- A transport call takes its answer from the schedule (R58, R63). -/
theorem transport_answered (mk : Answer → Call) (n : Nat) (s : State) :
    Answered s n (s.nextAnswer n) (transport mk n s).2 :=
  ⟨rfl, fun _ => nextAnswer_length, fun _ => nextAnswer_scheduled n⟩

/-! ### The invariant -/

/-- The calls that have an answer. -/
def asked (trace : List Call) : List Call := trace.filter fun c => (answerOf c).isSome

/-- Since the trace began, when `script` was scheduled, each answered call was given its scheduled answer, in order, and
the rest is still scheduled. -/
structure Served (script : List Answer) (s : State) : Prop where
  unused : s.script = script.drop (asked s.trace).length
  inOrder : ∀ (k : Nat) (c : Call) (a : Answer), (asked s.trace)[k]? = some c → answerOf c = some a →
    LengthLaw (rxCount c) a ∧ ∀ x, script[k]? = some x → Scheduled (rxCount c) x a

theorem served_accept (op : HostOp) (s : State) : Served s.script (accept op s) :=
  ⟨rfl, fun k c _ hc => by simp [asked] at hc⟩

section
variable {script : List Answer} {s : State} (h : Served script s)
include h

/-- Only the trace and the schedule matter. -/
theorem served_of_eq {t : State} (htrace : t.trace = s.trace) (hscript : t.script = s.script) : Served script t :=
  ⟨by rw [hscript, htrace, h.unused], by rw [htrace]; exact h.inOrder⟩

/-- One more answered call keeps the invariant: the call takes the place after those already answered, and the head of
what is still scheduled is the entry of `script` at that place. -/
theorem served_of_answered {t : State} {c : Call} {a : Answer} (hans : Answered s (rxCount c) a t)
    (htrace : t.trace = s.trace ++ [c]) (hc : answerOf c = some a) : Served script t := by
  obtain ⟨htail, hlen, hsched⟩ := hans
  have hasked : asked t.trace = asked s.trace ++ [c] := by simp [asked, htrace, hc]
  refine ⟨by rw [htail, h.unused, hasked, List.tail_drop, List.length_append, List.length_singleton], ?_⟩
  intro k d b hd hb
  rw [hasked] at hd
  obtain hk | hk := Nat.lt_or_ge k (asked s.trace).length
  · rw [List.getElem?_append_left hk] at hd
    exact h.inOrder k d b hd hb
  · rw [List.getElem?_append_right hk, List.getElem?_singleton] at hd
    split at hd
    · cases hd
      obtain rfl : a = b := Option.some.inj (hc.symm.trans hb)
      have hplace : k = (asked s.trace).length := by omega
      refine ⟨hlen, fun x hx => hsched x ?_⟩
      rw [h.unused, List.head?_drop, ← hplace, hx]
    · cases hd

/-! ### The shared operations -/

theorem served_withRegs (f : Regs → Regs) : Served script (s.withRegs f) :=
  served_of_eq h rfl rfl

theorem served_sample (b : Byte) : Served script (s.sample b) := served_withRegs h _
theorem served_setOk (b : Bool) : Served script (s.setOk b) := served_withRegs h _
theorem served_setOwed (b : Bool) : Served script (s.setOwed b) := served_withRegs h _
theorem served_setTerr (e : TransportError) : Served script (s.setTerr e) := served_withRegs h _

theorem served_delay (ms : Nat) : Served script (delay ms s) := by
  have hasked : asked (delay ms s).trace = asked s.trace := by simp [asked, answerOf]
  exact ⟨by rw [hasked, delay_script, h.unused], by rw [hasked]; exact h.inOrder⟩

/-- A transport call that records its answer and the number of bytes it receives. -/
theorem served_transport {mk : Answer → Call} {n : Nat} (hans : ∀ a, answerOf (mk a) = some a)
    (hrx : ∀ a, rxCount (mk a) = n) : Served script (transport mk n s).2 :=
  served_of_answered h (by rw [hrx]; exact transport_answered mk n s) (transport_trace mk n s) (hans _)

theorem served_send (tx : List Byte) : Served script (send tx s).2 :=
  served_transport h (fun _ => rfl) fun _ => rfl

theorem served_sendReceive (tx : List Byte) (n : Nat) : Served script (sendReceive tx n s).2 :=
  served_transport h (fun _ => rfl) fun _ => rfl

theorem served_sendCommandThenData (cmd data : List Byte) : Served script (sendCommandThenData cmd data s).2 :=
  served_transport h (fun _ => rfl) fun _ => rfl

theorem served_getFeature (ra : Byte) : Served script (getFeature ra s).2 :=
  served_sendReceive h _ 1

theorem served_setFeature (ra v : Byte) : Served script (setFeature ra v s).2 := by
  have hsend : Served script (txSetf ra v s).2 := served_send h _
  unfold setFeature
  split
  · exact h
  · generalize txSetf ra v s = out at hsend ⊢
    obtain ⟨_ | _, t⟩ := out <;> exact hsend

theorem served_writeEnable : Served script (writeEnable s).2 := by
  rw [writeEnable_eq]
  exact served_setOwed (served_send h [0x06]) true

theorem served_writeDisable : Served script (writeDisable s).2 := by
  rw [writeDisable_eq]
  exact served_setOwed (served_send h [0x04]) false

theorem served_respond (k : ResultKind) : Served script (respond k s) :=
  served_of_eq h rfl rfl

theorem served_raise (k : ResultKind) : Served script (raise k s) := by
  refine served_respond ?_ k
  unfold cleanup
  split
  · exact served_writeDisable h
  · exact h

/-! ### The poll -/

theorem served_pollLoop (d n : Nat) : Served script (pollLoop d n s).2 := by
  induction n generalizing s with
  | zero => exact h
  | succ n ih =>
    have hcount : Served script s.countAttempt := served_withRegs h _
    have hread := served_getFeature (served_delay hcount d) statusAddress
    unfold pollLoop
    generalize getFeature statusAddress _ = out at hread ⊢
    obtain ⟨rx | e, t⟩ := out
    · dsimp only at hread ⊢
      split
      · exact ih (served_sample hread _)
      · exact served_sample hread _
    · exact hread

theorem served_waitUntilReady (p : PollCfg) : Served script (waitUntilReady p s).2 := by
  have hclear : Served script s.clearCnt := served_withRegs h _
  have hread := served_getFeature hclear statusAddress
  unfold waitUntilReady
  generalize getFeature statusAddress _ = out at hread ⊢
  obtain ⟨rx | e, t⟩ := out
  · dsimp only at hread ⊢
    split
    · exact served_pollLoop (served_sample hread _) _ _
    · exact served_sample hread _
  · exact hread

theorem served_waitReadyOp : Served script (waitReadyOp s) := by
  have hpoll := served_waitUntilReady h (s.pollCfg .waitReady)
  unfold waitReadyOp
  generalize waitUntilReady _ s = out at hpoll ⊢
  obtain ⟨_ | _ | e, t⟩ := out
  · exact served_respond hpoll _
  · exact served_raise hpoll _
  · exact served_raise (served_setTerr hpoll _) _

/-! ### Register Access -/

theorem served_getFeatureOp : Served script (getFeatureOp s) := by
  have hread := served_getFeature h (regAddr s.r.reg)
  unfold getFeatureOp
  generalize getFeature _ s = out at hread ⊢
  obtain ⟨rx | e, t⟩ := out
  · refine served_respond (served_withRegs ?_ _) _
    rw [sampleStatus_reg]
    exact served_of_eq hread rfl rfl
  · exact served_raise (served_setTerr hread _) _

theorem served_setFeatureOp : Served script (setFeatureOp s) := by
  have hset := served_setFeature h (regAddr s.r.reg) s.r.wval
  unfold setFeatureOp
  generalize setFeature _ _ s = out at hset ⊢
  obtain ⟨_ | _ | e, t⟩ := out
  · exact served_respond hset _
  · exact served_raise hset _
  · exact served_raise (served_setTerr hset _) _

theorem served_checkBusyOp : Served script (checkBusyOp s) := by
  have hread := served_getFeature h statusAddress
  unfold checkBusyOp
  generalize getFeature _ s = out at hread ⊢
  obtain ⟨rx | e, t⟩ := out
  · exact served_respond (served_withRegs (served_sample hread _) _) _
  · exact served_raise (served_setTerr hread _) _

/-! ### `RESET`, `READ_ID`, `INIT` -/

theorem served_resetSteps (caller : PollCaller) : Served script (resetSteps caller s).2 := by
  have hsend : Served script (txCmd Opcode.reset s).2 := served_send h _
  unfold resetSteps
  generalize txCmd Opcode.reset s = out at hsend ⊢
  obtain ⟨_ | _, t⟩ := out
  · have hpoll := served_waitUntilReady (served_delay hsend t.cfg.tPorMs) (t.pollCfg caller)
    dsimp only at hpoll ⊢
    generalize waitUntilReady _ _ = res at hpoll ⊢
    obtain ⟨_ | _ | _, u⟩ := res <;> exact hpoll
  · exact hsend

theorem served_resetOp : Served script (resetOp s) := by
  have hreset := served_resetSteps h .reset
  unfold resetOp
  split <;> rename_i heq <;> rw [heq] at hreset
  · exact served_respond hreset _
  · exact served_raise hreset _

theorem served_identitySteps : Served script (identitySteps s).2 := by
  have hid : Served script (txId s).2 := served_sendReceive h _ 2
  unfold identitySteps
  generalize txId s = out at hid ⊢
  obtain ⟨rx | e, t⟩ := out
  · dsimp only at hid ⊢
    exact served_withRegs hid _
  · exact hid

theorem served_readIdOp : Served script (readIdOp s) := by
  have hid := served_identitySteps h
  unfold readIdOp
  generalize identitySteps s = out at hid ⊢
  obtain ⟨rx | e, t⟩ := out
  · exact served_respond hid _
  · exact served_raise (served_setTerr hid _) _

theorem served_initIdentity : Served script (initIdentity s) := by
  have hid := served_identitySteps h
  unfold initIdentity
  generalize identitySteps s = out at hid ⊢
  obtain ⟨rx | e, t⟩ := out
  · dsimp only
    split
    · exact served_respond hid _
    · exact served_raise hid _
  · exact served_raise hid _

theorem served_initOp : Served script (initOp s) := by
  have hreset := served_resetSteps (served_delay h s.cfg.tPorMs) .init
  unfold initOp
  split <;> rename_i heq <;> rw [heq] at hreset
  · exact served_initIdentity hreset
  · exact served_raise hreset _

/-! ### `PAGE_READ` -/

theorem served_readFailure (k : ResultKind) : Served script (readFailure k s) :=
  served_raise (served_of_eq (t := spoilBuffer s) h rfl rfl) k

theorem served_readCacheStep (p : Phys) : Served script (readCacheStep p s) := by
  have hread : Served script (txColrd (colWord s.cfg p) s.r.len.toNat s).2 := served_sendReceive h _ _
  unfold readCacheStep
  generalize txColrd _ _ s = out at hread ⊢
  obtain ⟨rx | e, t⟩ := out
  · have hstore : Served script { t with buf := Buffer.storePrefix t.buf rx } := served_of_eq hread rfl rfl
    exact served_respond hstore _
  · exact served_readFailure hread _

theorem served_pageReadOp : Served script (pageReadOp s) := by
  unfold pageReadOp
  split
  · exact served_readFailure h _
  · split
    · exact served_readFailure h _
    next p _ =>
      have hrow : Served script (txRow Opcode.pageRead p.rowAddr s).2 := served_send h _
      generalize txRow _ _ s = out at hrow ⊢
      obtain ⟨_ | _, t⟩ := out
      · have hpoll := served_waitUntilReady hrow (t.pollCfg .pageRead)
        dsimp only at hpoll ⊢
        generalize waitUntilReady _ t = res at hpoll ⊢
        obtain ⟨_ | _ | _, u⟩ := res
        · exact served_readCacheStep hpoll p
        · exact served_readFailure hpoll _
        · exact served_readFailure hpoll _
      · exact served_readFailure hrow _

/-! ### The write-enable bracket -/

theorem served_noteAnswer (a : Answer) : Served script (noteAnswer (a, s)) := by
  cases a with
  | ok rx => exact h
  | err e => exact served_setOk h false

theorem served_notePoll (out : PollResult) : Served script (notePoll (out, s)) := by
  cases out with
  | ready => exact h
  | busy => exact served_setOk h false
  | transportError e => exact served_setOk h false

theorem served_whenOk {step : State → State} (hstep : Served script s → Served script (step s)) :
    Served script (whenOk step s) := by
  unfold whenOk
  split
  · exact hstep h
  · exact h

theorem served_closeBracket (failBit : Byte → Bool) (k : ResultKind) : Served script (closeBracket failBit k s) := by
  unfold closeBracket
  split
  · have hread := served_getFeature h statusAddress
    generalize getFeature _ s = out at hread ⊢
    obtain ⟨rx | e, t⟩ := out
    · dsimp only
      split
      · exact served_raise (served_sample hread _) _
      · exact served_respond (served_sample hread _) _
    · exact served_raise hread _
  · exact served_raise h _

theorem served_openBracket : Served script (noteAnswer (writeEnable (s.setOk true))) :=
  served_noteAnswer (served_writeEnable (served_setOk h _)) _

/-- A row command inside the bracket. -/
theorem served_rowStep (opc : Byte) (row : BitVec 24) :
    Served script (whenOk (fun s => noteAnswer (txRow opc row s)) s) :=
  served_whenOk h fun h => served_noteAnswer (served_send h _) _

/-- The poll inside the bracket, the write-disable after it, and the end of the bracket. -/
theorem served_pollAndClose (caller : PollCaller) (failBit : Byte → Bool) (k : ResultKind) :
    Served script (closeBracket failBit k (noteAnswer (writeDisable
      (whenOk (fun s => notePoll (waitUntilReady (s.pollCfg caller) s)) s)))) := by
  have hpoll : Served script (whenOk (fun s => notePoll (waitUntilReady (s.pollCfg caller) s)) s) :=
    served_whenOk h fun h => served_notePoll (served_waitUntilReady h _) _
  exact served_closeBracket (served_noteAnswer (served_writeDisable hpoll) _) _ _

theorem served_programLoadStep (p : Phys) : Served script (programLoadStep p s) :=
  served_noteAnswer (served_sendCommandThenData h _ _) _

theorem served_pageProgramOp : Served script (pageProgramOp s) := by
  unfold pageProgramOp
  split
  · exact served_raise h _
  · split
    · exact served_raise h _
    next p _ =>
      have hload := served_whenOk (served_openBracket h) fun h => served_programLoadStep h p
      exact served_pollAndClose (served_rowStep hload _ _) _ _ _

theorem served_blockEraseOp : Served script (blockEraseOp s) := by
  unfold blockEraseOp
  split
  · exact served_raise h _
  · exact served_pollAndClose (served_rowStep (served_openBracket h) _ _) _ _ _

end

/-! ### Every host operation -/

/-- An accepted request begins a new trace on the whole schedule; an operation that keeps the invariant ends in it. -/
theorem served_request {s : State} {op : HostOp} {operands : Regs → Regs} {run : State → State}
    (hidle : s.seq = .idle) (hrun : ∀ {t}, Served s.script t → Served s.script (run t)) :
    Served s.script (request op operands run s) := by
  rw [request_idle op operands run hidle]
  exact hrun (served_accept op (s.withRegs operands))

theorem exec_served {s : State} {i : Instr} (hidle : s.seq = .idle) (hhost : isHostOperation i = true) :
    ∃ t, exec i s = .next t ∧ Served s.script t := by
  cases i with
  | init => exact ⟨_, rfl, served_request hidle served_initOp⟩
  | reset => exact ⟨_, rfl, served_request hidle served_resetOp⟩
  | readId => exact ⟨_, rfl, served_request hidle served_readIdOp⟩
  | pageRead addr len => exact ⟨_, rfl, served_request hidle served_pageReadOp⟩
  | pageProgram addr len => exact ⟨_, rfl, served_request hidle served_pageProgramOp⟩
  | blockErase addr => exact ⟨_, rfl, served_request hidle served_blockEraseOp⟩
  | getFeature reg => exact ⟨_, rfl, served_request hidle served_getFeatureOp⟩
  | setFeature reg wval => exact ⟨_, rfl, served_request hidle served_setFeatureOp⟩
  | waitReady att dly => exact ⟨_, rfl, served_request hidle served_waitReadyOp⟩
  | checkBusy => exact ⟨_, rfl, served_request hidle served_checkBusyOp⟩
  | _ => cases hhost

/-- Settles O34: every call of every host operation takes the next scheduled answer, so the invariant that holds of the
empty trace at acceptance holds at the response. -/
theorem answersComeFromTheScript : Obligations.AnswersComeFromTheScript := by
  intro s i hidle _ hhost
  obtain ⟨t, hexec, hserved⟩ := exec_served hidle hhost
  exact ⟨t, hexec, hserved.unused, hserved.inOrder⟩

end Sys2Proof.Proofs.Answers
end

section
/-! The decoder, said once per format: which bytes and counts a format decodes, and that both directions of decode and
encode follow from it. -/

namespace Sys2Proof.Proofs.Encoding

open Sys2Proof Sys2Proof.Machine Sys2Proof.Laws Sys2Proof.Machine.Laws Sys2Proof.Proofs.Presented

/-! ### The wire formats (R86) -/

theorem decodeCmd_eq_ok {i j : Instr} {opc : Byte} {args : List Byte} {rx : Nat} :
    decodeCmd i opc args rx = .ok j ↔ args = [] ∧ rx = 0 ∧ j = i := by
  constructor
  · intro h
    unfold decodeCmd at h
    split at h
    · cases h; exact ⟨rfl, rfl, rfl⟩
    · cases h
  · rintro ⟨rfl, rfl, rfl⟩
    rfl

theorem decodeRow_eq_ok {mk : BitVec 24 → Instr} {j : Instr} {opc : Byte} {args : List Byte} {rx : Nat} :
    decodeRow mk opc args rx = .ok j ↔ ∃ row, args = rowBytes row ∧ rx = 0 ∧ j = mk row := by
  constructor
  · intro h
    unfold decodeRow at h
    split at h
    · cases h; exact ⟨_, (rowBytes_append _ _ _).symm, rfl, rfl⟩
    · cases h
  · rintro ⟨row, rfl, rfl, rfl⟩
    simp only [rowBytes, decodeRow, append_rowBytes]

theorem decodeRow_rowBytes (mk : BitVec 24 → Instr) (opc : Byte) (row : BitVec 24) :
    decodeRow mk opc (rowBytes row) 0 = .ok (mk row) :=
  decodeRow_eq_ok.2 ⟨row, rfl, rfl, rfl⟩

theorem decodeGetf_eq_ok {j : Instr} {args : List Byte} {rx : Nat} :
    decodeGetf args rx = .ok j ↔ ∃ ra, args = [ra] ∧ rx = 1 ∧ j = .getFeatures ra := by
  constructor
  · intro h
    unfold decodeGetf at h
    split at h
    · cases h; exact ⟨_, rfl, rfl, rfl⟩
    · cases h
  · rintro ⟨ra, rfl, rfl, rfl⟩
    rfl

theorem decodeSetf_eq_ok {j : Instr} {args : List Byte} {rx : Nat} :
    decodeSetf args rx = .ok j ↔ ∃ ra v, args = [ra, v] ∧ rx = 0 ∧ j = .setFeatures ra v := by
  constructor
  · intro h
    unfold decodeSetf at h
    split at h
    · cases h; exact ⟨_, _, rfl, rfl, rfl⟩
    · cases h
  · rintro ⟨ra, v, rfl, rfl, rfl⟩
    rfl

theorem decodeId_eq_ok {j : Instr} {args : List Byte} {rx : Nat} :
    decodeId args rx = .ok j ↔ ∃ dummy, args = [dummy] ∧ rx = 2 ∧ j = .readIdCmd := by
  constructor
  · intro h
    unfold decodeId at h
    split at h
    · cases h; exact ⟨_, rfl, rfl, rfl⟩
    · cases h
  · rintro ⟨dummy, rfl, rfl, rfl⟩
    rfl

theorem decodeColrd_eq_ok {j : Instr} {args : List Byte} {rx : Nat} :
    decodeColrd args rx = .ok j ↔ ∃ w dummy, args = colBytes w ++ [dummy] ∧ j = .readCache w rx := by
  constructor
  · intro h
    unfold decodeColrd at h
    split at h
    · cases h; exact ⟨_, _, by rw [colBytes_append]; rfl, rfl⟩
    · cases h
  · rintro ⟨w, dummy, rfl, rfl⟩
    simp only [colBytes, List.cons_append, List.nil_append, decodeColrd, append_colBytes]

theorem decodeColwr_eq_ok {j : Instr} {args : List Byte} {rx : Nat} :
    decodeColwr args rx = .ok j ↔ ∃ w data, args = colBytes w ++ data ∧ rx = 0 ∧ j = .programLoad w data := by
  constructor
  · intro h
    unfold decodeColwr at h
    split at h
    · cases h; exact ⟨_, _, by rw [colBytes_append]; rfl, rfl, rfl⟩
    · cases h
  · rintro ⟨w, data, rfl, rfl, rfl⟩
    simp only [colBytes, List.cons_append, List.nil_append, decodeColwr, append_colBytes]

/-! ### Decode after encode -/

/-- A packed request word decodes by its operation number, each operand read from its own field (R81). -/
theorem decode_encode_host {i : Instr} (h : Claims.isHostOperation i = true) (c : Cfg) :
    decode (encode c i) = .ok i := by
  cases i with
  | init | reset | readId | checkBusy => rfl
  | pageRead addr len | pageProgram addr len | blockErase addr | getFeature reg | setFeature reg wval
  | waitReady att dly => simp [encode, decode, decodeHost]
  | _ => cases h

/-- The first byte selects the format, and the format gives the operands back (R86, R92). -/
theorem decode_encode (c : Cfg) (i : Instr) : decode (encode c i) = .ok i := by
  cases i with
  | translate addr => rfl
  | programLoad w data => exact decodeColwr_eq_ok.2 ⟨w, data, rfl, rfl, rfl⟩
  | readCache w len => exact decodeColrd_eq_ok.2 ⟨w, c.dummy, rfl, rfl⟩
  | programExecute row => exact decodeRow_rowBytes .programExecute Opcode.programExecute row
  | pageReadCmd row => exact decodeRow_rowBytes .pageReadCmd Opcode.pageRead row
  | blockEraseCmd row => exact decodeRow_rowBytes .blockEraseCmd Opcode.blockErase row
  | getFeatures ra | setFeatures ra v | writeDisable | writeEnable | readIdCmd | resetCmd => rfl
  | _ => exact decode_encode_host rfl c

/-! ### Encode after decode -/

/-- A configuration with this dummy byte. -/
def withDummy (b : Byte) : Cfg := { Config.hardware with dummy := b }

/-- The bytes of a transaction that decodes are its instruction's (R86, R103). -/
theorem encode_of_decode_wire {tx : List Byte} {rx : Nat} {i : Instr} (h : decode (.wire tx rx) = .ok i) :
    ∃ c, encode c i = .wire tx rx := by
  cases tx with
  | nil => cases h
  | cons opc args =>
    change decodeWire (opc :: args) rx = _ at h
    unfold decodeWire at h
    obtain ⟨rfl, h⟩ | ⟨-, h⟩ := ite_eq_iff.1 h
    · obtain ⟨w, data, rfl, rfl, rfl⟩ := decodeColwr_eq_ok.1 h
      exact ⟨Config.hardware, rfl⟩
    obtain ⟨rfl, h⟩ | ⟨-, h⟩ := ite_eq_iff.1 h
    · obtain ⟨w, dummy, rfl, rfl⟩ := decodeColrd_eq_ok.1 h
      exact ⟨withDummy dummy, rfl⟩
    obtain ⟨rfl, h⟩ | ⟨-, h⟩ := ite_eq_iff.1 h
    · obtain ⟨rfl, rfl, rfl⟩ := decodeCmd_eq_ok.1 h
      exact ⟨Config.hardware, rfl⟩
    obtain ⟨rfl, h⟩ | ⟨-, h⟩ := ite_eq_iff.1 h
    · obtain ⟨rfl, rfl, rfl⟩ := decodeCmd_eq_ok.1 h
      exact ⟨Config.hardware, rfl⟩
    obtain ⟨rfl, h⟩ | ⟨-, h⟩ := ite_eq_iff.1 h
    · obtain ⟨ra, rfl, rfl, rfl⟩ := decodeGetf_eq_ok.1 h
      exact ⟨Config.hardware, rfl⟩
    obtain ⟨rfl, h⟩ | ⟨-, h⟩ := ite_eq_iff.1 h
    · obtain ⟨row, rfl, rfl, rfl⟩ := decodeRow_eq_ok.1 h
      exact ⟨Config.hardware, rfl⟩
    obtain ⟨rfl, h⟩ | ⟨-, h⟩ := ite_eq_iff.1 h
    · obtain ⟨row, rfl, rfl, rfl⟩ := decodeRow_eq_ok.1 h
      exact ⟨Config.hardware, rfl⟩
    obtain ⟨rfl, h⟩ | ⟨-, h⟩ := ite_eq_iff.1 h
    · obtain ⟨ra, v, rfl, rfl, rfl⟩ := decodeSetf_eq_ok.1 h
      exact ⟨Config.hardware, rfl⟩
    obtain ⟨rfl, h⟩ | ⟨-, h⟩ := ite_eq_iff.1 h
    · obtain ⟨dummy, rfl, rfl, rfl⟩ := decodeId_eq_ok.1 h
      exact ⟨withDummy dummy, rfl⟩
    obtain ⟨rfl, h⟩ | ⟨-, h⟩ := ite_eq_iff.1 h
    · obtain ⟨row, rfl, rfl, rfl⟩ := decodeRow_eq_ok.1 h
      exact ⟨Config.hardware, rfl⟩
    obtain ⟨rfl, h⟩ | ⟨-, h⟩ := ite_eq_iff.1 h
    · obtain ⟨rfl, rfl, rfl⟩ := decodeCmd_eq_ok.1 h
      exact ⟨Config.hardware, rfl⟩
    cases h

/-- Settles O4: each format decodes exactly the bytes it encodes. -/
theorem decodeEncodeAgree : Obligations.DecodeEncodeAgree :=
  ⟨decode_encode, fun _ _ _ => encode_of_decode_wire⟩

/-! ### The request word by arithmetic (R81) -/

theorem opField_toNat (w : RequestWord) : (w.extractLsb' 0 4).toNat = w.toNat % 16 := by
  simp [BitVec.extractLsb'_toNat]

theorem opField_eq (w : RequestWord) : w.extractLsb' 0 4 = BitVec.ofNat 4 (w.toNat % 16) := by
  rw [← opField_toNat, BitVec.ofNat_toNat, BitVec.setWidth_eq]

/-- A number from 10 on selects none of the ten operations, so it is rejected with its number (R99). -/
theorem decodeHost_reserved {w : RequestWord} (h : 10 ≤ w.toNat % 16) :
    decodeHost w = .error (.reservedOperation (BitVec.ofNat 4 (w.toNat % 16))) := by
  obtain ⟨k, hk⟩ := Nat.exists_eq_add_of_le' ((opField_toNat w).symm ▸ h)
  rw [← opField_eq]
  simp only [decodeHost, hk]

theorem hostOpOf_reserved {w : RequestWord} (h : 10 ≤ w.toNat % 16) : hostOpOf w = none := by
  obtain ⟨k, hk⟩ := Nat.exists_eq_add_of_le' ((opField_toNat w).symm ▸ h)
  simp only [hostOpOf, hk]

/-- Settles O3: the operation number selects the arm of the decoder, whose operands are the fields' quotients. -/
theorem requestWordFields : Obligations.RequestWordFields := by
  intro w
  simp only [← extractLsb'_eq_ofNat]
  have hop := opField_toNat w
  refine ⟨?_, ?_, ?_, ?_, ?_, ?_, ?_, ?_, ?_, ?_, fun h => decodeHost_reserved h⟩
  all_goals
    intro h
    simp only [decode, decodeHost, hop, h]

/-- Settles O42: neither the decoder nor the paced form knows the number, so both refuse it. -/
theorem reservedOperationsRefused : Obligations.ReservedOperationsRefused := by
  intro s w rest hidle hop
  have hidle' : ({ s with inputs := rest } : State).seq = .idle := hidle
  constructor
  · have hpresent : step { s with inputs := .present (.host w) :: rest }
        = presentItem (.host w) { s with inputs := rest } := step_present rfl
    rw [hpresent, presentItem_of_idle _ hidle']
    simp only [runItem, decode, decodeHost_reserved hop, refusalOf]
  · have hstart : step { s with inputs := .start w :: rest } = startRequest w { s with inputs := rest } := rfl
    rw [hstart, startRequest, isBusy_of_idle hidle', hostOpOf_reserved hop]
    rfl

/-! ### The spec's numbers and words -/

/-- Settles O1: the constants by evaluation, the four masks for every byte by the laws of the flags. -/
theorem constantsOfTheDocument : Obligations.ConstantsOfTheDocument :=
  ⟨rfl, by decide, fun st => ⟨oip_eq st, wel_eq st, ef_eq st, pf_eq st⟩, rfl, rfl, rfl, rfl, rfl, rfl, rfl, rfl,
    rfl⟩

/-- Settles O2: the decoder evaluated on the spec's words. -/
theorem wordsOfTheSpecDecode : Obligations.WordsOfTheSpecDecode :=
  ⟨rfl, rfl, rfl, rfl, rfl, rfl, rfl, rfl, rfl, rfl, rfl, rfl, rfl, rfl, rfl, rfl, rfl⟩

end Sys2Proof.Proofs.Encoding
end

section
/-! The wire commands presented on their own: each is one transport call, whose answer is the next scheduled one. -/

namespace Sys2Proof.Proofs.WireCommands

open Sys2Proof Sys2Proof.Machine Sys2Proof.Machine.Laws Sys2Proof.Claims Sys2Proof.Proofs.Answers

theorem rowBytes_eq_threeBytes (row : BitVec 24) : rowBytes row = threeBytes row.toNat := by
  calc rowBytes row = rowBytes (BitVec.ofNat 24 row.toNat) := by rw [BitVec.ofNat_toNat, BitVec.setWidth_eq]
    _ = threeBytes row.toNat := rowBytes_ofNat row.toNat

theorem colBytes_eq_twoBytes (w : BitVec 16) : colBytes w = twoBytes w.toNat := by
  calc colBytes w = colBytes (BitVec.ofNat 16 w.toNat) := by rw [BitVec.ofNat_toNat, BitVec.setWidth_eq]
    _ = twoBytes w.toNat := colBytes_ofNat w.toNat

/-- Settles O7: the six commands make calls that receive nothing, so all have the same answer and leave the same
schedule, and only the flag of the two latch commands differs. -/
theorem sendCommandsComplete : Obligations.SendCommandsComplete := by
  intro s row
  rw [← rowBytes_eq_threeBytes]
  exact ⟨s.nextAnswer 0, (transport (.send []) 0 s).2, transport_answered _ 0 s, rfl, rfl, rfl, rfl, rfl, rfl⟩

/-- Settles O8: each command is one call with the bytes and the count of its format. -/
theorem dataCommandsComplete : Obligations.DataCommandsComplete := by
  intro s ra w n data
  rw [← colBytes_eq_twoBytes]
  exact ⟨⟨_, _, rfl, transport_answered _ 1 s, rfl⟩, ⟨_, _, rfl, transport_answered _ 2 s, rfl⟩,
    ⟨_, _, rfl, transport_answered _ n s, rfl⟩, ⟨_, _, rfl, transport_answered _ 0 s, rfl⟩⟩

/-- Past the guard `SET_FEATURES` is its transaction (R143). -/
theorem setFeature_state {ra : Byte} (v : Byte) (s : State) (h : ra ≠ statusAddress) :
    (setFeature ra v s).2 = (txSetf ra v s).2 := by
  rw [setFeature, if_neg h]
  rcases txSetf ra v s with ⟨_ | _, t⟩ <;> rfl

/-- Settles O9: the guard of `setFeature` turns the status register away, and any other address is transmitted. -/
theorem setFeaturesCommand : Obligations.SetFeaturesCommand := by
  intro s ra v
  constructor
  · rintro rfl
    exact congrArg (fun out => Host.Outcome.next out.2) (setFeature_status v s)
  · intro h
    exact ⟨_, _, congrArg Host.Outcome.next (setFeature_state v s h), transport_answered _ 0 s, rfl⟩

end Sys2Proof.Proofs.WireCommands
end

section
/-! The calls an operation makes: the seven wire formats with operands in form, that every step of every host operation
appends only such calls, and what that says of the bytes transmitted and of their decoding. -/

namespace Sys2Proof.Proofs.Emission

open Sys2Proof Sys2Proof.Laws Sys2Proof.Machine Sys2Proof.Machine.Laws Sys2Proof.Claims Sys2Proof.Proofs.Encoding

/-! ### The calls an operation may make -/

/-- A delay, or a call in one of the seven formats of R86 whose operands are in form under the configuration `c`. -/
inductive Emittable (c : Cfg) : Call → Prop
  | delay (ms : Nat) : Emittable c (.delay ms)
  | command {opc : Byte} (hopc : opc ∈ [Opcode.reset, Opcode.writeEnable, Opcode.writeDisable]) (a : Answer) :
      Emittable c (.send [opc] a)
  | row {opc : Byte} {row : BitVec 24} (hopc : opc ∈ [Opcode.pageRead, Opcode.programExecute, Opcode.blockErase])
      (hrow : isRowAddress row = true) (a : Answer) : Emittable c (.send (opc :: rowBytes row) a)
  | getFeatures {ra : Byte} (hra : isFeatureAddress ra = true) (a : Answer) :
      Emittable c (.sendReceive [Opcode.getFeatures, ra] 1 a)
  | setFeatures {ra : Byte} (hra : isFeatureAddress ra = true) (hstatus : ra ≠ statusAddress) (v : Byte)
      (a : Answer) : Emittable c (.send [Opcode.setFeatures, ra, v] a)
  | readId (a : Answer) : Emittable c (.sendReceive [Opcode.readId, c.dummy] 2 a)
  | readCache {w : BitVec 16} {n : Nat} (hw : isColumnWord c w = true) (hn : n ≤ Config.pageSize) (a : Answer) :
      Emittable c (.sendReceive (Opcode.readCache :: (colBytes w ++ [c.dummy])) n a)
  | programLoad {w : BitVec 16} {data : List Byte} (hw : isColumnWord c w = true)
      (hdata : data.length ≤ Config.pageDataSize) (a : Answer) :
      Emittable c (.sendCommandThenData (Opcode.programLoad :: colBytes w) data a)

/-- The words a call in form is described in by O32. -/
theorem isWireFormat_of_emittable {c : Cfg} {call : Call} (h : Emittable c call) : isWireFormat call = true := by
  cases h with
  | delay ms => rfl
  | command hopc a =>
    simp only [List.mem_cons, List.not_mem_nil, or_false] at hopc
    obtain rfl | rfl | rfl := hopc <;> rfl
  | row hopc hrow a =>
    simp only [List.mem_cons, List.not_mem_nil, or_false] at hopc
    obtain rfl | rfl | rfl := hopc <;> rfl
  | getFeatures hra a => exact hra
  | setFeatures hra hstatus v a =>
    simp only [isFeatureAddress, Bool.or_eq_true, beq_iff_eq] at hra
    obtain ((rfl | rfl) | rfl) | rfl := hra
    · rfl
    · rfl
    · exact absurd rfl hstatus
    · rfl
  | readId a => rfl
  | readCache hw hn a => exact decide_eq_true hn
  | programLoad hw hdata a => exact decide_eq_true hdata

/-- A call in form that is no delay carries the encoding of a well-formed wire instruction. -/
theorem encode_of_emittable {c : Cfg} {call : Call} (h : Emittable c call) :
    (∃ ms, call = .delay ms) ∨ ∃ j, encode c j = .wire (txBytes call) (rxCount call) ∧ j.wf c = true := by
  cases h with
  | delay ms => exact .inl ⟨ms, rfl⟩
  | command hopc a =>
    simp only [List.mem_cons, List.not_mem_nil, or_false] at hopc
    obtain rfl | rfl | rfl := hopc
    · exact .inr ⟨.resetCmd, rfl, rfl⟩
    · exact .inr ⟨.writeEnable, rfl, rfl⟩
    · exact .inr ⟨.writeDisable, rfl, rfl⟩
  | @row opc row hopc hrow a =>
    simp only [List.mem_cons, List.not_mem_nil, or_false] at hopc
    obtain rfl | rfl | rfl := hopc
    · exact .inr ⟨.pageReadCmd row, rfl, hrow⟩
    · exact .inr ⟨.programExecute row, rfl, hrow⟩
    · exact .inr ⟨.blockEraseCmd row, rfl, hrow⟩
  | getFeatures hra a => exact .inr ⟨.getFeatures _, rfl, hra⟩
  | setFeatures hra hstatus v a =>
    exact .inr ⟨.setFeatures _ v, rfl, by simpa [Instr.wf, hra, statusAddress] using hstatus⟩
  | readId a => exact .inr ⟨.readIdCmd, rfl, rfl⟩
  | @readCache w n hw hn a => exact .inr ⟨.readCache w n, rfl, by simp [Instr.wf, hw, hn]⟩
  | @programLoad w data hw hdata a => exact .inr ⟨.programLoad w data, rfl, by simp [Instr.wf, hw, hdata]⟩

/-! ### The operands an operation transmits are in form -/

theorem isFeatureAddress_regAddr (reg : BitVec 2) : isFeatureAddress (regAddr reg) = true := by
  revert reg; decide

/-- The row of an in-range address, `addr / 2048`, is below `2^17` (R89, R116). -/
theorem isRowAddress_of_translate {addr : LogicalAddress} {p : Phys} (h : Machine.translate addr = some p) :
    isRowAddress p.rowAddr = true := by
  unfold Machine.translate at h
  split at h
  next hrange =>
    cases h
    have hlt := (inRange_iff addr).1 hrange
    simp only [isRowAddress, rowOf_eq, BitVec.toNat_ofNat, decide_eq_true_eq]
    omega
  next => cases h

/-- The form of R90 by arithmetic. -/
theorem isColumnWord_ofNat {c : Cfg} {n : Nat} (hn : n < 8192) (hplane : c.planeInCol = true ∨ n < 4096)
    (hcol : n % 4096 < 2176) : isColumnWord c (BitVec.ofNat 16 n) = true := by
  have hhigh : (BitVec.ofNat 16 n).extractLsb' 13 3 = 0 := by
    have hquot : n % 2 ^ 16 / 2 ^ 13 = 0 := by omega
    rw [extractLsb'_eq_ofNat, BitVec.toNat_ofNat, hquot]
    rfl
  have hbit : c.planeInCol = true ∨ (BitVec.ofNat 16 n).getLsbD 12 = false :=
    hplane.imp_right fun h => by
      rw [BitVec.getLsbD_ofNat, Nat.testBit_lt_two_pow h, Bool.and_false]
  have hlow : ((BitVec.ofNat 16 n).extractLsb' 0 12).toNat < Config.pageSize := by
    rw [extractLsb'_eq_ofNat, BitVec.toNat_ofNat, BitVec.toNat_ofNat, show Config.pageSize = 2176 from rfl]
    omega
  simp only [isColumnWord, Bool.and_eq_true, Bool.or_eq_true, Bool.not_eq_true', beq_iff_eq, decide_eq_true_eq]
  exact ⟨⟨hhigh, hbit⟩, hlow⟩

/-- The column is below 2048, and the plane adds bit 12 only under `cfg.PLANE_IN_COL` (R90). -/
theorem isColumnWord_of_translate {addr : LogicalAddress} {p : Phys} (c : Cfg)
    (h : Machine.translate addr = some p) : isColumnWord c (colWord c p) = true := by
  rw [colWord_translate c h]
  cases hc : c.planeInCol with
  | false =>
    rw [if_neg Bool.false_ne_true]
    exact isColumnWord_ofNat (by omega) (.inr (by omega)) (by omega)
  | true =>
    rw [if_pos rfl]
    exact isColumnWord_ofNat (by omega) (.inl hc) (by omega)

/-! ### The invariant -/

/-- So far only calls in form have been made, and `cfg` and the byte count latched, `len`, still stand. -/
structure Emitted (c : Cfg) (len : BitVec 16) (s : State) : Prop where
  cfg : s.cfg = c
  len : s.r.len = len
  calls : ∀ call ∈ s.trace, Emittable c call

section
variable {c : Cfg} {len : BitVec 16} {s : State} {k : ResultKind} (h : Emitted c len s)
include h

theorem emitted_append {t : State} {calls : List Call} (hcalls : ∀ call ∈ calls, Emittable c call)
    (htrace : t.trace = s.trace ++ calls) (hcfg : t.cfg = s.cfg) (hlen : t.r.len = s.r.len) : Emitted c len t := by
  refine ⟨hcfg.trans h.cfg, hlen.trans h.len, fun call hcall => ?_⟩
  rw [htrace, List.mem_append] at hcall
  exact hcall.elim (h.calls call) (hcalls call)

theorem emitted_of_eq {t : State} (htrace : t.trace = s.trace) (hcfg : t.cfg = s.cfg) (hlen : t.r.len = s.r.len) :
    Emitted c len t :=
  emitted_append h (calls := []) (by simp) (by simp [htrace]) hcfg hlen

/-! ### The shared operations -/

theorem emitted_delay (ms : Nat) : Emitted c len (delay ms s) :=
  emitted_append h (by simpa using Emittable.delay ms) rfl rfl rfl

theorem emitted_transport {mk : Answer → Call} (hmk : ∀ a, Emittable c (mk a)) (n : Nat) :
    Emitted c len (transport mk n s).2 :=
  emitted_append h (by simpa using hmk _) rfl rfl rfl

theorem emitted_command {opc : Byte} (hopc : opc ∈ [Opcode.reset, Opcode.writeEnable, Opcode.writeDisable]) :
    Emitted c len (txCmd opc s).2 :=
  emitted_transport h (.command hopc) 0

theorem emitted_row {opc : Byte} (hopc : opc ∈ [Opcode.pageRead, Opcode.programExecute, Opcode.blockErase])
    {addr : LogicalAddress} {p : Phys} (hp : Machine.translate addr = some p) :
    Emitted c len (txRow opc p.rowAddr s).2 :=
  emitted_transport h (.row hopc (isRowAddress_of_translate hp)) 0

theorem emitted_getFeature {ra : Byte} (hra : isFeatureAddress ra = true) : Emitted c len (getFeature ra s).2 :=
  emitted_transport h (.getFeatures hra) 1

theorem emitted_statusRead : Emitted c len (getFeature statusAddress s).2 :=
  emitted_getFeature h rfl

theorem emitted_setFeature {ra : Byte} (hra : isFeatureAddress ra = true) (v : Byte) :
    Emitted c len (setFeature ra v s).2 := by
  by_cases hstatus : ra = statusAddress
  · rw [hstatus, setFeature_status]
    exact h
  · rw [WireCommands.setFeature_state v s hstatus]
    exact emitted_transport h (.setFeatures hra hstatus v) 0

theorem emitted_writeEnable : Emitted c len (writeEnable s).2 :=
  emitted_of_eq (emitted_command h (opc := Opcode.writeEnable) (by simp)) rfl rfl rfl

theorem emitted_writeDisable : Emitted c len (writeDisable s).2 :=
  emitted_of_eq (emitted_command h (opc := Opcode.writeDisable) (by simp)) rfl rfl rfl

theorem emitted_respond : Emitted c len (respond k s) :=
  emitted_of_eq h rfl rfl rfl

theorem emitted_raise : Emitted c len (raise k s) := by
  refine emitted_respond ?_
  unfold cleanup
  split
  · exact emitted_writeDisable h
  · exact h

theorem emitted_raise_setTerr (e : TransportError) : Emitted c len (raise k (s.setTerr e)) :=
  emitted_raise (emitted_of_eq h rfl rfl rfl)

/-- A poll reads the status register and delays (R126). -/
theorem emitted_waitUntilReady (p : PollCfg) : Emitted c len (waitUntilReady p s).2 := by
  obtain ⟨out, k, st, hrun, -⟩ := waitUntilReady_spec p s
  have hread (a : Answer) : Emittable c (statusCall a) := .getFeatures (ra := statusAddress) rfl a
  rw [hrun]
  refine emitted_append h (calls := waitCalls p.interPollDelay (nextAnswers (k + 1) s)) ?_ rfl rfl rfl
  intro call hcall
  simp only [nextAnswers, waitCalls, loopCalls, List.mem_cons, List.mem_flatMap, List.not_mem_nil, or_false] at hcall
  obtain rfl | ⟨a, -, rfl | rfl⟩ := hcall
  · exact hread _
  · exact .delay _
  · exact hread a

/-! ### The operations without an address -/

theorem emitted_waitReadyOp : Emitted c len (waitReadyOp s) := by
  have hpoll := emitted_waitUntilReady h (s.pollCfg .waitReady)
  unfold waitReadyOp
  rcases hout : waitUntilReady (s.pollCfg .waitReady) s with ⟨_ | _ | e, t⟩ <;> rw [hout] at hpoll
  · exact emitted_respond hpoll
  · exact emitted_raise hpoll
  · exact emitted_raise_setTerr hpoll e

theorem emitted_getFeatureOp : Emitted c len (getFeatureOp s) := by
  have hread := emitted_getFeature h (isFeatureAddress_regAddr s.r.reg)
  unfold getFeatureOp
  rcases hout : getFeature (regAddr s.r.reg) s with ⟨rx | e, t⟩ <;> rw [hout] at hread
  · dsimp only
    rw [sampleStatus_reg]
    exact emitted_respond (emitted_of_eq hread rfl rfl rfl)
  · exact emitted_raise_setTerr hread e

theorem emitted_setFeatureOp : Emitted c len (setFeatureOp s) := by
  have hset := emitted_setFeature h (isFeatureAddress_regAddr s.r.reg) s.r.wval
  unfold setFeatureOp
  rcases hout : setFeature (regAddr s.r.reg) s.r.wval s with ⟨_ | _ | e, t⟩ <;> rw [hout] at hset
  · exact emitted_respond hset
  · exact emitted_raise hset
  · exact emitted_raise_setTerr hset e

theorem emitted_checkBusyOp : Emitted c len (checkBusyOp s) := by
  have hread := emitted_statusRead h
  unfold checkBusyOp
  rcases hout : getFeature statusAddress s with ⟨rx | e, t⟩ <;> rw [hout] at hread
  · exact emitted_respond (emitted_of_eq hread rfl rfl rfl)
  · exact emitted_raise_setTerr hread e

theorem emitted_resetSteps (caller : PollCaller) : Emitted c len (resetSteps caller s).2 := by
  have hsend := emitted_command h (opc := Opcode.reset) (by simp)
  unfold resetSteps
  rcases hout : txCmd Opcode.reset s with ⟨_ | _, t⟩ <;> rw [hout] at hsend
  · have hpoll := emitted_waitUntilReady (emitted_delay hsend t.cfg.tPorMs) (t.pollCfg caller)
    dsimp only
    rcases hend : waitUntilReady (t.pollCfg caller) (delay t.cfg.tPorMs t) with ⟨_ | _ | _, u⟩ <;>
      rw [hend] at hpoll <;> exact hpoll
  · exact hsend

theorem emitted_resetOp : Emitted c len (resetOp s) := by
  have hreset := emitted_resetSteps h .reset
  unfold resetOp
  split <;> rename_i hout <;> rw [hout] at hreset
  · exact emitted_respond hreset
  · exact emitted_raise hreset

theorem emitted_identitySteps : Emitted c len (identitySteps s).2 := by
  have hid : Emitted c len (txId s).2 := emitted_transport h (fun a => h.cfg ▸ .readId a) 2
  unfold identitySteps
  rcases hout : txId s with ⟨rx | e, t⟩ <;> rw [hout] at hid
  · exact emitted_of_eq hid rfl rfl rfl
  · exact hid

theorem emitted_readIdOp : Emitted c len (readIdOp s) := by
  have hid := emitted_identitySteps h
  unfold readIdOp
  rcases hout : identitySteps s with ⟨rx | e, t⟩ <;> rw [hout] at hid
  · exact emitted_respond hid
  · exact emitted_raise_setTerr hid e

theorem emitted_initIdentity : Emitted c len (initIdentity s) := by
  have hid := emitted_identitySteps h
  unfold initIdentity
  rcases hout : identitySteps s with ⟨rx | e, t⟩ <;> rw [hout] at hid
  · dsimp only
    split
    · exact emitted_respond hid
    · exact emitted_raise hid
  · exact emitted_raise hid

theorem emitted_initOp : Emitted c len (initOp s) := by
  have hreset := emitted_resetSteps (emitted_delay h s.cfg.tPorMs) .init
  unfold initOp
  split <;> rename_i hout <;> rw [hout] at hreset
  · exact emitted_initIdentity hreset
  · exact emitted_raise hreset

/-! ### `PAGE_READ`: past its length guard the count of the cache read is within the page (R171) -/

theorem emitted_readFailure : Emitted c len (readFailure k s) :=
  emitted_raise (emitted_of_eq (t := spoilBuffer s) h rfl rfl rfl)

theorem emitted_readCacheStep {addr : LogicalAddress} {p : Phys} (hp : Machine.translate addr = some p)
    (hlen : len.toNat ≤ Config.pageSize) : Emitted c len (readCacheStep p s) := by
  have hread : Emitted c len (txColrd (colWord s.cfg p) s.r.len.toNat s).2 := by
    refine emitted_transport h (fun a => ?_) _
    rw [h.cfg, h.len]
    exact .readCache (isColumnWord_of_translate c hp) hlen a
  unfold readCacheStep
  rcases hout : txColrd (colWord s.cfg p) s.r.len.toNat s with ⟨rx | e, t⟩ <;> rw [hout] at hread
  · exact emitted_respond (emitted_of_eq (t := { t with buf := Buffer.storePrefix t.buf rx }) hread rfl rfl rfl)
  · exact emitted_readFailure hread

theorem emitted_pageReadOp : Emitted c len (pageReadOp s) := by
  unfold pageReadOp
  split
  next => exact emitted_readFailure h
  next hguard =>
    have hlen : len.toNat ≤ Config.pageSize := h.len ▸ Nat.le_of_not_lt hguard
    split
    next => exact emitted_readFailure h
    next p hp =>
      have hrow := emitted_row h (opc := Opcode.pageRead) (by simp) hp
      rcases hout : txRow Opcode.pageRead p.rowAddr s with ⟨_ | _, t⟩ <;> rw [hout] at hrow
      · have hpoll := emitted_waitUntilReady hrow (t.pollCfg .pageRead)
        dsimp only
        rcases hend : waitUntilReady (t.pollCfg .pageRead) t with ⟨_ | _ | _, u⟩ <;> rw [hend] at hpoll
        · exact emitted_readCacheStep hpoll hp hlen
        · exact emitted_readFailure hpoll
        · exact emitted_readFailure hpoll
      · exact emitted_readFailure hrow

end

/-! ### The write-enable bracket -/

theorem emitted_noteAnswer {c : Cfg} {len : BitVec 16} {out : Answer × State} (h : Emitted c len out.2) :
    Emitted c len (noteAnswer out) := by
  obtain ⟨_ | _, t⟩ := out
  · exact h
  · exact emitted_of_eq h rfl rfl rfl

theorem emitted_notePoll {c : Cfg} {len : BitVec 16} {out : PollResult × State} (h : Emitted c len out.2) :
    Emitted c len (notePoll out) := by
  obtain ⟨_ | _ | _, t⟩ := out
  · exact h
  · exact emitted_of_eq h rfl rfl rfl
  · exact emitted_of_eq h rfl rfl rfl

section
variable {c : Cfg} {len : BitVec 16} {s : State} {k : ResultKind} (h : Emitted c len s)
include h

theorem emitted_whenOk {step : State → State} (hstep : Emitted c len s → Emitted c len (step s)) :
    Emitted c len (whenOk step s) := by
  unfold whenOk
  split
  · exact hstep h
  · exact h

theorem emitted_closeBracket (failBit : Byte → Bool) : Emitted c len (closeBracket failBit k s) := by
  unfold closeBracket
  split
  · have hread := emitted_statusRead h
    rcases hout : getFeature statusAddress s with ⟨rx | e, t⟩ <;> rw [hout] at hread
    · have hsample : Emitted c len (t.sample (byteAt rx 0)) := emitted_of_eq hread rfl rfl rfl
      dsimp only
      split
      · exact emitted_raise hsample
      · exact emitted_respond hsample
    · exact emitted_raise hread
  · exact emitted_raise h

theorem emitted_openBracket : Emitted c len (noteAnswer (writeEnable (s.setOk true))) :=
  emitted_noteAnswer (emitted_writeEnable (emitted_of_eq h rfl rfl rfl))

/-- The row command of a bracket, its poll, the write-disable, and the end of the bracket. -/
theorem emitted_rowAndClose {opc : Byte} (hopc : opc ∈ [Opcode.pageRead, Opcode.programExecute, Opcode.blockErase])
    {addr : LogicalAddress} {p : Phys} (hp : Machine.translate addr = some p) (caller : PollCaller)
    (failBit : Byte → Bool) :
    Emitted c len (closeBracket failBit k (noteAnswer (writeDisable
      (whenOk (fun s => notePoll (waitUntilReady (s.pollCfg caller) s))
        (whenOk (fun s => noteAnswer (txRow opc p.rowAddr s)) s))))) := by
  have hrow : Emitted c len (whenOk (fun s => noteAnswer (txRow opc p.rowAddr s)) s) :=
    emitted_whenOk h fun h => emitted_noteAnswer (emitted_row h hopc hp)
  have hpoll := emitted_whenOk (step := fun s => notePoll (waitUntilReady (s.pollCfg caller) s)) hrow
    fun h => emitted_notePoll (emitted_waitUntilReady h _)
  exact emitted_closeBracket (emitted_noteAnswer (emitted_writeDisable hpoll)) failBit

/-- The payload is `Buf[0..len)`, within the page's data area past the length guard (R175, R97). -/
theorem emitted_programLoadStep {addr : LogicalAddress} {p : Phys} (hp : Machine.translate addr = some p)
    (hlen : len.toNat ≤ Config.pageDataSize) : Emitted c len (programLoadStep p s) := by
  refine emitted_noteAnswer (emitted_transport h (fun a => ?_) 0)
  rw [h.cfg, h.len]
  exact .programLoad (isColumnWord_of_translate c hp) (by simpa [Buffer.prefixBytes] using hlen) a

theorem emitted_pageProgramOp : Emitted c len (pageProgramOp s) := by
  unfold pageProgramOp
  split
  next => exact emitted_raise h
  next hguard =>
    have hlen : len.toNat ≤ Config.pageDataSize := h.len ▸ Nat.le_of_not_lt hguard
    split
    next => exact emitted_raise h
    next p hp =>
      have hload := emitted_whenOk (emitted_openBracket h) fun h => emitted_programLoadStep h hp hlen
      exact emitted_rowAndClose hload (by simp) hp _ _

theorem emitted_blockEraseOp : Emitted c len (blockEraseOp s) := by
  unfold blockEraseOp
  split
  next => exact emitted_raise h
  next p hp => exact emitted_rowAndClose (emitted_openBracket h) (by simp) hp _ _

end

/-! ### Every host operation -/

/-- An accepted request begins a new trace; an operation that keeps the invariant, whatever its count, ends in it. -/
theorem emittable_request {s : State} {op : HostOp} {operands : Regs → Regs} {run : State → State}
    (hidle : s.seq = .idle) (hrun : ∀ {len t}, Emitted s.cfg len t → Emitted s.cfg len (run t)) :
    ∀ call ∈ (request op operands run s).trace, Emittable s.cfg call := by
  have haccept : Emitted s.cfg (operands s.r).len (accept op (s.withRegs operands)) := ⟨rfl, rfl, by simp⟩
  rw [request_idle op operands run hidle]
  exact (hrun haccept).calls

/-- Every call of every host operation is in form. -/
theorem exec_emittable {s : State} {i : Instr} (hidle : s.seq = .idle) (hhost : isHostOperation i = true) :
    ∃ t, exec i s = .next t ∧ ∀ call ∈ t.trace, Emittable s.cfg call := by
  cases i with
  | init => exact ⟨_, rfl, emittable_request hidle emitted_initOp⟩
  | reset => exact ⟨_, rfl, emittable_request hidle emitted_resetOp⟩
  | readId => exact ⟨_, rfl, emittable_request hidle emitted_readIdOp⟩
  | pageRead addr len => exact ⟨_, rfl, emittable_request hidle emitted_pageReadOp⟩
  | pageProgram addr len => exact ⟨_, rfl, emittable_request hidle emitted_pageProgramOp⟩
  | blockErase addr => exact ⟨_, rfl, emittable_request hidle emitted_blockEraseOp⟩
  | getFeature reg => exact ⟨_, rfl, emittable_request hidle emitted_getFeatureOp⟩
  | setFeature reg wval => exact ⟨_, rfl, emittable_request hidle emitted_setFeatureOp⟩
  | waitReady att dly => exact ⟨_, rfl, emittable_request hidle emitted_waitReadyOp⟩
  | checkBusy => exact ⟨_, rfl, emittable_request hidle emitted_checkBusyOp⟩
  | _ => cases hhost

/-- Settles O32: every call made is in form, and so in one of the seven formats. -/
theorem onlyWireFormatsEmitted : Obligations.OnlyWireFormatsEmitted := by
  intro s i hidle _ hhost
  obtain ⟨t, hexec, hcalls⟩ := exec_emittable hidle hhost
  exact ⟨t, hexec, fun call hcall => isWireFormat_of_emittable (hcalls call hcall)⟩

/-- Settles O33: every call made carries the encoding of a well-formed instruction, which decodes to it by O4. -/
theorem emittedCallsAreWellFormed : Obligations.EmittedCallsAreWellFormed := by
  intro s i hidle _ hhost
  obtain ⟨t, hexec, hcalls⟩ := exec_emittable hidle hhost
  refine ⟨t, hexec, fun call hcall => ?_⟩
  obtain hdelay | ⟨j, hencode, hwf⟩ := encode_of_emittable (hcalls call hcall)
  · exact .inl hdelay
  · exact .inr ⟨j, hencode ▸ decode_encode s.cfg j, hwf⟩

end Sys2Proof.Proofs.Emission
end

section
/-! PROOFS. The Address Translator (spec/40_address_translator.md): its fields as quotients and remainders of the
address (R112 to R117), when there are any (R111, R121), and that block, page and column determine the address (R119). -/

namespace Sys2Proof.Proofs.Translator

open Sys2Proof Sys2Proof.Machine Sys2Proof.Machine.Laws

/-! ### What the translator puts out -/

/-- The fields of the address `n` by arithmetic in place of shifts and masks. -/
def physOf (n : Nat) : Phys where
  block   := BitVec.ofNat 11 (n / 131072)
  plane   := BitVec.ofNat 1 (n / 131072 % 2)
  page    := BitVec.ofNat 6 (n / 2048 % 64)
  col     := BitVec.ofNat 11 (n % 2048)
  rowAddr := BitVec.ofNat 24 (n / 2048)
  colAddr := BitVec.ofNat 12 (n % 2048)

theorem translate_eq_physOf {a : LogicalAddress} (h : a.toNat < 268435456) :
    Machine.translate a = some (physOf a.toNat) := by
  rw [translate_of_inRange h, blockOf_eq, planeOf_eq, pageOf_eq, colOf_eq, rowOf_eq, physOf]

/-- Every output of the translator is that of an address in range (R111, R121). -/
theorem translate_eq_some {a : LogicalAddress} {p : Phys} (h : Machine.translate a = some p) :
    a.toNat < 268435456 ∧ p = physOf a.toNat := by
  obtain hlt | hge := Nat.lt_or_ge a.toNat 268435456
  · rw [translate_eq_physOf hlt] at h
    exact ⟨hlt, (Option.some.inj h).symm⟩
  · rw [translate_of_not_inRange hge] at h
    cases h

theorem exec_translate (a : LogicalAddress) (s : State) :
    exec (.translate a) s = .next { s with xaddr := a } := rfl

/-! ### The fields as numbers -/

theorem toNat_ofNat_of_lt {w n : Nat} (h : n < 2 ^ w) : (BitVec.ofNat w n).toNat = n :=
  (BitVec.toNat_ofNat ..).trans (Nat.mod_eq_of_lt h)

/-- The fields that are remainders fit in their widths whatever the address (R113 to R115, R117). -/
theorem physOf_plane_toNat (n : Nat) : (physOf n).plane.toNat = n / 131072 % 2 := toNat_ofNat_of_lt (by omega)
theorem physOf_page_toNat (n : Nat) : (physOf n).page.toNat = n / 2048 % 64 := toNat_ofNat_of_lt (by omega)
theorem physOf_col_toNat (n : Nat) : (physOf n).col.toNat = n % 2048 := toNat_ofNat_of_lt (by omega)
theorem physOf_colAddr_toNat (n : Nat) : (physOf n).colAddr.toNat = n % 2048 := toNat_ofNat_of_lt (by omega)

/-- The fields that are quotients fit for an address in range (R112, R116). -/
theorem physOf_block_toNat {n : Nat} (hn : n < 268435456) : (physOf n).block.toNat = n / 131072 :=
  toNat_ofNat_of_lt (by omega)
theorem physOf_rowAddr_toNat {n : Nat} (hn : n < 268435456) : (physOf n).rowAddr.toNat = n / 2048 :=
  toNat_ofNat_of_lt (by omega)

/-- Settles O5: the fields by arithmetic, of which the row address joins block and page, and no output out of range. -/
theorem translateFields : Obligations.TranslateFields := by
  intro a s
  refine ⟨_, exec_translate a s, rfl, fun hlt => ?_, fun hge => ?_⟩
  · have hrow : a.toNat / 2048 = a.toNat / 131072 * 64 + a.toNat / 2048 % 64 := by omega
    refine ⟨physOf a.toNat, translate_eq_physOf hlt, ?_⟩
    rw [physOf_block_toNat hlt, physOf_rowAddr_toNat hlt, physOf_plane_toNat, physOf_page_toNat, physOf_col_toNat,
      physOf_colAddr_toNat]
    exact ⟨rfl, by omega, rfl, rfl, by omega, rfl, hrow, rfl⟩
  · exact translate_of_not_inRange hge

/-! ### Block, page and column determine the address -/

/-- Block, page and column are the digits of the address in mixed radix, each digit but the first below its radix. -/
theorem fields_eq_iff {n block page col : Nat} (hpage : page < 64) (hcol : col < 2048) :
    (n / 131072 = block ∧ n / 2048 % 64 = page ∧ n % 2048 = col) ↔ n = block * 2 ^ 17 + page * 2 ^ 11 + col := by
  omega

/-- The numeral of a triple is in range, and is the only address that has the triple's fields (R118, R119). -/
theorem translatesTo_iff {a : LogicalAddress} {block page col : Nat} (hblock : block < 2048) (hpage : page < 64)
    (hcol : col < 2048) :
    (∃ p, Machine.translate a = some p ∧ p.block.toNat = block ∧ p.page.toNat = page ∧ p.col.toNat = col) ↔
      a.toNat = block * 2 ^ 17 + page * 2 ^ 11 + col := by
  rw [← fields_eq_iff hpage hcol]
  constructor
  · rintro ⟨p, hp, hfields⟩
    obtain ⟨hlt, rfl⟩ := translate_eq_some hp
    rwa [physOf_block_toNat hlt, physOf_page_toNat, physOf_col_toNat] at hfields
  · intro hfields
    have hlt : a.toNat < 268435456 := by omega
    refine ⟨_, translate_eq_physOf hlt, ?_⟩
    rwa [physOf_block_toNat hlt, physOf_page_toNat, physOf_col_toNat]

/-- Settles O6: the address of a triple is the numeral it forms, which fits in an address, and it has no other. -/
theorem translationBijective : Obligations.TranslationBijective := by
  intro block page col hblock hpage hcol
  have hnumeral : (BitVec.ofNat 32 (block * 2 ^ 17 + page * 2 ^ 11 + col)).toNat =
      block * 2 ^ 17 + page * 2 ^ 11 + col :=
    toNat_ofNat_of_lt (by omega)
  refine ⟨_, hnumeral, (translatesTo_iff hblock hpage hcol).2 hnumeral, fun b q hq hb hp hc => ?_⟩
  have hunique := (translatesTo_iff hblock hpage hcol).1 ⟨q, hq, hb, hp, hc⟩
  exact BitVec.eq_of_toNat_eq (hunique.trans hnumeral.symm)

end Sys2Proof.Proofs.Translator
end

section
/-! Bounded termination of the sequencer: how many of its steps an operation has left at each step it can stand at, and
that each step of the sequencer lowers that number. -/

namespace Sys2Proof.Proofs.Ending

open Sys2Proof Sys2Proof.Machine Sys2Proof.Machine.Laws Sys2Proof.Claims

/-! ### The steps left -/

/-- The steps a poll's caller has left after the poll, at most. -/
def stepsAfterPoll : PollCaller → Nat
  | .init        => 1
  | .reset       => 0
  | .pageRead    => 1
  | .pageProgram => 2
  | .blockErase  => 2
  | .waitReady   => 0

/-- The steps left at a step of a poll, at most: two for each attempt not yet begun, and those of the caller. At the
delay one attempt is always begun, whatever the counter says, so that no step needs the invariant. -/
def stepsAtPoll (s : State) (c : PollCaller) : PollStep → Nat
  | .first => 2 * (s.pollCfg c).maxAttempts + 1 + stepsAfterPoll c
  | .delay => 2 * ((s.pollCfg c).maxAttempts - (s.r.cnt + 1)) + 2 + stepsAfterPoll c
  | .read  => 2 * ((s.pollCfg c).maxAttempts - s.r.cnt) + 1 + stepsAfterPoll c

theorem stepsAfterPoll_lt_first (s : State) (c : PollCaller) : stepsAfterPoll c < stepsAtPoll s c .first := by
  simp only [stepsAtPoll]
  omega

/-- The steps left at a step of an operation, at most. -/
def stepsAt (s : State) : SeqStep → Nat
  | .initDelay         => stepsAtPoll s .init .first + 3
  | .resetSend inInit  => stepsAtPoll s (if inInit then .init else .reset) .first + 2
  | .resetDelay inInit => stepsAtPoll s (if inInit then .init else .reset) .first + 1
  | .poll c at_        => stepsAtPoll s c at_
  | .identity _        => 1
  | .readGuards        => stepsAtPoll s .pageRead .first + 2
  | .readLoad          => stepsAtPoll s .pageRead .first + 1
  | .readCache         => 1
  | .programGuards     => stepsAtPoll s .pageProgram .first + 4
  | .programEnable     => stepsAtPoll s .pageProgram .first + 3
  | .programLoad       => stepsAtPoll s .pageProgram .first + 2
  | .programExecute    => stepsAtPoll s .pageProgram .first + 1
  | .programDisable    => 2
  | .programCheck      => 1
  | .eraseGuards       => stepsAtPoll s .blockErase .first + 3
  | .eraseEnable       => stepsAtPoll s .blockErase .first + 2
  | .eraseCommand      => stepsAtPoll s .blockErase .first + 1
  | .eraseDisable      => 2
  | .eraseCheck        => 1
  | .getFeature        => 1
  | .setFeature        => 1
  | .checkBusy         => 1

/-- The steps of the sequencer left before `IDLE`, at most. -/
def stepsLeft (s : State) : Nat :=
  match s.seq with
  | .idle  => 0
  | .run p => stepsAt s p

theorem stepsLeft_of_idle {s : State} (h : s.seq = .idle) : stepsLeft s = 0 := by
  simp only [stepsLeft, h]

theorem stepsLeft_of_run {s : State} {p : SeqStep} (h : s.seq = .run p) : stepsLeft s = stepsAt s p := by
  simp only [stepsLeft, h]

/-! ### What the number depends on -/

/-- `t` has the configuration, the request's poll bound and the attempt counter of `s`. -/
structure SameBounds (s t : State) : Prop where
  cfg : t.cfg = s.cfg
  att : t.r.att = s.r.att
  cnt : t.r.cnt = s.r.cnt

theorem maxAttempts_congr {s t : State} (hcfg : t.cfg = s.cfg) (hatt : t.r.att = s.r.att) (c : PollCaller) :
    (t.pollCfg c).maxAttempts = (s.pollCfg c).maxAttempts := by
  cases c <;> simp only [State.pollCfg, hcfg, hatt]

theorem stepsAtPoll_congr {s t : State} (h : SameBounds s t) (c : PollCaller) (at_ : PollStep) :
    stepsAtPoll t c at_ = stepsAtPoll s c at_ := by
  cases at_ <;> simp only [stepsAtPoll, maxAttempts_congr h.cfg h.att, h.cnt]

theorem stepsAt_congr {s t : State} (h : SameBounds s t) (p : SeqStep) : stepsAt t p = stepsAt s p := by
  cases p <;> simp only [stepsAt, stepsAtPoll_congr h]

theorem stepsLeft_goto_of_sameBounds {s t : State} (h : SameBounds s t) (p : SeqStep) :
    stepsLeft (t.goto p) = stepsAt s p :=
  stepsAt_congr (t := t.goto p) ⟨h.cfg, h.att, h.cnt⟩ p

theorem stepsLeft_goto (s : State) (p : SeqStep) : stepsLeft (s.goto p) = stepsAt s p :=
  stepsLeft_goto_of_sameBounds ⟨rfl, rfl, rfl⟩ p

theorem sameBounds_noteAnswer {s : State} {x : Answer × State} (h : SameBounds s x.2) :
    SameBounds s (noteAnswer x) := by
  obtain ⟨_ | _, t⟩ := x <;> exact ⟨h.cfg, h.att, h.cnt⟩

/-! ### The ends -/

theorem stepsLeft_respond (k : ResultKind) (s : State) : stepsLeft (respond k s) = 0 := rfl

theorem stepsLeft_raise (k : ResultKind) (s : State) : stepsLeft (raise k s) = 0 :=
  stepsLeft_of_idle (raise_spec k s).1

theorem stepsLeft_readFailure (k : ResultKind) (s : State) : stepsLeft (readFailure k s) = 0 :=
  stepsLeft_raise k _

theorem stepsLeft_initIdentity (s : State) : stepsLeft (initIdentity s) = 0 := by
  unfold initIdentity
  split
  · exact stepsLeft_raise ..
  · split
    · exact stepsLeft_respond ..
    · exact stepsLeft_raise ..

theorem stepsLeft_readIdOp (s : State) : stepsLeft (readIdOp s) = 0 := by
  unfold readIdOp
  split
  · exact stepsLeft_raise ..
  · exact stepsLeft_respond ..

theorem stepsLeft_readCacheStep (p : Phys) (s : State) : stepsLeft (readCacheStep p s) = 0 := by
  unfold readCacheStep
  split
  · exact stepsLeft_readFailure ..
  · exact stepsLeft_respond ..

theorem stepsLeft_closeBracket (failBit : Byte → Bool) (k : ResultKind) (s : State) :
    stepsLeft (closeBracket failBit k s) = 0 := by
  unfold closeBracket
  split
  · split
    · exact stepsLeft_raise ..
    · split
      · exact stepsLeft_raise ..
      · exact stepsLeft_respond ..
  · exact stepsLeft_raise ..

theorem stepsLeft_getFeatureOp (s : State) : stepsLeft (getFeatureOp s) = 0 := by
  unfold getFeatureOp
  split
  · exact stepsLeft_raise ..
  · exact stepsLeft_respond ..

theorem stepsLeft_setFeatureOp (s : State) : stepsLeft (setFeatureOp s) = 0 := by
  unfold setFeatureOp
  split
  · exact stepsLeft_raise ..
  · exact stepsLeft_raise ..
  · exact stepsLeft_respond ..

theorem stepsLeft_checkBusyOp (s : State) : stepsLeft (checkBusyOp s) = 0 := by
  unfold checkBusyOp
  split
  · exact stepsLeft_raise ..
  · exact stepsLeft_respond ..

/-! ### The parts of a step -/

theorem stepsLeft_afterPoll_le (c : PollCaller) (out : PollResult) (s : State) :
    stepsLeft (afterPoll c out s) ≤ stepsAfterPoll c := by
  cases c with
  | init =>
    cases out with
    | ready => exact (stepsLeft_goto s _).le
    | _ => exact (stepsLeft_raise _ s).le.trans (Nat.zero_le _)
  | reset =>
    cases out with
    | ready => exact (stepsLeft_respond _ s).le
    | _ => exact (stepsLeft_raise _ s).le
  | pageRead =>
    cases out with
    | ready => exact (stepsLeft_goto s _).le
    | _ => exact (stepsLeft_readFailure _ s).le.trans (Nat.zero_le _)
  | pageProgram => exact (stepsLeft_goto _ _).le
  | blockErase => exact (stepsLeft_goto _ _).le
  | waitReady =>
    cases out with
    | ready => exact (stepsLeft_respond _ s).le
    | _ => exact (stepsLeft_raise _ _).le

/-- After a status read of a poll two steps are left for each attempt not yet begun. -/
theorem stepsLeft_pollTest_le (c : PollCaller) {s : State} {x : Answer × State} (h : SameBounds s x.2) :
    stepsLeft (pollTest c x) ≤ 2 * ((s.pollCfg c).maxAttempts - s.r.cnt) + stepsAfterPoll c := by
  have hover (out : PollResult) (t : State) : stepsLeft (afterPoll c out t) ≤
      2 * ((s.pollCfg c).maxAttempts - s.r.cnt) + stepsAfterPoll c :=
    (stepsLeft_afterPoll_le c out t).trans (Nat.le_add_left ..)
  obtain ⟨rx | e, t⟩ := x
  · obtain ⟨hcfg, hatt, hcnt⟩ := h
    have hsample : SameBounds s (t.sample (byteAt rx 0)) := ⟨hcfg, hatt, hcnt⟩
    simp only [pollTest]
    split
    · split
      next hmore =>
        rw [stepsLeft_goto_of_sameBounds hsample]
        rw [maxAttempts_congr hcfg hatt, hcnt] at hmore
        simp only [stepsAt, stepsAtPoll]
        omega
      · exact hover ..
    · exact hover ..
  · exact hover ..

theorem stepsLeft_withPhys_lt {fail : State → State} {step : Phys → State → State} {s : State} {n : Nat}
    (hfail : stepsLeft (fail s) < n) (hstep : ∀ p, stepsLeft (step p s) < n) :
    stepsLeft (withPhys fail step s) < n := by
  unfold withPhys
  split
  · exact hfail
  · exact hstep _

/-- A step of the bracket whose call keeps the bounds goes on to one of two steps. -/
theorem stepsLeft_bracketNext_lt {s : State} {x : Answer × State} {next disable : SeqStep} {n : Nat}
    (hx : SameBounds s x.2) (hnext : stepsAt s next < n) (hdisable : stepsAt s disable < n) :
    stepsLeft (bracketNext next disable (noteAnswer x)) < n := by
  unfold bracketNext
  split
  · rwa [stepsLeft_goto_of_sameBounds (sameBounds_noteAnswer hx)]
  · rwa [stepsLeft_goto_of_sameBounds (sameBounds_noteAnswer hx)]

theorem stepsLeft_afterDisable_lt {check : SeqStep} {k : ResultKind} {s : State} {n : Nat}
    (hcheck : stepsAt s check < n) : stepsLeft (afterDisable check k s) < n := by
  unfold afterDisable
  split
  · rwa [stepsLeft_goto]
  · rw [stepsLeft_raise]
    exact Nat.zero_lt_of_lt hcheck

/-! ### One step of the sequencer -/

theorem stepsLeft_resetSend_lt (inInit : Bool) (s : State) :
    stepsLeft (tickAt (.resetSend inInit) s) < stepsAt s (.resetSend inInit) := by
  have hsend : SameBounds s (txCmd Opcode.reset s).2 := ⟨rfl, rfl, rfl⟩
  unfold tickAt
  generalize txCmd Opcode.reset s = x at hsend ⊢
  obtain ⟨_ | _, t⟩ := x
  · exact (stepsLeft_goto_of_sameBounds hsend _).trans_lt (Nat.lt_succ_self _)
  · exact (stepsLeft_raise ..).trans_lt (Nat.succ_pos _)

theorem stepsLeft_readLoad_lt (s : State) : stepsLeft (tickAt .readLoad s) < stepsAt s .readLoad := by
  refine stepsLeft_withPhys_lt ((stepsLeft_readFailure ..).trans_lt (Nat.succ_pos _)) fun p => ?_
  have hsend : SameBounds s (txRow Opcode.pageRead p.rowAddr s).2 := ⟨rfl, rfl, rfl⟩
  generalize txRow Opcode.pageRead p.rowAddr s = x at hsend ⊢
  obtain ⟨_ | _, t⟩ := x
  · exact (stepsLeft_goto_of_sameBounds hsend _).trans_lt (Nat.lt_succ_self _)
  · exact (stepsLeft_readFailure ..).trans_lt (Nat.succ_pos _)

theorem stepsLeft_poll_lt (c : PollCaller) (at_ : PollStep) (s : State) :
    stepsLeft (tickAt (.poll c at_) s) < stepsAt s (.poll c at_) := by
  cases at_ with
  | first =>
    have hread := stepsLeft_pollTest_le c (s := s.clearCnt) (x := getFeature statusAddress s.clearCnt)
      ⟨rfl, rfl, rfl⟩
    rw [maxAttempts_congr (s := s) (t := s.clearCnt) rfl rfl] at hread
    simp only [tickAt, stepsAt, stepsAtPoll]
    omega
  | delay =>
    rw [tickAt, stepsLeft_goto]
    simp only [stepsAt, stepsAtPoll, maxAttempts_congr (s := s) (t := delay _ s.countAttempt) rfl rfl]
    simp only [delay_r, countAttempt_eq, withRegs_r]
    omega
  | read =>
    have hread := stepsLeft_pollTest_le c (s := s) (x := getFeature statusAddress s) ⟨rfl, rfl, rfl⟩
    simp only [tickAt, stepsAt, stepsAtPoll]
    omega

/-- One step of the sequencer lowers the number of steps left. -/
theorem stepsLeft_tickAt_lt (p : SeqStep) (s : State) : stepsLeft (tickAt p s) < stepsAt s p := by
  have hends {t : State} (n : Nat) (h : stepsLeft t = 0) : stepsLeft t < n + 1 := h.trans_lt (Nat.succ_pos n)
  have hgoto {t : State} {q : SeqStep} {n : Nat} (h : SameBounds s t) (hq : stepsAt s q < n) :
      stepsLeft (t.goto q) < n := (stepsLeft_goto_of_sameBounds h q).trans_lt hq
  have hdisable (c : PollCaller) (n : Nat) : stepsAfterPoll c < stepsAtPoll s c .first + n :=
    Nat.lt_add_right n (stepsAfterPoll_lt_first s c)
  cases p with
  | initDelay => exact hgoto ⟨rfl, rfl, rfl⟩ (Nat.lt_succ_self _)
  | resetSend inInit => exact stepsLeft_resetSend_lt inInit s
  | resetDelay inInit => exact hgoto ⟨rfl, rfl, rfl⟩ (Nat.lt_succ_self _)
  | poll c at_ => exact stepsLeft_poll_lt c at_ s
  | identity inInit =>
    cases inInit with
    | false => exact hends _ (stepsLeft_readIdOp s)
    | true => exact hends _ (stepsLeft_initIdentity s)
  | readGuards =>
    simp only [tickAt]
    split
    · exact hends _ (stepsLeft_readFailure ..)
    · exact stepsLeft_withPhys_lt (hends _ (stepsLeft_readFailure ..))
        fun _ => hgoto ⟨rfl, rfl, rfl⟩ (Nat.lt_succ_self _)
  | readLoad => exact stepsLeft_readLoad_lt s
  | readCache =>
    exact stepsLeft_withPhys_lt (hends _ (stepsLeft_readFailure ..)) fun p => hends _ (stepsLeft_readCacheStep p s)
  | programGuards =>
    simp only [tickAt]
    split
    · exact hends _ (stepsLeft_raise ..)
    · exact stepsLeft_withPhys_lt (hends _ (stepsLeft_raise ..))
        fun _ => hgoto ⟨rfl, rfl, rfl⟩ (Nat.lt_succ_self _)
  | programEnable =>
    exact stepsLeft_bracketNext_lt (s := s) ⟨rfl, rfl, rfl⟩ (Nat.lt_succ_self _) (hdisable .pageProgram _)
  | programLoad =>
    exact stepsLeft_withPhys_lt (hends _ (stepsLeft_raise ..)) fun _ =>
      stepsLeft_bracketNext_lt (s := s) ⟨rfl, rfl, rfl⟩ (Nat.lt_succ_self _) (hdisable .pageProgram _)
  | programExecute =>
    exact stepsLeft_withPhys_lt (hends _ (stepsLeft_raise ..)) fun _ =>
      stepsLeft_bracketNext_lt (s := s) ⟨rfl, rfl, rfl⟩ (Nat.lt_succ_self _) (hdisable .pageProgram _)
  | programDisable => exact stepsLeft_afterDisable_lt (Nat.lt_succ_self 1)
  | programCheck => exact hends _ (stepsLeft_closeBracket ..)
  | eraseGuards =>
    exact stepsLeft_withPhys_lt (hends _ (stepsLeft_raise ..)) fun _ => hgoto ⟨rfl, rfl, rfl⟩ (Nat.lt_succ_self _)
  | eraseEnable =>
    exact stepsLeft_bracketNext_lt (s := s) ⟨rfl, rfl, rfl⟩ (Nat.lt_succ_self _) (hdisable .blockErase _)
  | eraseCommand =>
    exact stepsLeft_withPhys_lt (hends _ (stepsLeft_raise ..)) fun _ =>
      stepsLeft_bracketNext_lt (s := s) ⟨rfl, rfl, rfl⟩ (Nat.lt_succ_self _) (hdisable .blockErase _)
  | eraseDisable => exact stepsLeft_afterDisable_lt (Nat.lt_succ_self 1)
  | eraseCheck => exact hends _ (stepsLeft_closeBracket ..)
  | getFeature => exact hends _ (stepsLeft_getFeatureOp s)
  | setFeature => exact hends _ (stepsLeft_setFeatureOp s)
  | checkBusy => exact hends _ (stepsLeft_checkBusyOp s)

theorem stepsLeft_tick_lt {s : State} (h : s.seq ≠ .idle) : stepsLeft (tick s) < stepsLeft s := by
  cases hseq : s.seq with
  | idle => exact absurd hseq h
  | run p =>
    simp only [tick, hseq, stepsLeft_of_run hseq]
    exact stepsLeft_tickAt_lt p s

theorem ticks_idle {n : Nat} {s : State} (h : s.seq = .idle) : (ticks n s).seq = .idle := by
  induction n generalizing s with
  | zero => exact h
  | succ n ih => exact ih (by simp only [tick, h])

/-- As many steps as are left end the operation. -/
theorem ticks_ends {n : Nat} {s : State} (h : stepsLeft s ≤ n) : (ticks n s).seq = .idle := by
  induction n generalizing s with
  | zero =>
    by_contra hrun
    have hlt : stepsLeft (tick s) < stepsLeft s := stepsLeft_tick_lt hrun
    omega
  | succ n ih =>
    by_cases hidle : s.seq = .idle
    · exact ticks_idle hidle
    · have hlt : stepsLeft (tick s) < stepsLeft s := stepsLeft_tick_lt hidle
      exact ih (s := tick s) (by omega)

/-! ### The bound -/

/-- The largest of the five poll bounds. -/
def largestBound (s : State) : Nat :=
  max s.cfg.pollReset.maxAttempts (max s.cfg.pollRead.maxAttempts (max s.cfg.pollPgm.maxAttempts
    (max s.cfg.pollErs.maxAttempts s.r.att.toNat)))

theorem maxAttempts_le_largestBound (s : State) (c : PollCaller) : (s.pollCfg c).maxAttempts ≤ largestBound s := by
  cases c <;> simp only [State.pollCfg, largestBound] <;> omega

theorem stepsAfterPoll_le (c : PollCaller) : stepsAfterPoll c ≤ 2 := by
  cases c <;> decide

theorem stepsAtPoll_le (s : State) (c : PollCaller) (at_ : PollStep) :
    stepsAtPoll s c at_ ≤ 2 * largestBound s + 4 := by
  have hbound : (s.pollCfg c).maxAttempts ≤ largestBound s := maxAttempts_le_largestBound s c
  have hafter : stepsAfterPoll c ≤ 2 := stepsAfterPoll_le c
  cases at_ <;> simp only [stepsAtPoll] <;> omega

theorem stepsAt_le (s : State) (p : SeqStep) : stepsAt s p ≤ 2 * largestBound s + 8 := by
  have hpoll (c : PollCaller) {n : Nat} (hn : n ≤ 4) : stepsAtPoll s c .first + n ≤ 2 * largestBound s + 8 := by
    have hfirst := stepsAtPoll_le s c .first
    omega
  cases p with
  | poll c at_ => exact (stepsAtPoll_le s c at_).trans (by omega)
  | initDelay | resetSend _ | resetDelay _ | readGuards | readLoad | programGuards | programEnable | programLoad
  | programExecute | eraseGuards | eraseEnable | eraseCommand => exact hpoll _ (by decide)
  | _ =>
    simp only [stepsAt]
    omega

theorem stepsLeft_le (s : State) : stepsLeft s ≤ 2 * largestBound s + 8 := by
  cases hseq : s.seq with
  | idle => exact (stepsLeft_of_idle hseq).trans_le (Nat.zero_le _)
  | run p => exact (stepsLeft_of_run hseq).trans_le (stepsAt_le s p)

/-- Settles O51: each step of the sequencer lowers `stepsLeft`, which the poll bounds limit. The argument needs no
premise on the state. -/
theorem everyOperationEnds : Obligations.EveryOperationEnds :=
  fun s _ => ⟨stepsLeft s, stepsLeft_le s, ticks_ends le_rfl⟩

end Sys2Proof.Proofs.Ending
end

section
/-! The poll: its calls and what they show, its endings under a schedule of answers, and the operations that poll.

A state after a poll is written `Laws.polled`, so that a longer run is composed of shorter ones by `polled_polled`. -/

namespace Sys2Proof.Proofs.Poll

open Sys2Proof Sys2Proof.Machine Sys2Proof.Machine.Laws Sys2Proof.Claims

/-! ### The calls of a poll -/

theorem waitCalls_eq_pollCalls (d : Nat) (as : List Answer) : waitCalls d as = pollCalls d as := by
  cases as <;> rfl

/-- A read that is not the last is followed by a delay (R126). -/
theorem pollCalls_cons {as : List Answer} (d : Nat) (a : Answer) (h : as ≠ []) :
    pollCalls d (a :: as) = statusRead a :: .delay d :: pollCalls d as := by
  cases as with
  | nil => exact absurd rfl h
  | cons x xs => rfl

theorem countP_delays_loop (d : Nat) (as : List Answer) :
    (as.flatMap fun a => [.delay d, statusRead a]).countP (fun c => (answerOf c).isNone) = as.length := by
  induction as with
  | nil => rfl
  | cons x xs ih => simpa [statusRead, answerOf] using ih

/-- A poll has one delay less than reads (R127, R128). -/
theorem countP_delays_pollCalls (d : Nat) (as : List Answer) :
    (pollCalls d as).countP (fun c => (answerOf c).isNone) = as.length - 1 := by
  cases as with
  | nil => rfl
  | cons a as => exact (List.countP_cons_of_neg Bool.false_ne_true).trans (countP_delays_loop d as)

theorem filterMap_statusShown_loop (d : Nat) (as : List Answer) :
    (as.flatMap fun a => [.delay d, statusRead a]).filterMap statusShown =
      as.filterMap fun a => statusShown (statusRead a) := by
  induction as with
  | nil => rfl
  | cons x xs ih =>
    rw [List.flatMap_cons, List.cons_append, List.filterMap_cons_none rfl, List.singleton_append,
      List.filterMap_cons, List.filterMap_cons, ih]

/-- A poll shows what its answers show. -/
theorem filterMap_statusShown_pollCalls (d : Nat) (as : List Answer) :
    (pollCalls d as).filterMap statusShown = as.filterMap fun a => statusShown (statusRead a) := by
  cases as with
  | nil => rfl
  | cons a as => rw [pollCalls, List.filterMap_cons, List.filterMap_cons, filterMap_statusShown_loop]

theorem filterMap_statusShown_shown (bs : List Byte) :
    (shown bs).filterMap (fun a => statusShown (statusRead a)) = bs := by
  rw [shown, List.filterMap_map]
  exact List.filterMap_some

theorem lastShown_shown (d : Nat) (st : Byte) (bs : List Byte) :
    lastShown st (pollCalls d (shown bs)) = bs.getLastD st := by
  rw [lastShown, filterMap_statusShown_pollCalls, filterMap_statusShown_shown]

/-- A failed read shows nothing. -/
theorem lastShown_shown_err (d : Nat) (st : Byte) (bs : List Byte) (e : TransportError) :
    lastShown st (pollCalls d (shown bs ++ [.err e])) = bs.getLastD st := by
  rw [lastShown, filterMap_statusShown_pollCalls, List.filterMap_append, filterMap_statusShown_shown]
  exact congrArg (·.getLastD st) (List.append_nil bs)

theorem lastShown_shown_ok (d : Nat) (st : Byte) (bs : List Byte) (b : Byte) :
    lastShown st (pollCalls d (shown bs ++ [.ok [b]])) = b := by
  have happend : shown bs ++ [.ok [b]] = shown (bs ++ [b]) := by simp [shown]
  rw [happend, lastShown_shown, List.getLastD_concat]

/-- In a list of calls that is a poll, the counter counts the delays (R24). -/
theorem countAfter_pollCalls (n d : Nat) {as : List Answer} (h : as ≠ []) :
    countAfter n (pollCalls d as) = as.length - 1 := by
  cases as with
  | nil => exact absurd rfl h
  | cons a as => exact countP_delays_loop d as

/-! ### Every poll -/

theorem allBusy_iff (bs : List Byte) : allBusy bs ↔ ∀ b ∈ bs, oip b = true := by
  simp only [allBusy, oip_eq]

/-- The ending of a run of reads (`Laws.ReadsEnd`), said of the poll's calls and of what they show. -/
theorem pollRun_of_readsEnd {p : PollCfg} {st₀ st : Byte} {as : List Answer} {out : PollResult}
    (h : ReadsEnd (p.maxAttempts + 1) st₀ as st out) :
    PollRun p (pollCalls p.interPollDelay as) out ∧ st = lastShown st₀ (pollCalls p.interPollDelay as) := by
  cases out with
  | ready =>
    obtain ⟨bs, b, hbusy, hlen, hb, rfl, rfl⟩ := h
    exact ⟨⟨bs, st, (allBusy_iff bs).2 hbusy, by omega, by rwa [← oip_eq], rfl⟩,
      (lastShown_shown_ok _ st₀ bs st).symm⟩
  | busy =>
    obtain ⟨bs, hbusy, hlen, rfl, rfl⟩ := h
    exact ⟨⟨bs, (allBusy_iff bs).2 hbusy, hlen, rfl⟩, (lastShown_shown _ st₀ bs).symm⟩
  | transportError e =>
    obtain ⟨bs, hbusy, hlen, rfl, rfl⟩ := h
    exact ⟨⟨bs, (allBusy_iff bs).2 hbusy, by omega, rfl⟩, (lastShown_shown_err _ st₀ bs e).symm⟩

/-- The poll makes the calls of one of its three endings; the counter counts their delays, and the sample is the last
byte they show. -/
theorem waitUntilReady_polled (p : PollCfg) (s : State) :
    ∃ out as used, as ≠ [] ∧ PollRun p (pollCalls p.interPollDelay as) out ∧
      waitUntilReady p s = (out, polled s (as.length - 1) (lastShown s.r.st (pollCalls p.interPollDelay as))
        (pollCalls p.interPollDelay as) used) := by
  obtain ⟨out, k, st, heq, hend⟩ := waitUntilReady_spec p s
  obtain ⟨hrun, rfl⟩ := pollRun_of_readsEnd hend
  refine ⟨out, nextAnswers (k + 1) s, k + 1, List.cons_ne_nil _ _, hrun, ?_⟩
  rw [heq, waitCalls_eq_pollCalls, nextAnswers_length, Nat.add_sub_cancel]

/-- Settles O10, by the law of the poll: its answers determine its calls, its counter and its sample. -/
theorem pollCallsAndEnding : Obligations.PollCallsAndEnding := by
  intro p s
  obtain ⟨out, as, used, -, hrun, heq⟩ := waitUntilReady_polled p s
  refine ⟨out, _, _, heq, hrun, ?_⟩
  rw [countP_delays_pollCalls]
  rfl

/-- The same, the counter said as an operation's trace says it, from any value before the poll. -/
theorem waitUntilReady_countAfter (p : PollCfg) (s : State) (n : Nat) :
    ∃ out calls used, PollRun p calls out ∧
      waitUntilReady p s = (out, polled s (countAfter n calls) (lastShown s.r.st calls) calls used) := by
  obtain ⟨out, as, used, hne, hrun, heq⟩ := waitUntilReady_polled p s
  exact ⟨out, _, used, hrun, by rw [heq, countAfter_pollCalls n _ hne]⟩

/-! ### `WAIT_READY` -/

/-- The state in which the steps of a `WAIT_READY` begin. -/
def acceptedWait (att dly : BitVec 16) (s : State) : State :=
  accept .waitReady (s.withRegs fun r => { r with att := att, dly := dly })

theorem exec_waitReady {s : State} (att dly : BitVec 16) (hidle : s.seq = .idle) :
    exec (.waitReady att dly) s = .next (waitReadyOp (acceptedWait att dly s)) :=
  congrArg _ (request_idle _ _ _ hidle)

/-- Settles O14: the trace of the accepted request is the poll's, and with nothing owed the failure entry makes no
call. -/
theorem waitReadyRun : Obligations.WaitReadyRun := by
  intro s att dly hidle howed
  obtain ⟨out, calls, used, hrun, heq⟩ := waitUntilReady_countAfter
    ((acceptedWait att dly s).pollCfg .waitReady) (acceptedWait att dly s) s.r.cnt
  refine ⟨_, out, exec_waitReady att dly hidle, ?_⟩
  rw [waitReadyOp, heq]
  cases out with
  | ready => exact ⟨⟨rfl, rfl, rfl, rfl, rfl⟩, rfl, hrun, rfl⟩
  | busy =>
    dsimp only
    rw [raise_not_owed _ (by exact howed)]
    exact ⟨⟨rfl, rfl, rfl, rfl, rfl⟩, rfl, hrun, rfl⟩
  | transportError e =>
    dsimp only
    rw [raise_not_owed _ (by exact howed)]
    exact ⟨⟨rfl, rfl, rfl, rfl, rfl⟩, rfl, hrun, rfl⟩

/-! ### The poll under a schedule -/

/-- A status read and its test, with `n` iterations of the loop left: what the read before the loop and each read in it
have in common. -/
def readAndTest (d n : Nat) (s : State) : PollResult × State :=
  match getFeature statusAddress s with
  | (.err e, s) => (.transportError e, s)
  | (.ok rx, s) =>
    if oip (byteAt rx 0) then pollLoop d n (s.sample (byteAt rx 0)) else (.ready, s.sample (byteAt rx 0))

theorem pollLoop_succ (d n : Nat) (s : State) :
    pollLoop d (n + 1) s = readAndTest d n (polled s (s.r.cnt + 1) s.r.st [.delay d] 0) := rfl

theorem waitUntilReady_eq (p : PollCfg) (s : State) :
    waitUntilReady p s = readAndTest p.interPollDelay p.maxAttempts s.clearCnt := rfl

theorem readAndTest_err {s : State} {e : TransportError} {rest : List Answer} (d n : Nat)
    (h : s.script = .err e :: rest) :
    readAndTest d n s = (.transportError e, polled s s.r.cnt s.r.st [statusRead (.err e)] 1) := by
  rw [readAndTest, getFeature_status, nextAnswer_scripted_err 1 h]
  rfl

theorem readAndTest_ok {s : State} {b : Byte} {rest : List Answer} (d n : Nat) (h : s.script = .ok [b] :: rest) :
    readAndTest d n s = if b.getLsbD 0 then pollLoop d n (polled s s.r.cnt b [statusRead (.ok [b])] 1)
      else (.ready, polled s s.r.cnt b [statusRead (.ok [b])] 1) := by
  rw [readAndTest, getFeature_status, nextAnswer_scripted_ok (n := 1) h rfl, ← oip_eq]
  rfl

/-- The calls of busy reads, each followed by the delay of the next iteration. -/
def busyCalls (d : Nat) (bs : List Byte) : List Call := bs.flatMap fun b => [statusRead (.ok [b]), .delay d]

theorem busyCalls_append_statusRead (d : Nat) (bs : List Byte) (a : Answer) :
    busyCalls d bs ++ [statusRead a] = pollCalls d (shown bs ++ [a]) := by
  induction bs with
  | nil => rfl
  | cons b bs ih =>
    have hne : shown bs ++ [a] ≠ [] := List.append_ne_nil_of_right_ne_nil _ (List.cons_ne_nil a [])
    exact (congrArg ([statusRead (.ok [b]), .delay d] ++ ·) ih).trans (pollCalls_cons d (.ok [b]) hne).symm

/-- Busy reads within the bound bring the poll to the read after them. -/
theorem readAndTest_allBusy {s : State} {bs : List Byte} {rest : List Answer} (d n : Nat) (hbusy : allBusy bs)
    (h : s.script = shown bs ++ rest) :
    readAndTest d (bs.length + n) s =
      readAndTest d n (polled s (s.r.cnt + bs.length) (bs.getLastD s.r.st) (busyCalls d bs) bs.length) := by
  induction bs generalizing s with
  | nil => simp [polled, busyCalls]
  | cons b bs ih =>
    have hb : b.getLsbD 0 = true := hbusy b List.mem_cons_self
    have hrest : allBusy bs := fun x hx => hbusy x (List.mem_cons_of_mem b hx)
    rw [List.length_cons, Nat.add_right_comm, readAndTest_ok d _ h, if_pos hb, pollLoop_succ, polled_polled,
      ih hrest (by simp [h, shown]), polled_polled]
    have hcnt : s.r.cnt + 1 + bs.length = s.r.cnt + (bs.length + 1) := by omega
    have hlast : bs.getLastD b = (b :: bs).getLastD s.r.st := List.getLastD_cons.symm
    have hused : 1 + 0 + bs.length = bs.length + 1 := Nat.add_comm ..
    simp only [polled_r, hcnt, hlast, hused]
    rfl

/-- A poll within its bound: the busy reads, and the one that ends it. -/
theorem waitUntilReady_allBusy {p : PollCfg} {s : State} {bs : List Byte} {rest : List Answer} (n : Nat)
    (hbusy : allBusy bs) (hlen : p.maxAttempts = bs.length + n) (h : s.script = shown bs ++ rest) :
    waitUntilReady p s = readAndTest p.interPollDelay n
      (polled s bs.length (bs.getLastD s.r.st) (busyCalls p.interPollDelay bs) bs.length) := by
  have hrun := readAndTest_allBusy (s := s.clearCnt) p.interPollDelay n hbusy h
  have hcnt : s.clearCnt.r.cnt + bs.length = bs.length := Nat.zero_add _
  rw [waitUntilReady_eq, hlen, hrun, hcnt]
  rfl

/-- What is scheduled after the busy reads. -/
theorem drop_shown {script rest : List Answer} {bs : List Byte} (h : script = shown bs ++ rest) :
    script.drop bs.length = rest := by
  rw [h]
  exact List.drop_left' (List.length_map _)

/-- What is scheduled after the busy reads and one more. -/
theorem drop_shown_read {script rest : List Answer} {bs : List Byte} {a : Answer}
    (h : script = shown bs ++ a :: rest) : script.drop (bs.length + 1) = rest := by
  rw [← List.drop_drop, drop_shown h, List.drop_one, List.tail_cons]

/-- The poll with the first ready byte shown within the bound. -/
theorem waitUntilReady_ready {p : PollCfg} {s : State} {bs : List Byte} {b : Byte} {rest : List Answer}
    (hbusy : allBusy bs) (hb : b.getLsbD 0 = false) (hlen : bs.length ≤ p.maxAttempts)
    (h : s.script = shown bs ++ .ok [b] :: rest) :
    waitUntilReady p s = (.ready, polled s bs.length b
      (pollCalls p.interPollDelay (shown bs ++ [.ok [b]])) (bs.length + 1)) := by
  obtain ⟨n, hn⟩ := Nat.exists_eq_add_of_le hlen
  rw [waitUntilReady_allBusy n hbusy hn h, readAndTest_ok _ n (drop_shown h), hb, polled_polled,
    busyCalls_append_statusRead]
  rfl

/-- The poll with a read within the bound failed. -/
theorem waitUntilReady_err {p : PollCfg} {s : State} {bs : List Byte} {e : TransportError} {rest : List Answer}
    (hbusy : allBusy bs) (hlen : bs.length ≤ p.maxAttempts) (h : s.script = shown bs ++ .err e :: rest) :
    waitUntilReady p s = (.transportError e, polled s bs.length (bs.getLastD s.r.st)
      (pollCalls p.interPollDelay (shown bs ++ [.err e])) (bs.length + 1)) := by
  obtain ⟨n, hn⟩ := Nat.exists_eq_add_of_le hlen
  rw [waitUntilReady_allBusy n hbusy hn h, readAndTest_err _ n (drop_shown h), polled_polled,
    busyCalls_append_statusRead]
  rfl

/-- The poll with every read it may make showing a busy byte, `b` the last. -/
theorem waitUntilReady_busy {p : PollCfg} {s : State} {bs : List Byte} {b : Byte} {rest : List Answer}
    (hbusy : allBusy bs) (hb : b.getLsbD 0 = true) (hlen : bs.length = p.maxAttempts)
    (h : s.script = shown bs ++ .ok [b] :: rest) :
    waitUntilReady p s = (.busy, polled s bs.length b
      (pollCalls p.interPollDelay (shown bs ++ [.ok [b]])) (bs.length + 1)) := by
  rw [waitUntilReady_allBusy 0 hbusy hlen.symm h, readAndTest_ok _ 0 (drop_shown h), hb, polled_polled,
    busyCalls_append_statusRead]
  rfl

/-- Settles O11: all reads but the last are busy reads within the bound, and the last finds no attempt left. -/
theorem pollExhaustion : Obligations.PollExhaustion := by
  intro p s bs rest hbusy hlen h
  obtain rfl | ⟨bs, b, rfl⟩ := bs.eq_nil_or_concat
  · rw [List.length_nil] at hlen
    omega
  have hshown : shown (bs.concat b) = shown bs ++ [.ok [b]] := by simp [shown]
  rw [hshown, List.append_assoc] at h
  rw [List.length_concat] at hlen
  have hinit : allBusy bs := fun x hx => hbusy x (by simp [hx])
  refine ⟨_, waitUntilReady_busy hinit (hbusy b (by simp)) (by omega) h, drop_shown_read h, ?_⟩
  rw [polled_trace, hshown]

/-- Settles O12: busy reads within the bound, and the first ready byte. -/
theorem pollReadyAtRead : Obligations.PollReadyAtRead := by
  intro p s bs b rest hbusy hb hlen h
  exact ⟨_, waitUntilReady_ready hbusy hb hlen h, drop_shown_read h, rfl, rfl⟩

/-- Settles O13: busy reads within the bound, and the first failed read. -/
theorem pollStopsAtFailedRead : Obligations.PollStopsAtFailedRead := by
  intro p s bs e rest hbusy hlen h
  exact ⟨_, waitUntilReady_err hbusy hlen h, drop_shown_read h, rfl⟩

/-! ### Where the operations that poll succeed -/

theorem send_scripted {s : State} {rest : List Answer} (tx : List Byte) (h : s.script = .ok [] :: rest) :
    send tx s = (.ok [], polled s s.r.cnt s.r.st [.send tx (.ok [])] 1) := by
  have hans : s.nextAnswer 0 = .ok [] := nextAnswer_scripted_ok h rfl
  simp [send, transport, hans, polled]

theorem sendReceive_scripted {s : State} {rx : List Byte} {rest : List Answer} (tx : List Byte) {n : Nat}
    (hn : rx.length = n) (h : s.script = .ok rx :: rest) :
    sendReceive tx n s = (.ok rx, polled s s.r.cnt s.r.st [.sendReceive tx n (.ok rx)] 1) := by
  have hans : s.nextAnswer n = .ok rx := nextAnswer_scripted_ok h hn
  simp [sendReceive, transport, hans, polled]

theorem delay_polled (ms : Nat) (s : State) (n : Nat) (st : Byte) (calls : List Call) (used : Nat) :
    delay ms (polled s n st calls used) = polled s n st (calls ++ [.delay ms]) used :=
  polled_polled s n n st st calls [.delay ms] used 0

/-- The calls of reset steps whose transmit is carried and whose poll makes these calls (R163). -/
def resetCalls (c : Cfg) (poll : List Call) : List Call := .send [0xFF] (.ok []) :: .delay c.tPorMs :: poll

/-- What is scheduled after the transmit and the poll. -/
theorem drop_reset_shown_read {script rest : List Answer} {bs : List Byte} {a : Answer}
    (h : script = .ok [] :: (shown bs ++ a :: rest)) : script.drop (1 + (bs.length + 1)) = rest := by
  rw [h, ← List.drop_drop]
  exact drop_shown_read rfl

/-- The reset steps, alone or inside `INIT`, with the transmit carried and the chip ready within the bound. -/
theorem resetSteps_ready {caller : PollCaller} {s : State} {bs : List Byte} {b : Byte} {rest : List Answer}
    (hcaller : caller = .init ∨ caller = .reset) (hbusy : allBusy bs) (hb : b.getLsbD 0 = false)
    (hlen : bs.length ≤ s.cfg.pollReset.maxAttempts) (h : s.script = .ok [] :: (shown bs ++ .ok [b] :: rest)) :
    resetSteps caller s = (.success, polled s bs.length b
      (resetCalls s.cfg (pollCalls s.cfg.pollReset.interPollDelay (shown bs ++ [.ok [b]]))) (1 + (bs.length + 1))) := by
  have hsend : txCmd Opcode.reset s = _ := send_scripted [0xFF] h
  have hcfg (t : State) : t.pollCfg caller = t.cfg.pollReset := by
    obtain rfl | rfl := hcaller <;> rfl
  have hpoll := waitUntilReady_ready (p := s.cfg.pollReset) hbusy hb hlen (rest := rest)
    (s := polled s s.r.cnt s.r.st [.send [0xFF] (.ok []), .delay s.cfg.tPorMs] 1) (congrArg (List.drop 1) h)
  rw [polled_polled] at hpoll
  rw [resetSteps, hsend]
  simp only [hcfg, delay_polled, polled_cfg, List.singleton_append, hpoll]
  rfl

theorem exec_reset {s : State} (hidle : s.seq = .idle) : exec .reset s = .next (resetOp (accept .reset s)) :=
  congrArg _ (request_idle _ _ _ hidle)

theorem exec_init {s : State} (hidle : s.seq = .idle) : exec .init s = .next (initOp (accept .init s)) :=
  congrArg _ (request_idle _ _ _ hidle)

/-- The identity steps of `INIT` when the chip identifies itself as the known pair (R166). -/
theorem initIdentity_known {s : State} {rest : List Answer} (h : s.script = .ok [0x2C, 0x24] :: rest) :
    initIdentity s = respond .success
      ((polled s s.r.cnt s.r.st [.sendReceive [0x9F, s.cfg.dummy] 2 (.ok [0x2C, 0x24])] 1).setIdentity 0x2C 0x24) := by
  have hid : txId s = _ := sendReceive_scripted [0x9F, s.cfg.dummy] rfl h
  rw [initIdentity, identitySteps, hid]
  rfl

/-- Settles O26: the transmits are carried, and the poll ends at the first ready byte. -/
theorem pollingOperationsSucceed : Obligations.PollingOperationsSucceed := by
  intro s att dly bs b rest hidle hbusy hb
  refine ⟨fun hlen h => ?_, fun hlen h => ?_, fun hlen h => ?_⟩
  · have hpoll := waitUntilReady_ready (s := acceptedWait att dly s) (p := (acceptedWait att dly s).pollCfg .waitReady)
      hbusy hb hlen h
    refine ⟨_, exec_waitReady att dly hidle, ?_⟩
    rw [waitReadyOp, hpoll]
    exact ⟨⟨rfl, rfl, rfl, rfl, rfl⟩, drop_shown_read h, rfl, rfl⟩
  · have hreset := resetSteps_ready (s := accept .reset s) (.inr rfl) hbusy hb hlen h
    refine ⟨_, exec_reset hidle, ?_⟩
    rw [resetOp, hreset]
    exact ⟨⟨rfl, rfl, rfl, rfl, rfl⟩, drop_reset_shown_read h, rfl, rfl⟩
  · have hreset := resetSteps_ready (s := delay s.cfg.tPorMs (accept .init s)) (.inl rfl) hbusy hb hlen h
    have hscript := drop_reset_shown_read h
    refine ⟨_, exec_init hidle, ?_⟩
    rw [initOp, accept_cfg, hreset]
    dsimp only
    rw [initIdentity_known hscript]
    exact ⟨⟨rfl, rfl, rfl, rfl, rfl⟩, congrArg (List.drop 1) hscript, rfl, rfl, rfl, rfl⟩

end Sys2Proof.Proofs.Poll
end

section
/-! Register Access: the host operations `GET_FEATURE`, `SET_FEATURE` and `CHECK_BUSY`, and where the operations of one
transaction succeed.

Such an operation leaves its state `afterCall`, with the registers it wrote; each operation has one law per answer of the
transport, and the statements follow by the answers there are. -/

namespace Sys2Proof.Proofs.RegisterAccess

open Sys2Proof Sys2Proof.Machine Sys2Proof.Machine.Laws Sys2Proof.Claims Sys2Proof.Proofs.Answers

/-! ### An operation of one transaction -/

/-- `s` after an operation whose one transport call was `mk`, receiving `n` bytes, and whose end left the registers `r`. -/
def afterCall (mk : Answer → Call) (n : Nat) (r : Regs) (s : State) : State :=
  { s with seq := .idle, r := r, trace := [mk (s.nextAnswer n)], responses := s.responses ++ [r.response],
           script := s.script.tail, draws := s.draws + 1 }

theorem afterCall_ended (mk : Answer → Call) (n : Nat) (r : Regs) (s : State) : Ended s (afterCall mk n r s) :=
  ⟨rfl, rfl, rfl, rfl, rfl⟩

theorem afterCall_answered (mk : Answer → Call) (n : Nat) (r : Regs) (s : State) :
    Answered s n (s.nextAnswer n) (afterCall mk n r s) :=
  transport_answered mk n s

theorem afterCall_script {mk : Answer → Call} {n : Nat} {r : Regs} {s : State} {a : Answer} {rest : List Answer}
    (h : s.script = a :: rest) : (afterCall mk n r s).script = rest :=
  congrArg List.tail h

theorem transport_of_answer {s : State} {n : Nat} {a : Answer} (mk : Answer → Call) (h : s.nextAnswer n = a) :
    transport mk n s = (a, (transport mk n s).2) :=
  Prod.ext h rfl

/-! ### `GET_FEATURE` -/

/-- The state in which the steps of a `GET_FEATURE` begin. -/
def acceptedGet (reg : BitVec 2) (s : State) : State :=
  accept .getFeature (s.withRegs fun r => { r with reg := reg })

theorem exec_getFeature {s : State} (reg : BitVec 2) (hidle : s.seq = .idle) :
    exec (.getFeature reg) s = .next (getFeatureOp (acceptedGet reg s)) :=
  congrArg _ (request_idle _ _ _ hidle)

/-- The call of a `GET_FEATURE` (R93). -/
def getCall (reg : BitVec 2) : Answer → Call := .sendReceive [0x0F, regAddr reg] 1

theorem exec_getFeature_ok {s : State} {b : Byte} (reg : BitVec 2) (hidle : s.seq = .idle)
    (h : s.nextAnswer 1 = .ok [b]) :
    exec (.getFeature reg) s = .next (afterCall (getCall reg) 1
      { s.r with op := 6, reg := reg, rbyte := b, st := if reg = 2 then b else s.r.st, res := .success } s) := by
  have hcall : getFeature (regAddr reg) (acceptedGet reg s) = _ := transport_of_answer (getCall reg) h
  have hreg : (acceptedGet reg s).r.reg = reg := rfl
  rw [exec_getFeature reg hidle, getFeatureOp, hreg, hcall]
  dsimp only
  rw [transport_r, hreg, sampleStatus_reg]
  rfl

theorem exec_getFeature_err {s : State} {e : TransportError} (reg : BitVec 2) (hidle : s.seq = .idle)
    (howed : s.r.wdOwed = false) (h : s.nextAnswer 1 = .err e) :
    exec (.getFeature reg) s = .next (afterCall (getCall reg) 1
      { s.r with op := 6, reg := reg, terr := e, res := .transportError } s) := by
  have hcall : getFeature (regAddr reg) (acceptedGet reg s) = _ := transport_of_answer (getCall reg) h
  have hreg : (acceptedGet reg s).r.reg = reg := rfl
  rw [exec_getFeature reg hidle, getFeatureOp, hreg, hcall]
  dsimp only
  rw [raise_not_owed _ (by exact howed)]
  rfl

/-- Settles O15: the answer is a byte, which is `r.ST` too under the status register's selector, or a failure. -/
theorem getFeatureRun : Obligations.GetFeatureRun := by
  intro s reg hidle howed
  rw [← regAddr_eq]
  obtain ⟨b, h⟩ | ⟨e, h⟩ := nextAnswer_one s
  · exact ⟨_, _, exec_getFeature_ok reg hidle h, afterCall_ended .., rfl, afterCall_answered .., rfl, .inl ⟨b, h, rfl⟩⟩
  · exact ⟨_, _, exec_getFeature_err reg hidle howed h, afterCall_ended .., rfl, afterCall_answered .., rfl,
      .inr ⟨e, h, rfl⟩⟩

/-! ### `SET_FEATURE` -/

/-- Past its guard `setFeature` ends as its transaction does (R143). -/
theorem setFeature_of_ok {s : State} {ra : Byte} {rx : List Byte} (v : Byte) (hra : ra ≠ statusAddress)
    (h : s.nextAnswer 0 = .ok rx) : setFeature ra v s = (.done, (txSetf ra v s).2) := by
  have hcall : txSetf ra v s = (.ok rx, (txSetf ra v s).2) := transport_of_answer _ h
  rw [setFeature, if_neg hra, hcall]

theorem setFeature_of_err {s : State} {ra : Byte} {e : TransportError} (v : Byte) (hra : ra ≠ statusAddress)
    (h : s.nextAnswer 0 = .err e) : setFeature ra v s = (.transportError e, (txSetf ra v s).2) := by
  have hcall : txSetf ra v s = (.err e, (txSetf ra v s).2) := transport_of_answer _ h
  rw [setFeature, if_neg hra, hcall]

/-- The state in which the steps of a `SET_FEATURE` begin. -/
def acceptedSet (reg : BitVec 2) (wval : Byte) (s : State) : State :=
  accept .setFeature (s.withRegs fun r => { r with reg := reg, wval := wval })

theorem exec_setFeature {s : State} (reg : BitVec 2) (wval : Byte) (hidle : s.seq = .idle) :
    exec (.setFeature reg wval) s = .next (setFeatureOp (acceptedSet reg wval s)) :=
  congrArg _ (request_idle _ _ _ hidle)

/-- The call of a `SET_FEATURE` that passes its guard (R94). -/
def setCall (reg : BitVec 2) (wval : Byte) : Answer → Call := .send [0x1F, regAddr reg, wval]

/-- The status register is turned away before any call (R144). -/
theorem exec_setFeature_status {s : State} (wval : Byte) (hidle : s.seq = .idle) (howed : s.r.wdOwed = false) :
    exec (.setFeature 2 wval) s = .next (respond .regAddressInvalid (acceptedSet 2 wval s)) := by
  have hguard : setFeature (regAddr (acceptedSet 2 wval s).r.reg) (acceptedSet 2 wval s).r.wval
      (acceptedSet 2 wval s) = _ := setFeature_status wval (acceptedSet 2 wval s)
  rw [exec_setFeature 2 wval hidle, setFeatureOp, hguard]
  dsimp only
  rw [raise_not_owed _ (by exact howed)]

theorem exec_setFeature_ok {s : State} {reg : BitVec 2} (wval : Byte) (hreg : reg ≠ 2) (hidle : s.seq = .idle)
    (h : s.nextAnswer 0 = .ok []) :
    exec (.setFeature reg wval) s = .next (afterCall (setCall reg wval) 0
      { s.r with op := 7, reg := reg, wval := wval, res := .success } s) := by
  have hset : setFeature (regAddr (acceptedSet reg wval s).r.reg) (acceptedSet reg wval s).r.wval
      (acceptedSet reg wval s) = _ := setFeature_of_ok wval (mt (regAddr_status reg).1 hreg) h
  rw [exec_setFeature reg wval hidle, setFeatureOp, hset]
  rfl

theorem exec_setFeature_err {s : State} {reg : BitVec 2} {e : TransportError} (wval : Byte) (hreg : reg ≠ 2)
    (hidle : s.seq = .idle) (howed : s.r.wdOwed = false) (h : s.nextAnswer 0 = .err e) :
    exec (.setFeature reg wval) s = .next (afterCall (setCall reg wval) 0
      { s.r with op := 7, reg := reg, wval := wval, terr := e, res := .transportError } s) := by
  have hset : setFeature (regAddr (acceptedSet reg wval s).r.reg) (acceptedSet reg wval s).r.wval
      (acceptedSet reg wval s) = _ := setFeature_of_err wval (mt (regAddr_status reg).1 hreg) h
  rw [exec_setFeature reg wval hidle, setFeatureOp, hset]
  dsimp only
  rw [raise_not_owed _ (by exact howed)]
  rfl

/-- Settles O16: selector 2 alone names the status register; past the guard the answer is empty or a failure. -/
theorem setFeatureRun : Obligations.SetFeatureRun := by
  intro s reg wval hidle howed
  rw [← regAddr_eq]
  by_cases hreg : reg = 2
  · subst hreg
    exact ⟨_, exec_setFeature_status wval hidle howed, ⟨rfl, rfl, rfl, rfl, rfl⟩, rfl, fun _ => ⟨rfl, rfl, rfl⟩,
      fun hne => absurd rfl hne⟩
  · obtain h | ⟨e, h⟩ := nextAnswer_zero s
    · exact ⟨_, exec_setFeature_ok wval hreg hidle h, afterCall_ended .., rfl, fun heq => absurd heq hreg,
        fun _ => ⟨_, afterCall_answered .., rfl, .inl ⟨h, rfl⟩⟩⟩
    · exact ⟨_, exec_setFeature_err wval hreg hidle howed h, afterCall_ended .., rfl, fun heq => absurd heq hreg,
        fun _ => ⟨_, afterCall_answered .., rfl, .inr ⟨e, h, rfl⟩⟩⟩

/-! ### `CHECK_BUSY` -/

theorem exec_checkBusy {s : State} (hidle : s.seq = .idle) :
    exec .checkBusy s = .next (checkBusyOp (accept .checkBusy s)) :=
  congrArg _ (request_idle _ _ _ hidle)

theorem exec_checkBusy_ok {s : State} {b : Byte} (hidle : s.seq = .idle) (h : s.nextAnswer 1 = .ok [b]) :
    exec .checkBusy s = .next (afterCall statusRead 1
      { s.r with op := 9, st := b, rbusy := b.getLsbD 0, res := .success } s) := by
  have hcall : getFeature statusAddress (accept .checkBusy s) = _ := transport_of_answer statusRead h
  rw [exec_checkBusy hidle, checkBusyOp, hcall, ← oip_eq]
  rfl

theorem exec_checkBusy_err {s : State} {e : TransportError} (hidle : s.seq = .idle) (howed : s.r.wdOwed = false)
    (h : s.nextAnswer 1 = .err e) :
    exec .checkBusy s = .next (afterCall statusRead 1 { s.r with op := 9, terr := e, res := .transportError } s) := by
  have hcall : getFeature statusAddress (accept .checkBusy s) = _ := transport_of_answer statusRead h
  rw [exec_checkBusy hidle, checkBusyOp, hcall]
  dsimp only
  rw [raise_not_owed _ (by exact howed)]
  rfl

/-- Settles O17: the answer is a byte, whose bit 0 is the busy bit, or a failure. -/
theorem checkBusyRun : Obligations.CheckBusyRun := by
  intro s hidle howed
  obtain ⟨b, h⟩ | ⟨e, h⟩ := nextAnswer_one s
  · exact ⟨_, _, exec_checkBusy_ok hidle h, afterCall_ended .., rfl, afterCall_answered .., rfl, .inl ⟨b, h, rfl⟩⟩
  · exact ⟨_, _, exec_checkBusy_err hidle howed h, afterCall_ended .., rfl, afterCall_answered .., rfl,
      .inr ⟨e, h, rfl⟩⟩

/-! ### Where the operations of one transaction succeed -/

theorem exec_readId {s : State} (hidle : s.seq = .idle) : exec .readId s = .next (readIdOp (accept .readId s)) :=
  congrArg _ (request_idle _ _ _ hidle)

/-- The call of a `READ_ID` (R95). -/
def idCall (dummy : Byte) : Answer → Call := .sendReceive [0x9F, dummy] 2

theorem exec_readId_ok {s : State} {m d : Byte} (hidle : s.seq = .idle) (h : s.nextAnswer 2 = .ok [m, d]) :
    exec .readId s = .next (afterCall (idCall s.cfg.dummy) 2
      { s.r with op := 2, mfr := m, dev := d, res := .success } s) := by
  have hcall : txId (accept .readId s) = _ := transport_of_answer (idCall s.cfg.dummy) h
  rw [exec_readId hidle, readIdOp, identitySteps, hcall]
  rfl

/-- Settles O25: each operation's law for the answer scheduled; its result does not depend on what is owed. -/
theorem singleTransactionOperationsSucceed : Obligations.SingleTransactionOperationsSucceed := by
  intro s reg wval b m d rest hidle
  rw [← regAddr_eq]
  refine ⟨fun h => ?_, fun h hreg => ?_, fun h => ?_, fun h => ?_⟩
  · exact ⟨_, exec_getFeature_ok reg hidle (nextAnswer_scripted_ok h rfl), afterCall_ended .., afterCall_script h, rfl,
      rfl⟩
  · have hans : s.nextAnswer 0 = .ok [] := nextAnswer_scripted_ok h rfl
    exact ⟨_, exec_setFeature_ok wval hreg hidle hans, afterCall_ended .., afterCall_script h, rfl,
      congrArg (fun a => [setCall reg wval a]) hans⟩
  · exact ⟨_, exec_checkBusy_ok hidle (nextAnswer_scripted_ok h rfl), afterCall_ended .., afterCall_script h, rfl, rfl⟩
  · exact ⟨_, exec_readId_ok hidle (nextAnswer_scripted_ok h rfl), afterCall_ended .., afterCall_script h, rfl, rfl,
      rfl⟩

end Sys2Proof.Proofs.RegisterAccess
end

section
/-! A run of an operation: its state after the calls made so far, whose counter and sample are those the trace says, and
what one more call, a delay, or a poll makes of it. -/

namespace Sys2Proof.Proofs.Runs

open Sys2Proof Sys2Proof.Machine Sys2Proof.Machine.Laws Sys2Proof.Claims Sys2Proof.Proofs.Poll

/-! ### What a longer trace says of the counter and the sample -/

/-- No poll has begun. -/
def Quiet (calls : List Call) : Prop := ∀ c ∈ calls, isStatusRead c = false

/-- A call with an answer that is no status read. -/
def isPlain (c : Call) : Bool := !isStatusRead c && (answerOf c).isSome

theorem isPlain_iff (c : Call) : isPlain c = true ↔ isStatusRead c = false ∧ (answerOf c).isSome = true := by
  simp [isPlain]

theorem Quiet.nil : Quiet [] := fun _ h => by cases h

theorem Quiet.append {xs ys : List Call} (hx : Quiet xs) (hy : Quiet ys) : Quiet (xs ++ ys) :=
  fun c hc => (List.mem_append.1 hc).elim (hx c) (hy c)

theorem not_quiet_append {xs : List Call} (ys : List Call) (h : ¬ Quiet xs) : ¬ Quiet (xs ++ ys) :=
  fun hall => h fun c hc => hall c (List.mem_append_left ys hc)

theorem Quiet.singleton {c : Call} (h : isStatusRead c = false) : Quiet [c] :=
  fun _ hc => List.mem_singleton.1 hc ▸ h

theorem dropWhile_quiet {xs : List Call} (h : Quiet xs) : xs.dropWhile (fun c => !isStatusRead c) = [] :=
  List.dropWhile_eq_nil_iff.2 fun c hc => by rw [h c hc]; rfl

/-- Calls before the poll do not count. -/
theorem countAfter_append_of_quiet {xs : List Call} (n : Nat) (ys : List Call) (h : Quiet xs) :
    countAfter n (xs ++ ys) = countAfter n ys := by
  rw [countAfter, List.dropWhile_append, dropWhile_quiet h]
  rfl

theorem countAfter_of_quiet {xs : List Call} (n : Nat) (h : Quiet xs) : countAfter n xs = n := by
  rw [countAfter, dropWhile_quiet h]

/-- Once the poll has begun, a call with an answer does not count. -/
theorem countAfter_append_answered {xs : List Call} {c : Call} (n : Nat) (hbegun : ¬ Quiet xs)
    (hc : (answerOf c).isSome = true) : countAfter n (xs ++ [c]) = countAfter n xs := by
  have hne : xs.dropWhile (fun c => !isStatusRead c) ≠ [] := by
    intro hnil
    exact hbegun fun x hx => by simpa using List.dropWhile_eq_nil_iff.1 hnil x hx
  obtain ⟨x, rest, hdrop⟩ := List.exists_cons_of_ne_nil hne
  have hzero : [c].countP (fun c => (answerOf c).isNone) = 0 := by simp [Option.isSome_iff_ne_none.1 hc]
  simp only [countAfter, List.dropWhile_append, hdrop, List.isEmpty_cons, Bool.false_eq_true, if_false,
    List.cons_append, List.countP_append, hzero, Nat.add_zero]

/-- A call with an answer that is no status read does not count, wherever it is made. -/
theorem countAfter_append_plain {c : Call} (n : Nat) (xs : List Call) (hc : isPlain c = true) :
    countAfter n (xs ++ [c]) = countAfter n xs := by
  obtain ⟨hread, hans⟩ := (isPlain_iff c).1 hc
  by_cases hquiet : Quiet xs
  · rw [countAfter_of_quiet n hquiet, countAfter_of_quiet n (hquiet.append (.singleton hread))]
  · exact countAfter_append_answered n hquiet hans

theorem lastShown_append (st : Byte) (xs ys : List Call) :
    lastShown st (xs ++ ys) = lastShown (lastShown st xs) ys := by
  simp only [lastShown, List.filterMap_append, List.getLastD_eq_getLast?, List.getLast?_append, Option.getD_or]

/-- Only a status read shows a status byte. -/
theorem statusShown_eq_none {c : Call} (h : isStatusRead c = false) : statusShown c = none := by
  unfold statusShown
  split
  · cases h
  · rfl

theorem lastShown_singleton {c : Call} (st : Byte) (h : isStatusRead c = false) : lastShown st [c] = st := by
  rw [lastShown, List.filterMap_cons_none (statusShown_eq_none h)]
  rfl

/-! ### The state of a run -/

/-- `s` after these calls, `used` of them answered: the counter and the sample are those the calls say. -/
def ran (s : State) (calls : List Call) (used : Nat) : State :=
  polled s (countAfter s.r.cnt calls) (lastShown s.r.st calls) calls used

theorem ran_nil (s : State) : ran s [] 0 = s := by
  simp [ran, polled, countAfter, lastShown]

/-- Calls before the poll, and what follows them. -/
theorem ran_ran {s : State} {xs : List Call} (ys : List Call) (u v : Nat) (h : Quiet xs) :
    ran (ran s xs u) ys v = ran s (xs ++ ys) (u + v) := by
  rw [ran, ran, polled_polled]
  simp only [polled_r, ran, countAfter_of_quiet _ h, countAfter_append_of_quiet _ ys h, lastShown_append]

/-- A call with an answer that is no status read, at any place of a run. -/
theorem polled_ran_plain {c : Call} (s : State) (xs : List Call) (u : Nat) (hc : isPlain c = true) :
    polled (ran s xs u) (ran s xs u).r.cnt (ran s xs u).r.st [c] 1 = ran s (xs ++ [c]) (u + 1) := by
  rw [ran, polled_polled]
  simp only [polled_r, ran, countAfter_append_plain _ xs hc, lastShown_append,
    lastShown_singleton _ ((isPlain_iff c).1 hc).1]

/-- A status read once the poll has begun, sampled. -/
theorem polled_ran_statusRead {s : State} {xs : List Call} (u : Nat) (a : Answer) (hbegun : ¬ Quiet xs) :
    polled (ran s xs u) (ran s xs u).r.cnt (lastShown (ran s xs u).r.st [statusRead a]) [statusRead a] 1 =
      ran s (xs ++ [statusRead a]) (u + 1) := by
  have hcount := countAfter_append_answered (c := statusRead a) s.r.cnt hbegun rfl
  rw [ran, polled_polled]
  simp only [polled_r, ran, hcount, lastShown_append]

/-! ### One more step of a run -/

theorem delay_ran {s : State} {xs : List Call} (ms u : Nat) (h : Quiet xs) :
    delay ms (ran s xs u) = ran s (xs ++ [.delay ms]) u :=
  ran_ran [.delay ms] u 0 h

/-- A transport call of a run that is no status read. -/
theorem transport_ran {mk : Answer → Call} (n : Nat) (s : State) (xs : List Call) (u : Nat)
    (hmk : ∀ a, isPlain (mk a) = true) :
    transport mk n (ran s xs u) =
      ((ran s xs u).nextAnswer n, ran s (xs ++ [mk ((ran s xs u).nextAnswer n)]) (u + 1)) := by
  rw [← polled_ran_plain s xs u (hmk _)]
  simp [transport, polled, ran]

theorem transport_ran_cases {mk : Answer → Call} (n : Nat) (s : State) (xs : List Call) (u : Nat)
    (hmk : ∀ a, isPlain (mk a) = true) :
    (∃ e, transport mk n (ran s xs u) = (.err e, ran s (xs ++ [mk (.err e)]) (u + 1))) ∨
      ∃ rx, rx.length = n ∧ transport mk n (ran s xs u) = (.ok rx, ran s (xs ++ [mk (.ok rx)]) (u + 1)) := by
  rw [transport_ran n s xs u hmk]
  obtain ⟨e, h⟩ | ⟨rx, h, hlen⟩ := nextAnswer_cases (ran s xs u) n
  · exact .inl ⟨e, by rw [h]⟩
  · exact .inr ⟨rx, hlen, by rw [h]⟩

/-- The answer a run gets is the one at its place in the schedule. -/
theorem nextAnswer_ran {s : State} {u : Nat} {rx : List Byte} {rest : List Answer} (xs : List Call) {n : Nat}
    (hlen : rx.length = n) (h : s.script.drop u = .ok rx :: rest) : (ran s xs u).nextAnswer n = .ok rx :=
  nextAnswer_scripted_ok h hlen

theorem transport_ran_scripted {mk : Answer → Call} {n : Nat} {s : State} {u : Nat} {rx : List Byte}
    {rest : List Answer} (xs : List Call) (hmk : ∀ a, isPlain (mk a) = true) (hlen : rx.length = n)
    (h : s.script.drop u = .ok rx :: rest) :
    transport mk n (ran s xs u) = (.ok rx, ran s (xs ++ [mk (.ok rx)]) (u + 1)) := by
  rw [transport_ran n s xs u hmk, nextAnswer_ran xs hlen h]

/-! ### The poll of a run -/

theorem waitUntilReady_ran {s : State} {xs : List Call} (p : PollCfg) (u : Nat) (h : Quiet xs) :
    ∃ out calls used, PollRun p calls out ∧
      waitUntilReady p (ran s xs u) = (out, ran s (xs ++ calls) (u + used)) := by
  obtain ⟨out, calls, used, hrun, heq⟩ := waitUntilReady_countAfter p (ran s xs u) (ran s xs u).r.cnt
  exact ⟨out, calls, used, hrun, by rw [heq, ← ran_ran calls u used h]; rfl⟩

/-- The poll of a run with the first ready byte shown within the bound. -/
theorem waitUntilReady_ran_ready {p : PollCfg} {s : State} {xs : List Call} {u : Nat} {bs : List Byte} {b : Byte}
    {rest : List Answer} (h : Quiet xs) (hbusy : allBusy bs) (hb : b.getLsbD 0 = false)
    (hlen : bs.length ≤ p.maxAttempts) (hscript : s.script.drop u = shown bs ++ .ok [b] :: rest) :
    waitUntilReady p (ran s xs u) = (.ready,
      ran s (xs ++ pollCalls p.interPollDelay (shown bs ++ [.ok [b]])) (u + (bs.length + 1))) := by
  have hne : shown bs ++ [.ok [b]] ≠ [] := List.append_ne_nil_of_right_ne_nil _ (List.cons_ne_nil _ _)
  have hcount : (shown bs ++ [Answer.ok [b]]).length - 1 = bs.length := by simp [shown]
  have hran (t : State) : polled t bs.length b (pollCalls p.interPollDelay (shown bs ++ [.ok [b]])) (bs.length + 1) =
      ran t (pollCalls p.interPollDelay (shown bs ++ [.ok [b]])) (bs.length + 1) := by
    rw [ran, countAfter_pollCalls _ _ hne, hcount, lastShown_shown_ok]
  rw [waitUntilReady_ready (s := ran s xs u) hbusy hb hlen hscript, hran, ran_ran _ u _ h]

/-- A poll reads the status register. -/
theorem not_quiet_of_pollRun {p : PollCfg} {calls : List Call} {out : PollResult} (xs : List Call)
    (h : PollRun p calls out) : ¬ Quiet (xs ++ calls) := by
  have hread {as : List Answer} (hne : as ≠ []) (hcalls : calls = pollCalls p.interPollDelay as) :
      ¬ Quiet (xs ++ calls) := by
    obtain ⟨a, as, rfl⟩ := List.exists_cons_of_ne_nil hne
    intro hquiet
    exact Bool.noConfusion (hquiet (statusRead a) (by simp [hcalls, pollCalls]))
  cases out with
  | ready =>
    obtain ⟨bs, b, -, -, -, hcalls⟩ := h
    exact hread (by simp) hcalls
  | busy =>
    obtain ⟨bs, -, hlen, hcalls⟩ := h
    have hne : bs ≠ [] := List.ne_nil_of_length_eq_add_one hlen
    exact hread (by simpa [shown] using hne) hcalls
  | transportError e =>
    obtain ⟨bs, -, -, hcalls⟩ := h
    exact hread (by simp) hcalls

/-! ### The calls that carry an address -/

/-- A command with the row of an address (R88). -/
def rowCall (opc : Byte) (addr : LogicalAddress) : Answer → Call := .send (opc :: rowWire addr)

/-- A row command of a translated address is one call with the row's bytes (R89). -/
theorem txRow_translate {addr : LogicalAddress} {p : Phys} (opc : Byte) (h : Machine.translate addr = some p) :
    txRow opc p.rowAddr = transport (rowCall opc addr) 0 := by
  rw [txRow, rowBytes_translate h]
  rfl

/-- The column bytes of a translated address (R90). -/
theorem colBytes_translate {addr : LogicalAddress} {p : Phys} (c : Cfg) (h : Machine.translate addr = some p) :
    colBytes (colWord c p) = colWire c addr := by
  rw [colWord_translate c h, colBytes_ofNat, colWire]
  cases c.planeInCol with
  | false => simp
  | true =>
    have hhigh : (addr.toNat % 2048 + 4096 * (addr.toNat / 131072 % 2)) / 256 =
        addr.toNat % 2048 / 256 + 16 * (addr.toNat / 131072 % 2) := by omega
    have hlow : BitVec.ofNat 8 (addr.toNat % 2048 + 4096 * (addr.toNat / 131072 % 2)) =
        BitVec.ofNat 8 (addr.toNat % 2048) := BitVec.eq_of_toNat_eq (by simp only [BitVec.toNat_ofNat]; omega)
    simp only [if_true, hhigh, hlow]

end Sys2Proof.Proofs.Runs
end

section
/-! The Command Engine: `READ_ID`, `RESET` and `INIT`, whatever the transport answers. -/

namespace Sys2Proof.Proofs.ResetAndIdentity

open Sys2Proof Sys2Proof.Machine Sys2Proof.Machine.Laws Sys2Proof.Claims Sys2Proof.Proofs.Poll
  Sys2Proof.Proofs.RegisterAccess Sys2Proof.Proofs.Runs

/-! ### `READ_ID` -/

/-- The answer of a call that receives two bytes. -/
theorem nextAnswer_two (s : State) : (∃ m d, s.nextAnswer 2 = .ok [m, d]) ∨ ∃ e, s.nextAnswer 2 = .err e := by
  obtain he | ⟨rx, hrx, hlen⟩ := nextAnswer_cases s 2
  · exact .inr he
  · obtain ⟨m, d, rfl⟩ := List.length_eq_two.1 hlen
    exact .inl ⟨m, d, hrx⟩

theorem exec_readId_err {s : State} {e : TransportError} (hidle : s.seq = .idle) (howed : s.r.wdOwed = false)
    (h : s.nextAnswer 2 = .err e) :
    exec .readId s = .next (afterCall (idCall s.cfg.dummy) 2
      { s.r with op := 2, terr := e, res := .transportError } s) := by
  have hcall : txId (accept .readId s) = _ := transport_of_answer (idCall s.cfg.dummy) h
  rw [exec_readId hidle, readIdOp, identitySteps, hcall]
  dsimp only
  rw [raise_not_owed _ (by exact howed)]
  rfl

/-- Settles O18: the answer is a pair of bytes, which is not compared, or a failure. -/
theorem readIdRun : Obligations.ReadIdRun := by
  intro s hidle howed
  obtain ⟨m, d, h⟩ | ⟨e, h⟩ := nextAnswer_two s
  · exact ⟨_, _, exec_readId_ok hidle h, afterCall_ended .., rfl, afterCall_answered .., rfl, .inl ⟨m, d, h, rfl⟩⟩
  · exact ⟨_, _, exec_readId_err hidle howed h, afterCall_ended .., rfl, afterCall_answered .., rfl,
      .inr ⟨e, h, rfl⟩⟩

/-! ### The reset steps -/

/-- The result of reset steps whose poll ends so (R163). -/
def resetResult : PollResult → ResultKind
  | .ready            => .success
  | .busy             => .busy
  | .transportError _ => .resetFailed

theorem resetRun_of_pollRun {c : Cfg} {poll : List Call} {out : PollResult} (h : PollRun c.pollReset poll out) :
    ResetRun c (resetCalls c poll) (resetResult out) := by
  refine .inr ⟨poll, out, h, rfl, ?_⟩
  cases out with
  | ready => exact .inl ⟨rfl, rfl⟩
  | busy => exact .inr (.inl ⟨rfl, rfl⟩)
  | transportError e => exact .inr (.inr ⟨⟨e, rfl⟩, rfl⟩)

/-- The reset steps, alone or inside `INIT`, after the transmit was carried. -/
theorem resetSteps_of_send {caller : PollCaller} {s t u : State} {rx : List Byte} {out : PollResult}
    (hcaller : caller = .init ∨ caller = .reset) (hsend : txCmd Opcode.reset s = (.ok rx, t))
    (hpoll : waitUntilReady t.cfg.pollReset (delay t.cfg.tPorMs t) = (out, u)) :
    resetSteps caller s = (resetResult out, u) := by
  have hcfg : t.pollCfg caller = t.cfg.pollReset := by
    obtain rfl | rfl := hcaller <;> rfl
  rw [resetSteps, hsend]
  dsimp only
  rw [hcfg, hpoll]
  cases out <;> rfl

/-- The reset steps of a run. -/
theorem resetSteps_ran {caller : PollCaller} {s : State} {xs : List Call} (u : Nat)
    (hcaller : caller = .init ∨ caller = .reset) (h : Quiet xs) :
    ∃ calls k used, ResetRun s.cfg calls k ∧ resetSteps caller (ran s xs u) = (k, ran s (xs ++ calls) used) := by
  obtain ⟨e, hsend⟩ | ⟨rx, hlen, hsend⟩ := transport_ran_cases (mk := .send [0xFF]) 0 s xs u fun _ => rfl
  · have herr : txCmd Opcode.reset (ran s xs u) = _ := hsend
    exact ⟨_, .resetFailed, _, .inl ⟨e, rfl, rfl⟩, by rw [resetSteps, herr]⟩
  · obtain rfl := List.length_eq_zero_iff.1 hlen
    have hquiet := h.append (Quiet.singleton (c := .send [0xFF] (.ok [])) rfl)
    have hdelayed := hquiet.append (Quiet.singleton (c := .delay s.cfg.tPorMs) rfl)
    obtain ⟨out, poll, used, hrun, hpoll⟩ := waitUntilReady_ran (s := s) s.cfg.pollReset (u + 1) hdelayed
    have hcalls : xs ++ [.send [0xFF] (.ok [])] ++ [.delay s.cfg.tPorMs] ++ poll = xs ++ resetCalls s.cfg poll := by
      simp [resetCalls]
    rw [← delay_ran _ _ hquiet, hcalls] at hpoll
    exact ⟨_, _, _, resetRun_of_pollRun hrun, resetSteps_of_send hcaller hsend hpoll⟩

/-! ### `RESET` -/

theorem resetOp_of_steps {s t : State} {k : ResultKind} (h : resetSteps .reset s = (k, t))
    (howed : t.r.wdOwed = false) : resetOp s = respond k t := by
  rw [resetOp, h]
  split
  next heq => cases heq; rfl
  next heq => cases heq; exact raise_not_owed _ howed

/-- Settles O19: with nothing owed the operation is the reset steps and the response with their result. -/
theorem resetOperationRun : Obligations.ResetOperationRun := by
  intro s hidle howed
  obtain ⟨calls, k, used, hrun, hsteps⟩ := resetSteps_ran (s := accept .reset s) 0 (.inr rfl) Quiet.nil
  rw [ran_nil] at hsteps
  refine ⟨_, k, exec_reset hidle, ?_⟩
  rw [resetOp_of_steps hsteps (by exact howed)]
  exact ⟨⟨rfl, rfl, rfl, rfl, rfl⟩, rfl, hrun, rfl⟩

/-! ### `INIT` -/

/-- The comparison of `INIT` (R166). -/
def identityResult (m d : Byte) : ResultKind := if m = 0x2C ∧ d = 0x24 then .success else .wrongId

/-- After an answered identity transaction the pair settles the result. -/
theorem initIdentity_of_ok {s t : State} {m d : Byte} (hid : txId s = (.ok [m, d], t))
    (howed : t.r.wdOwed = false) : initIdentity s = respond (identityResult m d) (t.setIdentity m d) := by
  have hok : identityOk (t.setIdentity m d) = decide (m = 0x2C ∧ d = 0x24) := by
    rw [Bool.decide_and]; rfl
  rw [initIdentity, identitySteps, hid]
  simp only [byteAt, List.getD_cons_zero, List.getD_cons_succ, hok, identityResult, decide_eq_true_eq]
  split
  · rfl
  · exact raise_not_owed _ howed

theorem initIdentity_of_err {s t : State} {e : TransportError} (hid : txId s = (.err e, t))
    (howed : t.r.wdOwed = false) : initIdentity s = respond .resetFailed t := by
  rw [initIdentity, identitySteps, hid]
  exact raise_not_owed _ howed

theorem initOp_of_success {s t : State} (h : resetSteps .init (delay s.cfg.tPorMs s) = (.success, t)) :
    initOp s = initIdentity t := by
  rw [initOp, h]

theorem initOp_of_failure {s t : State} {k : ResultKind}
    (h : resetSteps .init (delay s.cfg.tPorMs s) = (k, t)) (hk : k ≠ .success) (howed : t.r.wdOwed = false) :
    initOp s = respond .resetFailed t := by
  rw [initOp, h]
  split
  next heq => cases heq; exact absurd rfl hk
  next heq => cases heq; exact raise_not_owed _ howed

/-- Settles O20: the reset steps run after the delay of `INIT`, and the identity is read only if they succeeded. -/
theorem initRun : Obligations.InitRun := by
  intro s hidle howed
  have hdelay : delay s.cfg.tPorMs (accept .init s) = ran (accept .init s) [.delay s.cfg.tPorMs] 0 := rfl
  obtain ⟨calls, k, used, hrun, hsteps⟩ := resetSteps_ran (s := accept .init s) (xs := [.delay s.cfg.tPorMs]) 0
    (.inl rfl) (.singleton rfl)
  rw [← hdelay] at hsteps
  refine ⟨_, calls, k, exec_init hidle, ?_⟩
  by_cases hk : k = .success
  · subst hk
    rw [initOp_of_success hsteps]
    obtain ⟨e, hid⟩ | ⟨rx, hlen, hid⟩ := transport_ran_cases (mk := idCall s.cfg.dummy) 2 (accept .init s)
      ([.delay s.cfg.tPorMs] ++ calls) used fun _ => rfl
    · rw [initIdentity_of_err hid (by exact howed)]
      exact ⟨⟨rfl, rfl, rfl, rfl, rfl⟩, rfl, hrun, .inr (.inl ⟨e, rfl, rfl, rfl⟩)⟩
    · obtain ⟨m, d, rfl⟩ := List.length_eq_two.1 hlen
      rw [initIdentity_of_ok hid (by exact howed)]
      exact ⟨⟨rfl, rfl, rfl, rfl, rfl⟩, rfl, hrun, .inr (.inr ⟨m, d, rfl, rfl, rfl⟩)⟩
  · rw [initOp_of_failure hsteps hk (by exact howed)]
    exact ⟨⟨rfl, rfl, rfl, rfl, rfl⟩, rfl, hrun, .inl ⟨hk, rfl, rfl⟩⟩

end Sys2Proof.Proofs.ResetAndIdentity
end

section
/-! The Command Engine: `PAGE_READ`. One equation per branch of its steps; the failures and the success end alike but
for the buffer; the statements follow by the answers there are. -/

namespace Sys2Proof.Proofs.PageRead

open Sys2Proof Sys2Proof.Machine Sys2Proof.Machine.Laws Sys2Proof.Claims Sys2Proof.Proofs.Translator
  Sys2Proof.Proofs.Poll Sys2Proof.Proofs.Runs

/-! ### The branches of `PAGE_READ` -/

/-- The call of cache to host (R170 step 3). -/
def fetchCall (c : Cfg) (addr : LogicalAddress) (len : BitVec 16) : Answer → Call :=
  .sendReceive (0x03 :: (colWire c addr ++ [c.dummy])) len.toNat

theorem txColrd_translate {addr : LogicalAddress} {p : Phys} (s : State) (len : BitVec 16)
    (h : Machine.translate addr = some p) :
    txColrd (colWord s.cfg p) len.toNat s = transport (fetchCall s.cfg addr len) len.toNat s := by
  rw [txColrd, colBytes_translate _ h]
  rfl

theorem pageReadOp_oversize {s : State} (h : 2176 < s.r.len.toNat) : pageReadOp s = readFailure .readFailed s :=
  if_pos h

section
variable {s t u : State} {p : Phys} (hlen : s.r.len.toNat ≤ Config.pageSize)
include hlen

theorem pageReadOp_outOfRange (h : 268435456 ≤ s.r.addr.toNat) :
    pageReadOp s = readFailure .addressOutOfRange s := by
  rw [pageReadOp, if_neg (Nat.not_lt.2 hlen), translate_of_not_inRange h]

variable (hp : Machine.translate s.r.addr = some p)
include hp

theorem pageReadOp_of_load_err {e : TransportError} (h : txRow Opcode.pageRead p.rowAddr s = (.err e, t)) :
    pageReadOp s = readFailure .readFailed t := by
  rw [pageReadOp, if_neg (Nat.not_lt.2 hlen), hp]
  dsimp only
  rw [h]

theorem pageReadOp_of_poll {rx : List Byte} {out : PollResult}
    (hload : txRow Opcode.pageRead p.rowAddr s = (.ok rx, t)) (hpoll : waitUntilReady t.cfg.pollRead t = (out, u)) :
    pageReadOp s = if out = .ready then readCacheStep p u else readFailure .readFailed u := by
  have hcfg : waitUntilReady (t.pollCfg .pageRead) t = (out, u) := hpoll
  rw [pageReadOp, if_neg (Nat.not_lt.2 hlen), hp]
  dsimp only
  rw [hload]
  dsimp only
  rw [hcfg]
  cases out <;> rfl

end

theorem readCacheStep_of_err {s t : State} {p : Phys} {e : TransportError}
    (h : txColrd (colWord s.cfg p) s.r.len.toNat s = (.err e, t)) : readCacheStep p s = readFailure .readFailed t := by
  rw [readCacheStep, h]

theorem readCacheStep_of_ok {s t : State} {p : Phys} {rx : List Byte}
    (h : txColrd (colWord s.cfg p) s.r.len.toNat s = (.ok rx, t)) :
    readCacheStep p s = respond .success { t with buf := Buffer.storePrefix t.buf rx } := by
  rw [readCacheStep, h]

/-! ### How it ends -/

/-- The state in which the steps of a `PAGE_READ` begin. -/
def acceptedRead (addr : LogicalAddress) (len : BitVec 16) (s : State) : State :=
  accept .pageRead (s.withRegs fun r => { r with addr := addr, len := len })

theorem exec_pageRead {s : State} (addr : LogicalAddress) (len : BitVec 16) (hidle : s.seq = .idle) :
    exec (.pageRead addr len) s = .next (pageReadOp (acceptedRead addr len s)) :=
  congrArg _ (request_idle _ _ _ hidle)

/-- What every `PAGE_READ` that made these calls and ended with `k` leaves of `s`. -/
structure ReadEnded (s : State) (addr : LogicalAddress) (len : BitVec 16) (calls : List Call) (k : ResultKind)
    (t : State) : Prop where
  ended : Ended s t
  trace : t.trace = calls
  regs : t.r = { s.r with op := 3, addr := addr, len := len, cnt := countAfter s.r.cnt calls,
                          st := lastShown s.r.st calls, res := k }
  outside : ∀ j, len.toNat ≤ j → Buffer.read t.buf j = Buffer.read s.buf j

section
variable (s : State) (addr : LogicalAddress) (len : BitVec 16) (calls : List Call) (used : Nat)

theorem readFailure_readEnded (k : ResultKind) (howed : s.r.wdOwed = false) :
    ReadEnded s addr len calls k (readFailure k (ran (acceptedRead addr len s) calls used)) := by
  rw [readFailure_eq k (by exact howed)]
  exact ⟨⟨rfl, rfl, rfl, rfl, rfl⟩, rfl, rfl,
    fun j hj => read_spoilBuffer (ran (acceptedRead addr len s) calls used) hj⟩

/-- The end of a `PAGE_READ` whose last transaction received `rx`. -/
def readSuccess (rx : List Byte) : State :=
  respond .success { ran (acceptedRead addr len s) calls used with buf := Buffer.storePrefix s.buf rx }

theorem readSuccess_readEnded {rx : List Byte} (h : rx.length = len.toNat) :
    ReadEnded s addr len calls .success (readSuccess s addr len calls used rx) := by
  refine ⟨⟨rfl, rfl, rfl, rfl, rfl⟩, rfl, rfl, fun j hj => ?_⟩
  exact (read_storePrefix s.buf rx j).trans (if_neg (by omega))

theorem read_readSuccess {rx : List Byte} {j : Nat} (h : j < rx.length) :
    Buffer.read (readSuccess s addr len calls used rx).buf j = rx[j] := by
  refine (read_storePrefix s.buf rx j).trans ?_
  rw [if_pos h, List.getD_eq_getElem _ _ h]

end

/-! ### Whatever the transport answers -/

/-- Settles O24: the length guard comes first, and the spoiled buffer keeps its form. -/
theorem oversizeReadMakesNoCall : Obligations.OversizeReadMakesNoCall := by
  intro s addr len hidle howed hlen
  refine ⟨_, exec_pageRead addr len hidle, ?_⟩
  rw [pageReadOp_oversize (by exact hlen), readFailure_eq _ (by exact howed)]
  exact ⟨⟨rfl, rfl, rfl, rfl, rfl⟩, rfl, rfl, rfl, fun hwf => wf_spoilBuffer (s := acceptedRead addr len s) hwf⟩

/-- The endings of a `PAGE_READ` that passes its guards, by the calls made. -/
inductive ReadPast (s : State) (addr : LogicalAddress) (len : BitVec 16) : List Call → ResultKind → State → Prop
  | loadFailed (e : TransportError) (t : State) : ReadPast s addr len [rowCall 0x13 addr (.err e)] .readFailed t
  | pollFailed {calls : List Call} {out : PollResult} (hpoll : PollRun s.cfg.pollRead calls out)
      (hout : out ≠ .ready) (t : State) :
      ReadPast s addr len (rowCall 0x13 addr (.ok []) :: calls) .readFailed t
  | fetchFailed {calls : List Call} (hpoll : PollRun s.cfg.pollRead calls .ready) (e : TransportError) (t : State) :
      ReadPast s addr len (rowCall 0x13 addr (.ok []) :: calls ++ [fetchCall s.cfg addr len (.err e)]) .readFailed t
  | fetched {calls : List Call} {rx : List Byte} {t : State} (hpoll : PollRun s.cfg.pollRead calls .ready)
      (hlen : rx.length = len.toNat) (hbuf : ∀ j, (h : j < rx.length) → Buffer.read t.buf j = rx[j]) :
      ReadPast s addr len (rowCall 0x13 addr (.ok []) :: calls ++ [fetchCall s.cfg addr len (.ok rx)]) .success t

theorem pageReadOp_readPast {s : State} {addr : LogicalAddress} {len : BitVec 16} (howed : s.r.wdOwed = false)
    (hlen : len.toNat ≤ 2176) (haddr : addr.toNat < 268435456) :
    ∃ calls k, ReadEnded s addr len calls k (pageReadOp (acceptedRead addr len s)) ∧
      ReadPast s addr len calls k (pageReadOp (acceptedRead addr len s)) := by
  have hp := translate_eq_physOf haddr
  have hstart : ran (acceptedRead addr len s) [] 0 = acceptedRead addr len s := ran_nil _
  obtain ⟨e, hload⟩ | ⟨rx, hrx, hload⟩ :=
    transport_ran_cases (mk := rowCall 0x13 addr) 0 (acceptedRead addr len s) [] 0 fun _ => rfl <;>
    rw [hstart, ← txRow_translate 0x13 hp] at hload
  · rw [pageReadOp_of_load_err hlen hp hload]
    exact ⟨_, _, readFailure_readEnded s addr len _ _ _ howed, .loadFailed e _⟩
  · obtain rfl := List.length_eq_zero_iff.1 hrx
    obtain ⟨out, calls, used, hrun, hpoll⟩ := waitUntilReady_ran (s := acceptedRead addr len s)
      (xs := [rowCall 0x13 addr (.ok [])]) s.cfg.pollRead 1 (.singleton rfl)
    rw [pageReadOp_of_poll hlen hp hload hpoll]
    by_cases hout : out = .ready
    · subst hout
      rw [if_pos rfl]
      obtain ⟨e, hfetch⟩ | ⟨rx, hrx, hfetch⟩ := transport_ran_cases (mk := fetchCall s.cfg addr len) len.toNat
        (acceptedRead addr len s) ([rowCall 0x13 addr (.ok [])] ++ calls) (1 + used) fun _ => rfl
      · rw [readCacheStep_of_err ((txColrd_translate _ len hp).trans hfetch)]
        exact ⟨_, _, readFailure_readEnded s addr len _ _ _ howed, .fetchFailed hrun e _⟩
      · rw [readCacheStep_of_ok ((txColrd_translate _ len hp).trans hfetch)]
        exact ⟨_, _, readSuccess_readEnded s addr len _ _ hrx,
          .fetched hrun hrx fun j => read_readSuccess s addr len _ _⟩
    · rw [if_neg hout]
      exact ⟨_, _, readFailure_readEnded s addr len _ _ _ howed, .pollFailed hrun hout _⟩

/-- Settles O21: the guards, and past them the endings by the calls made. -/
theorem pageReadRun : Obligations.PageReadRun := by
  intro s addr len hidle howed load fetch
  have hguard (k : ResultKind) := readFailure_readEnded s addr len [] 0 k howed
  rw [ran_nil] at hguard
  obtain hlong | hlen := Nat.lt_or_ge 2176 len.toNat
  · obtain ⟨hended, htrace, hregs, hbuf⟩ := hguard .readFailed
    refine ⟨_, .readFailed, exec_pageRead addr len hidle, ?_⟩
    rw [pageReadOp_oversize (by exact hlong), htrace]
    exact ⟨hended, hregs, hbuf, .inl ⟨hlong, rfl, rfl⟩⟩
  obtain haddr | haddr := Nat.lt_or_ge addr.toNat 268435456
  · obtain ⟨calls, k, ⟨hended, htrace, hregs, hbuf⟩, hpast⟩ := pageReadOp_readPast howed hlen haddr
    refine ⟨_, k, exec_pageRead addr len hidle, ?_⟩
    rw [htrace]
    refine ⟨hended, hregs, hbuf, .inr (.inr ⟨hlen, haddr, ?_⟩)⟩
    cases hpast with
    | loadFailed e => exact .inl ⟨e, rfl, rfl⟩
    | pollFailed hpoll hout => exact .inr (.inl ⟨_, _, hpoll, hout, rfl, rfl⟩)
    | fetchFailed hpoll e => exact .inr (.inr (.inl ⟨_, e, hpoll, rfl, rfl⟩))
    | fetched hpoll hrx hread => exact .inr (.inr (.inr ⟨_, _, hpoll, rfl, hrx, rfl, hread⟩))
  · obtain ⟨hended, htrace, hregs, hbuf⟩ := hguard .addressOutOfRange
    refine ⟨_, .addressOutOfRange, exec_pageRead addr len hidle, ?_⟩
    rw [pageReadOp_outOfRange hlen haddr, htrace]
    exact ⟨hended, hregs, hbuf, .inr (.inl ⟨hlen, haddr, rfl, rfl⟩)⟩

/-! ### Where it succeeds -/

/-- Settles O27: both transactions are carried, and the poll ends at the first ready byte. -/
theorem pageReadSucceeds : Obligations.PageReadSucceeds := by
  intro s addr len bs b data rest hidle hlen haddr hbusy hb hbound hdata hscript
  have hp := translate_eq_physOf haddr
  have hload := transport_ran_scripted (mk := rowCall 0x13 addr) (n := 0) (s := acceptedRead addr len s) (u := 0) []
    (fun _ => rfl) rfl hscript
  rw [ran_nil, ← txRow_translate 0x13 hp] at hload
  have hafter : s.script.drop 1 = shown bs ++ .ok [b] :: .ok data :: rest := congrArg (List.drop 1) hscript
  have hpoll := waitUntilReady_ran_ready (s := acceptedRead addr len s) (xs := [rowCall 0x13 addr (.ok [])]) (u := 1)
    (p := s.cfg.pollRead) (.singleton rfl) hbusy hb hbound hafter
  have hlast : s.script.drop (1 + (bs.length + 1)) = .ok data :: rest := by
    rw [← List.drop_drop]
    exact drop_shown_read hafter
  have hfetch := transport_ran_scripted (mk := fetchCall s.cfg addr len) (s := acceptedRead addr len s)
    ([rowCall 0x13 addr (.ok [])] ++ pollCalls s.cfg.pollRead.interPollDelay (shown bs ++ [.ok [b]])) (fun _ => rfl)
    hdata hlast
  refine ⟨_, exec_pageRead addr len hidle, ?_⟩
  rw [pageReadOp_of_poll hlen hp hload hpoll, if_pos rfl,
    readCacheStep_of_ok ((txColrd_translate _ len hp).trans hfetch)]
  obtain ⟨hended, htrace, -, hbuf⟩ := readSuccess_readEnded s addr len
    ([rowCall 0x13 addr (.ok [])] ++ pollCalls s.cfg.pollRead.interPollDelay (shown bs ++ [.ok [b]]) ++
      [fetchCall s.cfg addr len (.ok data)]) (1 + (bs.length + 1) + 1) hdata
  refine ⟨hended, ?_, rfl, htrace, fun j => read_readSuccess s addr len _ _, hbuf⟩
  exact (List.drop_drop ..).symm.trans (congrArg (List.drop 1) hlast)

end Sys2Proof.Proofs.PageRead
end

section
/-! The write-enable bracket of `PAGE_PROGRAM` and `BLOCK_ERASE` (R176, R180, R183): its steps, the poll, the
write-disable and the fail bit, whatever the transport answers and where every call is carried. -/

namespace Sys2Proof.Proofs.Bracket

open Sys2Proof Sys2Proof.Machine Sys2Proof.Machine.Laws Sys2Proof.Claims Sys2Proof.Proofs.Poll Sys2Proof.Proofs.Runs

/-! ### The state inside a bracket -/

/-- `s` after these calls, with `r.OK` and `r.WD_OWED` as given. -/
def inBracket (s : State) (ok owed : Bool) (calls : List Call) (used : Nat) : State :=
  ran (s.withRegs fun r => { r with ok := ok, wdOwed := owed }) calls used

/-- With nothing owed before the operation, a bracket that has been closed changed `r.OK` alone of the two. -/
theorem inBracket_closed {s : State} (ok : Bool) (calls : List Call) (used : Nat) (howed : s.r.wdOwed = false) :
    inBracket s ok false calls used = ran (s.setOk ok) calls used := by
  rw [← howed]
  rfl

/-- The transport carried the call. -/
def carried : Answer → Bool
  | .ok _  => true
  | .err _ => false

theorem noteAnswer_inBracket (a : Answer) (s : State) (ok owed : Bool) (calls : List Call) (used : Nat) :
    noteAnswer (a, inBracket s ok owed calls used) = inBracket s (ok && carried a) owed calls used := by
  cases a with
  | ok rx => exact (congrArg (inBracket s · owed calls used) (Bool.and_true ok)).symm
  | err e => exact (congrArg (inBracket s · owed calls used) (Bool.and_false ok)).symm

theorem notePoll_inBracket (out : PollResult) (s : State) (calls : List Call) (used : Nat) :
    notePoll (out, inBracket s true true calls used) = inBracket s (decide (out = .ready)) true calls used := by
  cases out <;> rfl

/-- Write-enable opens the bracket (R146). -/
theorem noteAnswer_writeEnable_eq {s : State} {a : Answer} (h : s.nextAnswer 0 = a) :
    noteAnswer (writeEnable (s.setOk true)) = inBracket s (carried a) true [.send [0x06] a] 1 := by
  have hcall := transport_ran (mk := .send [0x06]) 0 (s.setOk true) [] 0 fun _ => rfl
  have hans : (s.setOk true).nextAnswer 0 = a := h
  rw [ran_nil, hans] at hcall
  rw [writeEnable_eq, hcall, hans]
  exact noteAnswer_inBracket a s true true [.send [0x06] a] 1

/-- A step of the bracket is one call, made while no step has failed (R183). -/
theorem whenOk_inBracket {s : State} {step : State → State} {mk : Answer → Call} {calls : List Call} {used : Nat}
    {a : Answer} (hmk : ∀ a, isPlain (mk a) = true)
    (hstep : step (inBracket s true true calls used) = noteAnswer (transport mk 0 (inBracket s true true calls used)))
    (h : (inBracket s true true calls used).nextAnswer 0 = a) :
    whenOk step (inBracket s true true calls used) = inBracket s (carried a) true (calls ++ [mk a]) (used + 1) := by
  have hcall : transport mk 0 (inBracket s true true calls used) = _ := transport_ran 0 _ calls used hmk
  rw [whenOk_good step rfl, hstep, hcall, ← inBracket, h]
  exact noteAnswer_inBracket a s true true (calls ++ [mk a]) (used + 1)

/-- Write-disable ends what is owed (R147). -/
theorem noteAnswer_writeDisable_eq {s : State} {ok owed : Bool} {calls : List Call} {used : Nat} {a : Answer}
    (h : (inBracket s ok owed calls used).nextAnswer 0 = a) :
    noteAnswer (writeDisable (inBracket s ok owed calls used)) =
      inBracket s (ok && carried a) false (calls ++ [.send [0x04] a]) (used + 1) := by
  have hcall : transport (.send [0x04]) 0 (inBracket s ok owed calls used) = _ :=
    transport_ran 0 _ calls used fun _ => rfl
  rw [writeDisable_eq, hcall, ← inBracket, h]
  exact noteAnswer_inBracket a s ok false (calls ++ [.send [0x04] a]) (used + 1)

/-! ### The steps before the poll -/

/-- The calls of these steps, all carried. -/
def carriedCalls (steps : List (Answer → Call)) : List Call := steps.map fun c => c (.ok [])

/-- `t` is `s` after a bracket's steps: all were carried, or the first that failed ended them. -/
inductive Opened (s : State) : List (Answer → Call) → State → Prop
  | carried (steps : List (Answer → Call)) :
      Opened s steps (inBracket s true true (carriedCalls steps) steps.length)
  | failed (before : List (Answer → Call)) (step : Answer → Call) (after : List (Answer → Call)) {e : TransportError}
      (h : (inBracket s true true (carriedCalls before) before.length).nextAnswer 0 = .err e) :
      Opened s (before ++ step :: after)
        (inBracket s false true (carriedCalls before ++ [step (.err e)]) (before.length + 1))

theorem opened_writeEnable (s : State) : Opened s [.send [0x06]] (noteAnswer (writeEnable (s.setOk true))) := by
  obtain h | ⟨e, h⟩ := nextAnswer_zero s
  · rw [noteAnswer_writeEnable_eq h]
    exact .carried [.send [0x06]]
  · rw [noteAnswer_writeEnable_eq h]
    exact .failed [] (.send [0x06]) [] h

/-- One more step, which is skipped once one has failed. -/
theorem Opened.whenOk {s t : State} {steps : List (Answer → Call)} {step : State → State} {mk : Answer → Call}
    (h : Opened s steps t) (hmk : ∀ a, isPlain (mk a) = true)
    (hstep : ∀ calls used, step (inBracket s true true calls used) =
      noteAnswer (transport mk 0 (inBracket s true true calls used))) :
    Opened s (steps ++ [mk]) (whenOk step t) := by
  cases h with
  | carried steps =>
    obtain h | ⟨e, h⟩ := nextAnswer_zero (inBracket s true true (carriedCalls steps) steps.length)
    · have hcalls : carriedCalls steps ++ [mk (.ok [])] = carriedCalls (steps ++ [mk]) := by simp [carriedCalls]
      have hlen : steps.length + 1 = (steps ++ [mk]).length := by simp
      rw [whenOk_inBracket hmk (hstep _ _) h, hcalls, hlen]
      exact .carried (steps ++ [mk])
    · rw [whenOk_inBracket hmk (hstep _ _) h]
      exact .failed steps mk [] h
  | failed before prior after h =>
    rw [whenOk_failed step rfl, List.append_assoc, List.cons_append]
    exact .failed before prior (after ++ [mk]) h

theorem nextAnswer_inBracket {s : State} {used n : Nat} {rx : List Byte} {rest : List Answer} (ok owed : Bool)
    (calls : List Call) (hlen : rx.length = n) (h : s.script.drop used = .ok rx :: rest) :
    (inBracket s ok owed calls used).nextAnswer n = .ok rx :=
  nextAnswer_scripted_ok h hlen

/-- Where the schedule has an empty answer for each step, none fails. -/
theorem Opened.eq_of_scripted {s t : State} {steps : List (Answer → Call)} {rest : List Answer}
    (h : Opened s steps t) (hscript : s.script = List.replicate steps.length (.ok []) ++ rest) :
    t = inBracket s true true (carriedCalls steps) steps.length := by
  cases h with
  | carried steps => rfl
  | failed before step after h =>
    have hdrop : s.script.drop before.length = .ok [] :: (List.replicate after.length (.ok []) ++ rest) := by
      rw [hscript, List.length_append, ← List.replicate_append_replicate, List.append_assoc,
        List.drop_left' List.length_replicate]
      rfl
    rw [nextAnswer_inBracket (n := 0) true true _ rfl hdrop] at h
    cases h

/-- No step is a delay or a status read. -/
def PlainSteps (steps : List (Answer → Call)) : Prop := ∀ c ∈ steps, ∀ a, isPlain (c a) = true

theorem quiet_carriedCalls {steps : List (Answer → Call)} (h : PlainSteps steps) : Quiet (carriedCalls steps) := by
  intro c hc
  obtain ⟨step, hstep, rfl⟩ := List.mem_map.1 hc
  exact ((isPlain_iff _).1 (h step hstep _)).1

/-! ### The poll, the write-disable and the fail bit -/

/-- What follows a bracket's steps. -/
def pollAndClose (caller : PollCaller) (failBit : Byte → Bool) (k : ResultKind) (t : State) : State :=
  closeBracket failBit k (noteAnswer (writeDisable
    (whenOk (fun s => notePoll (waitUntilReady (s.pollCfg caller) s)) t)))

/-- The end of a bracket in which a step failed (R178, R181). -/
theorem closeBracket_failed (failBit : Byte → Bool) (k : ResultKind) (s : State) (calls : List Call) (used : Nat) :
    closeBracket failBit k (inBracket s false false calls used) = respond k (inBracket s false false calls used) := rfl

/-- The end of a bracket in which none did: the fail bit of one more status read. -/
theorem closeBracket_good {s : State} {calls : List Call} (failBit : Byte → Bool) (k : ResultKind) (used : Nat)
    (hbegun : ¬ Quiet calls) :
    (∃ e, closeBracket failBit k (inBracket s true false calls used) =
      respond k (inBracket s true false (calls ++ [statusRead (.err e)]) (used + 1))) ∨
    ∃ b, closeBracket failBit k (inBracket s true false calls used) =
      respond (if failBit b then k else .success)
        (inBracket s true false (calls ++ [statusRead (.ok [b])]) (used + 1)) := by
  obtain ⟨hok, -⟩ | ⟨e, -, h⟩ | ⟨b, -, h⟩ :=
    closeBracket_cases (s := inBracket s true false calls used) failBit k rfl
  · cases hok
  · exact .inl ⟨e, h.trans (congrArg (respond k) (polled_ran_statusRead used (.err e) hbegun))⟩
  · exact .inr ⟨b, h.trans (congrArg (respond _) (polled_ran_statusRead used (.ok [b]) hbegun))⟩

/-- The fail bit of the byte shown settles the result. -/
theorem closeBracket_of_sample {s : State} {b : Byte} (failBit : Byte → Bool) (k : ResultKind) (hok : s.r.ok = true)
    (howed : s.r.wdOwed = false) (h : s.nextAnswer 1 = .ok [b]) :
    closeBracket failBit k s =
      respond (if failBit b then k else .success) (polled s s.r.cnt b [statusRead (.ok [b])] 1) := by
  rw [closeBracket, if_pos hok, getFeature_status, h]
  simp only [byteAt, List.getD_cons_zero]
  cases failBit b with
  | false => rfl
  | true => exact raise_not_owed k howed

theorem closeBracket_shown {s : State} {calls : List Call} {used : Nat} {b : Byte} (failBit : Byte → Bool)
    (k : ResultKind) (hbegun : ¬ Quiet calls) (h : (inBracket s true false calls used).nextAnswer 1 = .ok [b]) :
    closeBracket failBit k (inBracket s true false calls used) = respond (if failBit b then k else .success)
      (inBracket s true false (calls ++ [statusRead (.ok [b])]) (used + 1)) :=
  (closeBracket_of_sample failBit k rfl rfl h).trans
    (congrArg (respond _) (polled_ran_statusRead used (.ok [b]) hbegun))

/-- Past the steps, the poll and the answer to the write-disable decide whether the fail bit is read. -/
theorem pollAndClose_of_poll {caller : PollCaller} {p : PollCfg} {s : State} {calls run : List Call} {used more : Nat}
    {out : PollResult} {a : Answer} (failBit : Byte → Bool) (k : ResultKind)
    (hp : ∀ u : State, u.cfg = s.cfg → u.pollCfg caller = p)
    (hpoll : waitUntilReady p (inBracket s true true calls used) = (out, inBracket s true true run more))
    (ha : (inBracket s (decide (out = .ready)) true run more).nextAnswer 0 = a) :
    pollAndClose caller failBit k (inBracket s true true calls used) = closeBracket failBit k
      (inBracket s (decide (out = .ready) && carried a) false (run ++ [.send [0x04] a]) (more + 1)) := by
  rw [pollAndClose, whenOk_good _ rfl, hp (inBracket s true true calls used) rfl, hpoll, notePoll_inBracket,
    noteAnswer_writeDisable_eq ha]

/-- Once a step has failed, the write-disable alone follows. -/
theorem pollAndClose_of_failed {s : State} {calls : List Call} {used : Nat} {a : Answer} (caller : PollCaller)
    (failBit : Byte → Bool) (k : ResultKind) (ha : (inBracket s false true calls used).nextAnswer 0 = a) :
    pollAndClose caller failBit k (inBracket s false true calls used) =
      respond k (inBracket s false false (calls ++ [.send [0x04] a]) (used + 1)) := by
  rw [pollAndClose, whenOk_failed _ rfl, noteAnswer_writeDisable_eq ha, Bool.false_and, closeBracket_failed]

/-- The bracket, whatever the transport answers. -/
theorem Opened.bracketRun {s t : State} {steps : List (Answer → Call)} {caller : PollCaller} {p : PollCfg}
    {failBit : Byte → Bool} {bit : Nat} (k : ResultKind) (h : Opened s steps t) (hplain : PlainSteps steps)
    (hp : ∀ u : State, u.cfg = s.cfg → u.pollCfg caller = p) (hbit : ∀ b, failBit b = b.getLsbD bit) :
    ∃ calls used ok good, BracketRun steps p bit calls ok good ∧
      pollAndClose caller failBit k t = respond (if good then .success else k) (inBracket s ok false calls used) := by
  cases h with
  | @failed before step after e _ =>
    refine ⟨_, _, false, false, ?_, pollAndClose_of_failed caller failBit k rfl⟩
    exact .inl ⟨before, step, after, e, _, rfl, List.append_assoc .., rfl, rfl⟩
  | carried steps =>
    obtain ⟨out, calls, used, hrun, hpoll⟩ := waitUntilReady_ran
      (s := s.withRegs fun r => { r with ok := true, wdOwed := true }) p steps.length (quiet_carriedCalls hplain)
    by_cases hout : out = .ready
    · subst hout
      obtain hwd | ⟨e, hwd⟩ :=
        nextAnswer_zero (inBracket s true true (carriedCalls steps ++ calls) (steps.length + used))
      · have hbegun := not_quiet_append [.send [0x04] (.ok [])] (not_quiet_of_pollRun (carriedCalls steps) hrun)
        have hclose := pollAndClose_of_poll failBit k hp hpoll hwd
        obtain ⟨e, hread⟩ | ⟨b, hread⟩ := closeBracket_good (s := s) failBit k (steps.length + used + 1) hbegun
        · refine ⟨_, _, true, false, ?_, hclose.trans hread⟩
          exact .inr (.inr (.inr (.inl ⟨calls, e, hrun, List.append_assoc .., rfl, rfl⟩)))
        · have hres : (if failBit b then k else .success) = if (!b.getLsbD bit) then .success else k := by
            rw [hbit]
            cases b.getLsbD bit <;> rfl
          rw [hres] at hread
          refine ⟨_, _, true, !b.getLsbD bit, ?_, hclose.trans hread⟩
          exact .inr (.inr (.inr (.inr ⟨calls, b, hrun, List.append_assoc .., rfl, rfl⟩)))
      · refine ⟨_, _, false, false, ?_, pollAndClose_of_poll failBit k hp hpoll hwd⟩
        exact .inr (.inr (.inl ⟨calls, e, hrun, rfl, rfl, rfl⟩))
    · have hclose := pollAndClose_of_poll failBit k hp hpoll rfl
      rw [decide_eq_false hout] at hclose
      exact ⟨_, _, false, false, .inr (.inl ⟨calls, out, _, hrun, hout, rfl, rfl, rfl⟩), hclose⟩

/-! ### Where every call is carried -/

/-- The calls of a poll that shows these bytes, the write-disable, and the final status read. -/
def closingCalls (p : PollCfg) (bs : List Byte) (b final : Byte) : List Call :=
  pollCalls p.interPollDelay (shown bs ++ [.ok [b]]) ++ [.send [0x04] (.ok []), statusRead (.ok [final])]

/-- What is scheduled after those calls. -/
theorem drop_closing {script rest : List Answer} {used : Nat} {bs : List Byte} {a : Answer} {final : Byte}
    (h : script.drop used = shown bs ++ a :: .ok [] :: .ok [final] :: rest) :
    script.drop (used + (bs.length + 1)) = .ok [] :: .ok [final] :: rest ∧
      script.drop (used + (bs.length + 1) + 1) = .ok [final] :: rest ∧
      script.drop (used + (bs.length + 1) + 1 + 1) = rest := by
  have hdrop (n : Nat) : script.drop (used + (bs.length + 1) + n) =
      (.ok [] :: .ok [final] :: rest : List Answer).drop n := by
    rw [← List.drop_drop, ← List.drop_drop, drop_shown_read h]
  exact ⟨hdrop 0, hdrop 1, hdrop 2⟩

/-- The bracket where every call is carried and the poll ends at the first ready byte. -/
theorem Opened.carriedRun {s t : State} {steps : List (Answer → Call)} {caller : PollCaller} {p : PollCfg}
    {bs : List Byte} {b final : Byte} {rest : List Answer} (failBit : Byte → Bool) (k : ResultKind)
    (h : Opened s steps t) (hplain : PlainSteps steps) (hp : ∀ u : State, u.cfg = s.cfg → u.pollCfg caller = p)
    (hbusy : allBusy bs) (hb : b.getLsbD 0 = false) (hlen : bs.length ≤ p.maxAttempts)
    (hscript : s.script = List.replicate steps.length (.ok []) ++
      (shown bs ++ .ok [b] :: .ok [] :: .ok [final] :: rest)) :
    ∃ used, s.script.drop used = rest ∧ pollAndClose caller failBit k t =
      respond (if failBit final then k else .success)
        (inBracket s true false (carriedCalls steps ++ closingCalls p bs b final) used) := by
  have hdrop : s.script.drop steps.length = shown bs ++ .ok [b] :: .ok [] :: .ok [final] :: rest := by
    rw [hscript, List.drop_left' List.length_replicate]
  obtain ⟨hwd, hread, hrest⟩ := drop_closing hdrop
  have hquiet := quiet_carriedCalls hplain
  have hrun : PollRun p (pollCalls p.interPollDelay (shown bs ++ [.ok [b]])) .ready := ⟨bs, b, hbusy, hlen, hb, rfl⟩
  have hbegun := not_quiet_append [.send [0x04] (.ok [])] (not_quiet_of_pollRun (carriedCalls steps) hrun)
  have hpoll := waitUntilReady_ran_ready (s := s.withRegs fun r => { r with ok := true, wdOwed := true }) hquiet hbusy
    hb hlen hdrop
  refine ⟨_, hrest, ?_⟩
  rw [h.eq_of_scripted hscript]
  refine (pollAndClose_of_poll failBit k hp hpoll (nextAnswer_inBracket _ _ _ rfl hwd)).trans
    ((closeBracket_shown failBit k hbegun (nextAnswer_inBracket _ _ _ rfl hread)).trans ?_)
  simp only [closingCalls, List.append_assoc, List.singleton_append]

end Sys2Proof.Proofs.Bracket
end

section
/-! The Command Engine: `PAGE_PROGRAM` and `BLOCK_ERASE`. Past the guards each is a bracket with its own steps. -/

namespace Sys2Proof.Proofs.ProgramAndErase

open Sys2Proof Sys2Proof.Machine Sys2Proof.Machine.Laws Sys2Proof.Claims Sys2Proof.Proofs.Translator
  Sys2Proof.Proofs.Runs Sys2Proof.Proofs.Bracket

/-- A row command inside the bracket is its call. -/
theorem rowStep_translate {addr : LogicalAddress} {p : Phys} (opc : Byte) (s : State)
    (hp : Machine.translate addr = some p) :
    noteAnswer (txRow opc p.rowAddr s) = noteAnswer (transport (rowCall opc addr) 0 s) := by
  rw [txRow_translate opc hp]

/-! ### `PAGE_PROGRAM` -/

/-- The call of program load (R97). -/
def payloadCall (c : Cfg) (addr : LogicalAddress) (data : List Byte) : Answer → Call :=
  .sendCommandThenData (0x02 :: colWire c addr) data

/-- The steps of a `PAGE_PROGRAM` before its poll (R176). -/
def programSteps (c : Cfg) (addr : LogicalAddress) (data : List Byte) : List (Answer → Call) :=
  [.send [0x06], payloadCall c addr data, rowCall 0x10 addr]

theorem plainSteps_program (c : Cfg) (addr : LogicalAddress) (data : List Byte) :
    PlainSteps (programSteps c addr data) := by
  intro step hstep a
  simp only [programSteps, List.mem_cons, List.not_mem_nil, or_false] at hstep
  obtain rfl | rfl | rfl := hstep <;> rfl

/-- Program load is the call with the payload `Buf[0..len)`. -/
theorem programLoadStep_translate {addr : LogicalAddress} {p : Phys} (s : State)
    (h : Machine.translate addr = some p) :
    programLoadStep p s =
      noteAnswer (transport (payloadCall s.cfg addr (Buffer.prefixBytes s.buf s.r.len.toNat)) 0 s) := by
  rw [programLoadStep, txColwr, colBytes_translate s.cfg h]
  rfl

theorem pageProgramOp_oversize {s : State} (h : 2048 < s.r.len.toNat) : pageProgramOp s = raise .programFailed s :=
  if_pos h

theorem pageProgramOp_outOfRange {s : State} (hlen : s.r.len.toNat ≤ Config.pageDataSize)
    (h : 268435456 ≤ s.r.addr.toNat) : pageProgramOp s = raise .addressOutOfRange s := by
  rw [pageProgramOp, if_neg (Nat.not_lt.2 hlen), translate_of_not_inRange h]

theorem pageProgramOp_pastGuards {s : State} {p : Phys} (hlen : s.r.len.toNat ≤ Config.pageDataSize)
    (hp : Machine.translate s.r.addr = some p) :
    pageProgramOp s = pollAndClose .pageProgram pf .programFailed
      (whenOk (fun s => noteAnswer (txRow Opcode.programExecute p.rowAddr s))
        (whenOk (programLoadStep p) (noteAnswer (writeEnable (s.setOk true))))) := by
  rw [pageProgramOp, if_neg (Nat.not_lt.2 hlen), hp]
  rfl

/-- The state in which the steps of a `PAGE_PROGRAM` begin. -/
def acceptedProgram (addr : LogicalAddress) (len : BitVec 16) (s : State) : State :=
  accept .pageProgram (s.withRegs fun r => { r with addr := addr, len := len })

theorem exec_pageProgram {s : State} (addr : LogicalAddress) (len : BitVec 16) (hidle : s.seq = .idle) :
    exec (.pageProgram addr len) s = .next (pageProgramOp (acceptedProgram addr len s)) :=
  congrArg _ (request_idle _ _ _ hidle)

theorem opened_program {addr : LogicalAddress} {p : Phys} (s : State) (len : BitVec 16)
    (hp : Machine.translate addr = some p) :
    Opened (acceptedProgram addr len s) (programSteps s.cfg addr (Buffer.prefixBytes s.buf len.toNat))
      (whenOk (fun s => noteAnswer (txRow Opcode.programExecute p.rowAddr s))
        (whenOk (programLoadStep p) (noteAnswer (writeEnable ((acceptedProgram addr len s).setOk true))))) := by
  have hload := (opened_writeEnable (acceptedProgram addr len s)).whenOk
    (mk := payloadCall s.cfg addr (Buffer.prefixBytes s.buf len.toNat)) (fun _ => rfl)
    fun _ _ => programLoadStep_translate _ hp
  exact hload.whenOk (fun _ => rfl) fun _ _ => rowStep_translate 0x10 _ hp

/-- Settles O22: the guards, and past them the bracket with the steps of `PAGE_PROGRAM`. -/
theorem pageProgramRun : Obligations.PageProgramRun := by
  intro s addr len hidle howed payload
  obtain hlong | hlen := Nat.lt_or_ge 2048 len.toNat
  · refine ⟨_, .programFailed, exec_pageProgram addr len hidle, ?_⟩
    rw [pageProgramOp_oversize (by exact hlong), raise_not_owed _ (by exact howed)]
    exact ⟨⟨rfl, rfl, rfl, rfl, rfl⟩, rfl, rfl, .inl ⟨hlong, rfl, rfl, rfl⟩⟩
  obtain haddr | haddr := Nat.lt_or_ge addr.toNat 268435456
  · have hp := translate_eq_physOf haddr
    obtain ⟨calls, used, ok, good, hrun, hend⟩ := (opened_program s len hp).bracketRun (caller := .pageProgram)
      (p := s.cfg.pollPgm) .programFailed (plainSteps_program _ _ _) (fun u hu => congrArg Cfg.pollPgm hu) pf_eq
    rw [inBracket_closed ok calls used (by exact howed)] at hend
    refine ⟨_, if good then .success else .programFailed, exec_pageProgram addr len hidle, ?_⟩
    rw [pageProgramOp_pastGuards (by exact hlen) hp, hend]
    exact ⟨⟨rfl, rfl, rfl, rfl, rfl⟩, rfl, rfl, .inr (.inr ⟨hlen, haddr, good, rfl, hrun⟩)⟩
  · refine ⟨_, .addressOutOfRange, exec_pageProgram addr len hidle, ?_⟩
    rw [pageProgramOp_outOfRange (by exact hlen) haddr, raise_not_owed _ (by exact howed)]
    exact ⟨⟨rfl, rfl, rfl, rfl, rfl⟩, rfl, rfl, .inr (.inl ⟨hlen, haddr, rfl, rfl, rfl⟩)⟩

/-- Settles O28: every step is carried, the poll ends at the first ready byte, and the fail bit is the result. -/
theorem pageProgramSucceeds : Obligations.PageProgramSucceeds := by
  intro s addr len bs b final rest hidle hlen haddr hbusy hb hbound hscript
  have hp := translate_eq_physOf haddr
  obtain ⟨used, hrest, hend⟩ := (opened_program s len hp).carriedRun (caller := .pageProgram) (p := s.cfg.pollPgm) pf
    .programFailed (plainSteps_program _ _ _) (fun u hu => congrArg Cfg.pollPgm hu) hbusy hb hbound hscript
  refine ⟨_, exec_pageProgram addr len hidle, ?_⟩
  rw [pageProgramOp_pastGuards (by exact hlen) hp, hend, pf_eq]
  exact ⟨⟨rfl, rfl, rfl, rfl, rfl⟩, hrest, rfl, rfl, rfl⟩

/-! ### `BLOCK_ERASE` -/

/-- The steps of a `BLOCK_ERASE` before its poll (R180). -/
def eraseSteps (addr : LogicalAddress) : List (Answer → Call) := [.send [0x06], rowCall 0xD8 addr]

theorem plainSteps_erase (addr : LogicalAddress) : PlainSteps (eraseSteps addr) := by
  intro step hstep a
  simp only [eraseSteps, List.mem_cons, List.not_mem_nil, or_false] at hstep
  obtain rfl | rfl := hstep <;> rfl

theorem blockEraseOp_outOfRange {s : State} (h : 268435456 ≤ s.r.addr.toNat) :
    blockEraseOp s = raise .addressOutOfRange s := by
  rw [blockEraseOp, translate_of_not_inRange h]

theorem blockEraseOp_pastGuard {s : State} {p : Phys} (hp : Machine.translate s.r.addr = some p) :
    blockEraseOp s = pollAndClose .blockErase ef .eraseFailed
      (whenOk (fun s => noteAnswer (txRow Opcode.blockErase p.rowAddr s))
        (noteAnswer (writeEnable (s.setOk true)))) := by
  rw [blockEraseOp, hp]
  rfl

/-- The state in which the steps of a `BLOCK_ERASE` begin. -/
def acceptedErase (addr : LogicalAddress) (s : State) : State :=
  accept .blockErase (s.withRegs fun r => { r with addr := addr })

theorem exec_blockErase {s : State} (addr : LogicalAddress) (hidle : s.seq = .idle) :
    exec (.blockErase addr) s = .next (blockEraseOp (acceptedErase addr s)) :=
  congrArg _ (request_idle _ _ _ hidle)

theorem opened_erase {addr : LogicalAddress} {p : Phys} (s : State) (hp : Machine.translate addr = some p) :
    Opened s (eraseSteps addr) (whenOk (fun s => noteAnswer (txRow Opcode.blockErase p.rowAddr s))
      (noteAnswer (writeEnable (s.setOk true)))) :=
  (opened_writeEnable s).whenOk (fun _ => rfl) fun _ _ => rowStep_translate 0xD8 _ hp

/-- Settles O23: the guard, and past it the bracket with the steps of `BLOCK_ERASE`. -/
theorem blockEraseRun : Obligations.BlockEraseRun := by
  intro s addr hidle howed
  obtain haddr | haddr := Nat.lt_or_ge addr.toNat 268435456
  · have hp := translate_eq_physOf haddr
    obtain ⟨calls, used, ok, good, hrun, hend⟩ := (opened_erase (acceptedErase addr s) hp).bracketRun
      (caller := .blockErase) (p := s.cfg.pollErs) .eraseFailed (plainSteps_erase _)
      (fun u hu => congrArg Cfg.pollErs hu) ef_eq
    rw [inBracket_closed ok calls used (by exact howed)] at hend
    refine ⟨_, if good then .success else .eraseFailed, exec_blockErase addr hidle, ?_⟩
    rw [blockEraseOp_pastGuard hp, hend]
    exact ⟨⟨rfl, rfl, rfl, rfl, rfl⟩, rfl, rfl, .inr ⟨haddr, good, rfl, hrun⟩⟩
  · refine ⟨_, .addressOutOfRange, exec_blockErase addr hidle, ?_⟩
    rw [blockEraseOp_outOfRange haddr, raise_not_owed _ (by exact howed)]
    exact ⟨⟨rfl, rfl, rfl, rfl, rfl⟩, rfl, rfl, .inl ⟨haddr, rfl, rfl, rfl⟩⟩

/-- Settles O29: every step is carried, the poll ends at the first ready byte, and the fail bit is the result. -/
theorem blockEraseSucceeds : Obligations.BlockEraseSucceeds := by
  intro s addr bs b final rest hidle haddr hbusy hb hbound hscript
  have hp := translate_eq_physOf haddr
  obtain ⟨used, hrest, hend⟩ := (opened_erase (acceptedErase addr s) hp).carriedRun (caller := .blockErase)
    (p := s.cfg.pollErs) ef .eraseFailed (plainSteps_erase _) (fun u hu => congrArg Cfg.pollErs hu) hbusy hb hbound
    hscript
  refine ⟨_, exec_blockErase addr hidle, ?_⟩
  rw [blockEraseOp_pastGuard hp, hend, ef_eq]
  exact ⟨⟨rfl, rfl, rfl, rfl, rfl⟩, hrest, rfl, rfl, rfl⟩

end Sys2Proof.Proofs.ProgramAndErase
end

section
/-! The write-enable bracket in the trace (R182): where the two commands of the write-enable latch stand, read off the
traces that the statements about each operation give. -/

namespace Sys2Proof.Proofs.LatchCommands

open Sys2Proof Sys2Proof.Machine Sys2Proof.Claims Sys2Proof.Proofs.Poll Sys2Proof.Proofs.RegisterAccess
  Sys2Proof.Proofs.ResetAndIdentity Sys2Proof.Proofs.PageRead Sys2Proof.Proofs.ProgramAndErase

/-- Neither `send [06]` nor `send [04]`. -/
def isLatchCommand (c : Call) : Bool := isCommand 0x06 c || isCommand 0x04 c

/-- None of the calls commands the write-enable latch. -/
def LatchFree (calls : List Call) : Prop := ∀ c ∈ calls, isLatchCommand c = false

theorem LatchFree.nil : LatchFree [] := fun _ h => by cases h

theorem LatchFree.cons {c : Call} {calls : List Call} (hc : isLatchCommand c = false) (h : LatchFree calls) :
    LatchFree (c :: calls) :=
  List.forall_mem_cons.2 ⟨hc, h⟩

theorem LatchFree.append {xs ys : List Call} (hx : LatchFree xs) (hy : LatchFree ys) : LatchFree (xs ++ ys) :=
  List.forall_mem_append.2 ⟨hx, hy⟩

theorem LatchFree.countP {calls : List Call} (h : LatchFree calls) :
    calls.countP (isCommand 0x06) = 0 ∧ calls.countP (isCommand 0x04) = 0 := by
  simp only [LatchFree, isLatchCommand, Bool.or_eq_false_iff] at h
  simp only [List.countP_eq_zero, Bool.not_eq_true]
  exact ⟨fun c hc => (h c hc).1, fun c hc => (h c hc).2⟩

/-! ### The operations without a bracket -/

theorem latchFree_pollCalls (d : Nat) (as : List Answer) : LatchFree (pollCalls d as) := by
  cases as with
  | nil => exact .nil
  | cons a as =>
    refine .cons rfl fun c hc => ?_
    obtain ⟨b, -, hc⟩ := List.mem_flatMap.1 hc
    simp only [List.mem_cons, List.not_mem_nil, or_false] at hc
    obtain rfl | rfl := hc <;> rfl

theorem latchFree_of_pollRun {p : PollCfg} {calls : List Call} {out : PollResult} (h : PollRun p calls out) :
    LatchFree calls := by
  cases out with
  | ready => obtain ⟨bs, b, -, -, -, rfl⟩ := h; exact latchFree_pollCalls _ _
  | busy => obtain ⟨bs, -, -, rfl⟩ := h; exact latchFree_pollCalls _ _
  | transportError e => obtain ⟨bs, -, -, rfl⟩ := h; exact latchFree_pollCalls _ _

theorem latchFree_of_resetRun {c : Cfg} {calls : List Call} {k : ResultKind} (h : ResetRun c calls k) :
    LatchFree calls := by
  obtain ⟨e, rfl, -⟩ | ⟨poll, out, hpoll, rfl, -⟩ := h
  · exact .cons rfl .nil
  · exact .cons rfl (.cons rfl (latchFree_of_pollRun hpoll))

/-- What O30 says of an operation that has no bracket, or does not reach it. -/
def EndsWithoutBracket (i : Instr) (s : State) : Prop :=
  ∃ t, exec i s = .next t ∧ t.r.wdOwed = false ∧ LatchFree t.trace

theorem EndsWithoutBracket.commands {i : Instr} {s : State} {P : State → Prop} (h : EndsWithoutBracket i s) :
    ∃ t, exec i s = .next t ∧ t.r.wdOwed = false ∧ (False → P t) ∧
      (¬ False → t.trace.countP (isCommand 0x06) = 0 ∧ t.trace.countP (isCommand 0x04) = 0) := by
  obtain ⟨t, hexec, howed, hfree⟩ := h
  exact ⟨t, hexec, howed, False.elim, fun _ => hfree.countP⟩

section
variable {s : State} (hidle : s.seq = .idle) (howed : s.r.wdOwed = false)
include hidle howed

theorem readId_withoutBracket : EndsWithoutBracket .readId s := by
  obtain ⟨t, a, hexec, -, -, -, htrace, ⟨m, d, -, hregs⟩ | ⟨e, -, hregs⟩⟩ := readIdRun s hidle howed <;>
    exact ⟨t, hexec, by rw [hregs, howed], htrace ▸ .cons rfl .nil⟩

theorem getFeature_withoutBracket (reg : BitVec 2) : EndsWithoutBracket (.getFeature reg) s := by
  obtain ⟨t, a, hexec, -, -, -, htrace, ⟨b, -, hregs⟩ | ⟨e, -, hregs⟩⟩ := getFeatureRun s reg hidle howed <;>
    exact ⟨t, hexec, by rw [hregs, howed], htrace ▸ .cons rfl .nil⟩

theorem checkBusy_withoutBracket : EndsWithoutBracket .checkBusy s := by
  obtain ⟨t, a, hexec, -, -, -, htrace, ⟨b, -, hregs⟩ | ⟨e, -, hregs⟩⟩ := checkBusyRun s hidle howed <;>
    exact ⟨t, hexec, by rw [hregs, howed], htrace ▸ .cons rfl .nil⟩

theorem setFeature_withoutBracket (reg : BitVec 2) (wval : Byte) : EndsWithoutBracket (.setFeature reg wval) s := by
  obtain ⟨t, hexec, -, -, hstatus, hother⟩ := setFeatureRun s reg wval hidle howed
  by_cases hreg : reg = 2
  · obtain ⟨htrace, -, hregs⟩ := hstatus hreg
    exact ⟨t, hexec, by rw [hregs, howed], htrace ▸ .nil⟩
  · obtain ⟨a, -, htrace, ⟨-, hregs⟩ | ⟨e, -, hregs⟩⟩ := hother hreg <;>
      exact ⟨t, hexec, by rw [hregs, howed], htrace ▸ .cons rfl .nil⟩

theorem waitReady_withoutBracket (att dly : BitVec 16) : EndsWithoutBracket (.waitReady att dly) s := by
  obtain ⟨t, out, hexec, -, -, hpoll, hregs⟩ := waitReadyRun s att dly hidle howed
  refine ⟨t, hexec, ?_, latchFree_of_pollRun hpoll⟩
  cases out <;> exact (congrArg Regs.wdOwed hregs).trans howed

theorem reset_withoutBracket : EndsWithoutBracket .reset s := by
  obtain ⟨t, k, hexec, -, -, hrun, hregs⟩ := resetOperationRun s hidle howed
  exact ⟨t, hexec, by rw [hregs, howed], latchFree_of_resetRun hrun⟩

theorem init_withoutBracket : EndsWithoutBracket .init s := by
  obtain ⟨t, calls, k, hexec, -, -, hrun, hend⟩ := initRun s hidle howed
  have hcalls : LatchFree (.delay s.cfg.tPorMs :: calls) := .cons rfl (latchFree_of_resetRun hrun)
  obtain ⟨-, htrace, hregs⟩ | ⟨e, -, htrace, hregs⟩ | ⟨m, d, -, htrace, hregs⟩ := hend
  · exact ⟨t, hexec, (congrArg Regs.wdOwed hregs).trans howed, htrace ▸ hcalls⟩
  · exact ⟨t, hexec, (congrArg Regs.wdOwed hregs).trans howed, htrace ▸ hcalls.append (.cons rfl .nil)⟩
  · exact ⟨t, hexec, (congrArg Regs.wdOwed hregs).trans howed, htrace ▸ hcalls.append (.cons rfl .nil)⟩

theorem pageRead_withoutBracket (addr : LogicalAddress) (len : BitVec 16) :
    EndsWithoutBracket (.pageRead addr len) s := by
  obtain ⟨t, k, hexec, -, hregs, -, hend⟩ := pageReadRun s addr len hidle howed
  refine ⟨t, hexec, (congrArg Regs.wdOwed hregs).trans howed, ?_⟩
  obtain ⟨-, htrace, -⟩ | ⟨-, -, htrace, -⟩ | ⟨-, -, ⟨e, htrace, -⟩ | ⟨calls, out, hpoll, -, htrace, -⟩ |
    ⟨calls, e, hpoll, htrace, -⟩ | ⟨calls, rx, hpoll, htrace, -⟩⟩ := hend <;> rw [htrace]
  · exact .nil
  · exact .nil
  · exact .cons rfl .nil
  · exact .cons rfl (latchFree_of_pollRun hpoll)
  · exact .cons rfl ((latchFree_of_pollRun hpoll).append (.cons rfl .nil))
  · exact .cons rfl ((latchFree_of_pollRun hpoll).append (.cons rfl .nil))

end

/-! ### The bracket -/

/-- A trace that begins with the one write-enable and has the one write-disable after it. -/
inductive Bracketed : List Call → Prop
  | mk (a wd : Answer) {inner after : List Call} (hinner : LatchFree inner) (hafter : LatchFree after) :
      Bracketed (.send [0x06] a :: (inner ++ .send [0x04] wd :: after))

theorem Bracketed.commands {trace : List Call} (h : Bracketed trace) :
    trace.countP (isCommand 0x06) = 1 ∧ trace.countP (isCommand 0x04) = 1 ∧
      ∃ a rest, trace = .send [0x06] a :: rest := by
  obtain ⟨a, wd, hinner, hafter⟩ := h
  obtain ⟨henableInner, hdisableInner⟩ := hinner.countP
  obtain ⟨henableAfter, hdisableAfter⟩ := hafter.countP
  refine ⟨?_, ?_, a, _, rfl⟩
  · rw [List.countP_cons_of_pos rfl, List.countP_append, henableInner, List.countP_cons_of_neg Bool.false_ne_true,
      henableAfter]
  · rw [List.countP_cons_of_neg Bool.false_ne_true, List.countP_append, hdisableInner, List.countP_cons_of_pos rfl,
      hdisableAfter]

/-- The trace of a bracket: its first step is the write-enable, and no other step commands the latch. -/
theorem bracketed_of_bracketRun {inner : List (Answer → Call)} {p : PollCfg} {bit : Nat} {trace : List Call}
    {ok good : Bool} (hinner : ∀ step ∈ inner, ∀ a, isLatchCommand (step a) = false)
    (h : BracketRun (.send [0x06] :: inner) p bit trace ok good) : Bracketed trace := by
  have hcarried {steps : List (Answer → Call)} (hsub : ∀ step ∈ steps, step ∈ inner) :
      LatchFree (steps.map fun c => c (.ok [])) := by
    intro c hc
    obtain ⟨step, hstep, rfl⟩ := List.mem_map.1 hc
    exact hinner step (hsub step hstep) _
  have hpolled {calls : List Call} {out : PollResult} (hpoll : PollRun p calls out) :
      LatchFree ((inner.map fun c => c (.ok [])) ++ calls) :=
    (hcarried fun _ h => h).append (latchFree_of_pollRun hpoll)
  obtain ⟨before, step, after, e, wd, hsteps, rfl, -⟩ | ⟨calls, out, wd, hpoll, -, rfl, -⟩ |
    ⟨calls, e, hpoll, rfl, -⟩ | ⟨calls, e, hpoll, rfl, -⟩ | ⟨calls, b, hpoll, rfl, -⟩ := h
  · cases before with
    | nil =>
      obtain ⟨rfl, -⟩ := List.cons.inj hsteps
      exact .mk (.err e) wd .nil .nil
    | cons first before =>
      obtain ⟨rfl, rfl⟩ := List.cons.inj hsteps
      have hstep : LatchFree [step (.err e)] := .cons (hinner step (by simp) _) .nil
      simpa using Bracketed.mk (.ok []) wd ((hcarried (steps := before) (by simp +contextual)).append hstep) .nil
  · exact .mk (.ok []) wd (hpolled hpoll) .nil
  · exact .mk (.ok []) (.err e) (hpolled hpoll) .nil
  · exact .mk (.ok []) (.ok []) (hpolled hpoll) (.cons rfl .nil)
  · exact .mk (.ok []) (.ok []) (hpolled hpoll) (.cons rfl .nil)

theorem pageProgram_bracket {s : State} (addr : LogicalAddress) (len : BitVec 16) (hidle : s.seq = .idle)
    (howed : s.r.wdOwed = false) :
    ∃ t, exec (.pageProgram addr len) s = .next t ∧ t.r.wdOwed = false ∧
      (len.toNat ≤ 2048 ∧ addr.toNat < 2 ^ 28 → Bracketed t.trace) ∧
      (¬ (len.toNat ≤ 2048 ∧ addr.toNat < 2 ^ 28) → LatchFree t.trace) := by
  obtain ⟨t, k, hexec, -, -, hregs, hend⟩ := pageProgramRun s addr len hidle howed
  refine ⟨t, hexec, (congrArg Regs.wdOwed hregs).trans howed, ?_⟩
  obtain ⟨hlong, htrace, -⟩ | ⟨-, haddr, htrace, -⟩ | ⟨hlen, haddr, good, -, hrun⟩ := hend
  · exact ⟨fun h => by omega, fun _ => htrace ▸ .nil⟩
  · exact ⟨fun h => by omega, fun _ => htrace ▸ .nil⟩
  · refine ⟨fun _ => bracketed_of_bracketRun ?_ hrun, fun h => absurd ⟨hlen, haddr⟩ h⟩
    intro step hstep a
    simp only [List.mem_cons, List.not_mem_nil, or_false] at hstep
    obtain rfl | rfl := hstep <;> rfl

theorem blockErase_bracket {s : State} (addr : LogicalAddress) (hidle : s.seq = .idle)
    (howed : s.r.wdOwed = false) :
    ∃ t, exec (.blockErase addr) s = .next t ∧ t.r.wdOwed = false ∧
      (addr.toNat < 2 ^ 28 → Bracketed t.trace) ∧ (¬ addr.toNat < 2 ^ 28 → LatchFree t.trace) := by
  obtain ⟨t, k, hexec, -, -, hregs, hend⟩ := blockEraseRun s addr hidle howed
  refine ⟨t, hexec, (congrArg Regs.wdOwed hregs).trans howed, ?_⟩
  obtain ⟨haddr, htrace, -⟩ | ⟨haddr, good, -, hrun⟩ := hend
  · exact ⟨fun h => absurd h (Nat.not_lt.2 haddr), fun _ => htrace ▸ .nil⟩
  · refine ⟨fun _ => bracketed_of_bracketRun ?_ hrun, fun h => absurd haddr h⟩
    intro step hstep a
    obtain rfl := List.mem_singleton.1 hstep
    rfl

/-- Settles O30: a bracket's trace has each command once, and every other trace has neither. -/
theorem writeEnableBracket : Obligations.WriteEnableBracket := by
  intro s i hidle howed hhost
  cases i with
  | init => exact (init_withoutBracket hidle howed).commands
  | reset => exact (reset_withoutBracket hidle howed).commands
  | readId => exact (readId_withoutBracket hidle howed).commands
  | pageRead addr len => exact (pageRead_withoutBracket hidle howed addr len).commands
  | pageProgram addr len =>
    obtain ⟨t, hexec, hnone, hin, hout⟩ := pageProgram_bracket addr len hidle howed
    exact ⟨t, hexec, hnone, fun h => (hin h).commands, fun h => (hout h).countP⟩
  | blockErase addr =>
    obtain ⟨t, hexec, hnone, hin, hout⟩ := blockErase_bracket addr hidle howed
    exact ⟨t, hexec, hnone, fun h => (hin h).commands, fun h => (hout h).countP⟩
  | getFeature reg => exact (getFeature_withoutBracket hidle howed reg).commands
  | setFeature reg wval => exact (setFeature_withoutBracket hidle howed reg wval).commands
  | waitReady att dly => exact (waitReady_withoutBracket hidle howed att dly).commands
  | checkBusy => exact (checkBusy_withoutBracket hidle howed).commands
  | _ => cases hhost

end Sys2Proof.Proofs.LatchCommands
end

section
/-! What follows the first failing call (R205, R206): the traces that the statements about each operation give, read as
carried calls, then a call that ends the operation, then at most the write-disable. -/

namespace Sys2Proof.Proofs.Failures

open Sys2Proof Sys2Proof.Machine Sys2Proof.Claims Sys2Proof.Proofs.Poll Sys2Proof.Proofs.RegisterAccess
  Sys2Proof.Proofs.ResetAndIdentity Sys2Proof.Proofs.PageRead Sys2Proof.Proofs.ProgramAndErase

/-! ### Calls that were carried -/

/-- None of the calls failed. -/
def AllCarried (calls : List Call) : Prop := ∀ c ∈ calls, failed c = false

theorem AllCarried.nil : AllCarried [] := fun _ h => by cases h

theorem AllCarried.cons {c : Call} {calls : List Call} (hc : failed c = false) (h : AllCarried calls) :
    AllCarried (c :: calls) :=
  List.forall_mem_cons.2 ⟨hc, h⟩

theorem AllCarried.append {xs ys : List Call} (hx : AllCarried xs) (hy : AllCarried ys) : AllCarried (xs ++ ys) :=
  List.forall_mem_append.2 ⟨hx, hy⟩

theorem allCarried_pollCalls_shown (d : Nat) (bs : List Byte) : AllCarried (pollCalls d (shown bs)) := by
  cases bs with
  | nil => exact .nil
  | cons b bs =>
    refine .cons rfl fun c hc => ?_
    obtain ⟨a, ha, hc⟩ := List.mem_flatMap.1 hc
    obtain ⟨x, -, rfl⟩ := List.mem_map.1 ha
    simp only [List.mem_cons, List.not_mem_nil, or_false] at hc
    obtain rfl | rfl := hc <;> rfl

theorem allCarried_of_ready {p : PollCfg} {calls : List Call} (h : PollRun p calls .ready) : AllCarried calls := by
  obtain ⟨bs, b, -, -, -, rfl⟩ := h
  have hshown : shown bs ++ [.ok [b]] = shown (bs ++ [b]) := by simp [shown]
  exact hshown ▸ allCarried_pollCalls_shown _ _

theorem allCarried_of_resetSuccess {c : Cfg} {calls : List Call} (h : ResetRun c calls .success) :
    AllCarried calls := by
  obtain ⟨e, -, hk⟩ | ⟨poll, out, hpoll, rfl, ⟨rfl, -⟩ | ⟨-, hk⟩ | ⟨-, hk⟩⟩ := h
  · cases hk
  · exact .cons rfl (.cons rfl (allCarried_of_ready hpoll))
  · cases hk
  · cases hk

/-! ### What a trace and a result say of the first failing call -/

/-- Nothing, or one write-disable. -/
def AtMostDisable (calls : List Call) : Prop := calls = [] ∨ ∃ a, calls = [.send [0x04] a]

/-- What O31 says of a trace and a result. -/
def Precise (trace : List Call) (k : ResultKind) : Prop :=
  ∀ before c after, trace = before ++ c :: after → failed c = true → (∀ d ∈ before, failed d = false) →
    AtMostDisable after ∧ k ≠ .success

theorem AllCarried.precise {trace : List Call} {k : ResultKind} (h : AllCarried trace) : Precise trace k := by
  rintro before c after rfl hfailed -
  exact absurd (h c (by simp)) (by simp [hfailed])

/-- The call that ends the operation without success. It may itself be carried, as a busy answer is; then the
write-disable is the one that can fail. -/
theorem Precise.ending {after : List Call} {k : ResultKind} (c : Call) (hafter : AtMostDisable after)
    (hk : k ≠ .success) : Precise (c :: after) k := by
  intro before d rest htrace _ _
  refine ⟨?_, hk⟩
  cases before with
  | nil => exact (List.cons.inj htrace).2 ▸ hafter
  | cons b before =>
    have hlater : after = before ++ d :: rest := (List.cons.inj htrace).2
    obtain rfl | ⟨a, rfl⟩ := hafter
    · simp at hlater
    · obtain ⟨-, hrest⟩ | ⟨-, hnil⟩ := List.append_eq_singleton_iff.1 hlater.symm
      · exact .inl (List.cons.inj hrest).2
      · cases hnil

theorem Precise.cons {c : Call} {calls : List Call} {k : ResultKind} (hc : failed c = false) (h : Precise calls k) :
    Precise (c :: calls) k := by
  intro before d after htrace hfailed hbefore
  cases before with
  | nil =>
    obtain ⟨rfl, -⟩ := List.cons.inj htrace
    exact absurd hfailed (by simp [hc])
  | cons b before =>
    exact h before d after (List.cons.inj htrace).2 hfailed fun x hx => hbefore x (List.mem_cons_of_mem b hx)

theorem Precise.append {xs ys : List Call} {k : ResultKind} (hx : AllCarried xs) (hy : Precise ys k) :
    Precise (xs ++ ys) k := by
  induction xs with
  | nil => exact hy
  | cons c xs ih =>
    obtain ⟨hc, hxs⟩ := List.forall_mem_cons.1 hx
    exact .cons hc (ih hxs)

/-! ### Polls and the reset steps -/

/-- The last read of a poll, after what came before it and the delay between the two. -/
theorem pollCalls_concat (d : Nat) (as : List Answer) (a : Answer) :
    ∃ pause, AllCarried pause ∧ pollCalls d (as ++ [a]) = pollCalls d as ++ (pause ++ [statusRead a]) := by
  cases as with
  | nil => exact ⟨[], .nil, rfl⟩
  | cons x as => exact ⟨[.delay d], .cons rfl .nil, by simp [pollCalls]⟩

/-- A poll that did not end ready, in an operation that makes at most the write-disable after it. -/
theorem precise_of_pollRun {p : PollCfg} {calls after : List Call} {out : PollResult} {k : ResultKind}
    (h : PollRun p calls out) (hout : out ≠ .ready) (hafter : AtMostDisable after) (hk : k ≠ .success) :
    Precise (calls ++ after) k := by
  cases out with
  | ready => exact absurd rfl hout
  | busy =>
    obtain ⟨bs, -, -, rfl⟩ := h
    refine .append (allCarried_pollCalls_shown _ bs) ?_
    obtain rfl | ⟨wd, rfl⟩ := hafter
    · exact AllCarried.nil.precise
    · exact .ending _ (.inl rfl) hk
  | transportError e =>
    obtain ⟨bs, -, -, rfl⟩ := h
    obtain ⟨pause, hpause, hcalls⟩ := pollCalls_concat p.interPollDelay (shown bs) (.err e)
    simp only [hcalls, List.append_assoc]
    exact .append (allCarried_pollCalls_shown _ bs) (.append hpause (.ending _ hafter hk))

theorem precise_of_lastPoll {p : PollCfg} {calls : List Call} {out : PollResult} {k : ResultKind}
    (h : PollRun p calls out) (hout : out ≠ .ready) (hk : k ≠ .success) : Precise calls k := by
  simpa using precise_of_pollRun h hout (.inl rfl) hk

/-- Reset steps that did not succeed, as the end of an operation with result `k'`. -/
theorem precise_of_resetRun {c : Cfg} {calls : List Call} {k k' : ResultKind} (h : ResetRun c calls k)
    (hk : k ≠ .success) (hk' : k' ≠ .success) : Precise calls k' := by
  have hpolled {poll : List Call} {out : PollResult} (hpoll : PollRun c.pollReset poll out) (hout : out ≠ .ready) :
      Precise (.send [0xFF] (.ok []) :: .delay c.tPorMs :: poll) k' :=
    .cons rfl (.cons rfl (precise_of_lastPoll hpoll hout hk'))
  obtain ⟨e, rfl, -⟩ | ⟨poll, out, hpoll, rfl, ⟨-, rfl⟩ | ⟨rfl, -⟩ | ⟨⟨e, rfl⟩, -⟩⟩ := h
  · exact .ending _ (.inl rfl) hk'
  · exact absurd rfl hk
  · exact hpolled hpoll nofun
  · exact hpolled hpoll nofun

/-! ### The operations without a bracket -/

/-- What O31 says of an operation. -/
def EndsPrecisely (i : Instr) (s : State) : Prop := ∃ t, exec i s = .next t ∧ Precise t.trace t.r.res

theorem EndsPrecisely.of_result {i : Instr} {s t : State} {k : ResultKind} (hexec : exec i s = .next t)
    (hres : t.r.res = k) (h : Precise t.trace k) : EndsPrecisely i s :=
  ⟨t, hexec, hres ▸ h⟩

/-- An operation of one call, which failed or was carried. -/
theorem precise_singleton {c : Call} {k : ResultKind} (h : failed c = false ∨ k ≠ .success) : Precise [c] k := by
  obtain hc | hk := h
  · exact (AllCarried.cons hc .nil).precise
  · exact .ending c (.inl rfl) hk

section
variable {s : State} (hidle : s.seq = .idle) (howed : s.r.wdOwed = false)
include hidle howed

theorem readId_endsPrecisely : EndsPrecisely .readId s := by
  obtain ⟨t, a, hexec, -, -, -, htrace, ⟨m, d, rfl, hregs⟩ | ⟨e, rfl, hregs⟩⟩ := readIdRun s hidle howed
  · exact .of_result hexec (congrArg Regs.res hregs) (htrace ▸ precise_singleton (.inl rfl))
  · exact .of_result hexec (congrArg Regs.res hregs) (htrace ▸ precise_singleton (.inr nofun))

theorem getFeature_endsPrecisely (reg : BitVec 2) : EndsPrecisely (.getFeature reg) s := by
  obtain ⟨t, a, hexec, -, -, -, htrace, ⟨b, rfl, hregs⟩ | ⟨e, rfl, hregs⟩⟩ := getFeatureRun s reg hidle howed
  · exact .of_result hexec (congrArg Regs.res hregs) (htrace ▸ precise_singleton (.inl rfl))
  · exact .of_result hexec (congrArg Regs.res hregs) (htrace ▸ precise_singleton (.inr nofun))

theorem checkBusy_endsPrecisely : EndsPrecisely .checkBusy s := by
  obtain ⟨t, a, hexec, -, -, -, htrace, ⟨b, rfl, hregs⟩ | ⟨e, rfl, hregs⟩⟩ := checkBusyRun s hidle howed
  · exact .of_result hexec (congrArg Regs.res hregs) (htrace ▸ precise_singleton (.inl rfl))
  · exact .of_result hexec (congrArg Regs.res hregs) (htrace ▸ precise_singleton (.inr nofun))

theorem setFeature_endsPrecisely (reg : BitVec 2) (wval : Byte) : EndsPrecisely (.setFeature reg wval) s := by
  obtain ⟨t, hexec, -, -, hstatus, hother⟩ := setFeatureRun s reg wval hidle howed
  by_cases hreg : reg = 2
  · obtain ⟨htrace, -, -⟩ := hstatus hreg
    exact ⟨t, hexec, htrace ▸ AllCarried.nil.precise⟩
  · obtain ⟨a, -, htrace, ⟨rfl, hregs⟩ | ⟨e, rfl, hregs⟩⟩ := hother hreg
    · exact .of_result hexec (congrArg Regs.res hregs) (htrace ▸ precise_singleton (.inl rfl))
    · exact .of_result hexec (congrArg Regs.res hregs) (htrace ▸ precise_singleton (.inr nofun))

theorem waitReady_endsPrecisely (att dly : BitVec 16) : EndsPrecisely (.waitReady att dly) s := by
  obtain ⟨t, out, hexec, -, -, hpoll, hregs⟩ := waitReadyRun s att dly hidle howed
  cases out with
  | ready => exact ⟨t, hexec, (allCarried_of_ready hpoll).precise⟩
  | busy => exact .of_result hexec (congrArg Regs.res hregs) (precise_of_lastPoll hpoll nofun nofun)
  | transportError e => exact .of_result hexec (congrArg Regs.res hregs) (precise_of_lastPoll hpoll nofun nofun)

theorem reset_endsPrecisely : EndsPrecisely .reset s := by
  obtain ⟨t, k, hexec, -, -, hrun, hregs⟩ := resetOperationRun s hidle howed
  by_cases hk : k = .success
  · exact ⟨t, hexec, (allCarried_of_resetSuccess (hk ▸ hrun)).precise⟩
  · exact .of_result hexec (congrArg Regs.res hregs) (precise_of_resetRun hrun hk hk)

theorem init_endsPrecisely : EndsPrecisely .init s := by
  obtain ⟨t, calls, k, hexec, -, -, hrun, hend⟩ := initRun s hidle howed
  obtain ⟨hk, htrace, hregs⟩ | ⟨e, rfl, htrace, hregs⟩ | ⟨m, d, rfl, htrace, -⟩ := hend
  · exact .of_result hexec (congrArg Regs.res hregs) (htrace ▸ .cons rfl (precise_of_resetRun hrun hk nofun))
  · exact .of_result hexec (congrArg Regs.res hregs)
      (htrace ▸ .append (.cons rfl (allCarried_of_resetSuccess hrun)) (precise_singleton (.inr nofun)))
  · exact ⟨t, hexec,
      htrace ▸ .append (.cons rfl (allCarried_of_resetSuccess hrun)) (precise_singleton (.inl rfl))⟩

theorem pageRead_endsPrecisely (addr : LogicalAddress) (len : BitVec 16) : EndsPrecisely (.pageRead addr len) s := by
  obtain ⟨t, k, hexec, -, hregs, -, hend⟩ := pageReadRun s addr len hidle howed
  refine .of_result hexec (congrArg Regs.res hregs) ?_
  obtain ⟨-, htrace, -⟩ | ⟨-, -, htrace, -⟩ | ⟨-, -, ⟨e, htrace, rfl⟩ | ⟨calls, out, hpoll, hout, htrace, rfl⟩ |
    ⟨calls, e, hpoll, htrace, rfl⟩ | ⟨calls, rx, hpoll, htrace, -⟩⟩ := hend <;> rw [htrace]
  · exact AllCarried.nil.precise
  · exact AllCarried.nil.precise
  · exact precise_singleton (.inr nofun)
  · exact .cons rfl (precise_of_lastPoll hpoll hout nofun)
  · exact .append (.cons rfl (allCarried_of_ready hpoll)) (precise_singleton (.inr nofun))
  · exact .append (.cons rfl (allCarried_of_ready hpoll)) (precise_singleton (.inl rfl))

end

/-! ### The bracket -/

/-- The trace of a bracket and the result it gives, `kind` where the operation did not succeed. -/
theorem precise_of_bracketRun {steps : List (Answer → Call)} {p : PollCfg} {bit : Nat} {trace : List Call}
    {ok good : Bool} {kind : ResultKind} (hsteps : ∀ step ∈ steps, failed (step (.ok [])) = false)
    (hkind : kind ≠ .success) (h : BracketRun steps p bit trace ok good) :
    Precise trace (if good then .success else kind) := by
  have hcarried {part : List (Answer → Call)} (hsub : ∀ step ∈ part, step ∈ steps) :
      AllCarried (part.map fun c => c (.ok [])) :=
    List.forall_mem_map.2 fun step hstep => hsteps step (hsub step hstep)
  have hpolled {calls : List Call} (hpoll : PollRun p calls .ready) :
      AllCarried ((steps.map fun c => c (.ok [])) ++ calls) :=
    (hcarried fun _ h => h).append (allCarried_of_ready hpoll)
  obtain ⟨before, step, after, e, wd, rfl, rfl, -, rfl⟩ | ⟨calls, out, wd, hpoll, hout, rfl, -, rfl⟩ |
    ⟨calls, e, hpoll, rfl, -, rfl⟩ | ⟨calls, e, hpoll, rfl, -, rfl⟩ | ⟨calls, b, hpoll, rfl, -, -⟩ := h
  · exact .append (hcarried fun _ h => List.mem_append_left _ h) (.ending _ (.inr ⟨wd, rfl⟩) hkind)
  · rw [List.append_assoc]
    exact .append (hcarried fun _ h => h) (precise_of_pollRun hpoll hout (.inr ⟨wd, rfl⟩) hkind)
  · exact .append (hpolled hpoll) (.ending _ (.inl rfl) hkind)
  · exact .append (hpolled hpoll) (.cons rfl (.ending _ (.inl rfl) hkind))
  · exact ((hpolled hpoll).append (.cons rfl (.cons rfl .nil))).precise

theorem pageProgram_endsPrecisely {s : State} (addr : LogicalAddress) (len : BitVec 16) (hidle : s.seq = .idle)
    (howed : s.r.wdOwed = false) : EndsPrecisely (.pageProgram addr len) s := by
  obtain ⟨t, k, hexec, -, -, hregs, hend⟩ := pageProgramRun s addr len hidle howed
  refine .of_result hexec (congrArg Regs.res hregs) ?_
  obtain ⟨-, htrace, -⟩ | ⟨-, -, htrace, -⟩ | ⟨-, -, good, rfl, hrun⟩ := hend
  · exact htrace ▸ AllCarried.nil.precise
  · exact htrace ▸ AllCarried.nil.precise
  · exact precise_of_bracketRun (by simp [failed, answerOf]) nofun hrun

theorem blockErase_endsPrecisely {s : State} (addr : LogicalAddress) (hidle : s.seq = .idle)
    (howed : s.r.wdOwed = false) : EndsPrecisely (.blockErase addr) s := by
  obtain ⟨t, k, hexec, -, -, hregs, hend⟩ := blockEraseRun s addr hidle howed
  refine .of_result hexec (congrArg Regs.res hregs) ?_
  obtain ⟨-, htrace, -⟩ | ⟨-, good, rfl, hrun⟩ := hend
  · exact htrace ▸ AllCarried.nil.precise
  · exact precise_of_bracketRun (by simp [failed, answerOf]) nofun hrun

/-- Settles O31: each operation's trace is carried calls, then at most one call that ends it without success, then at
most the write-disable. -/
theorem failuresArePrecise : Obligations.FailuresArePrecise := by
  intro s i hidle howed hhost
  cases i with
  | init => exact init_endsPrecisely hidle howed
  | reset => exact reset_endsPrecisely hidle howed
  | readId => exact readId_endsPrecisely hidle howed
  | pageRead addr len => exact pageRead_endsPrecisely hidle howed addr len
  | pageProgram addr len => exact pageProgram_endsPrecisely addr len hidle howed
  | blockErase addr => exact blockErase_endsPrecisely addr hidle howed
  | getFeature reg => exact getFeature_endsPrecisely hidle howed reg
  | setFeature reg wval => exact setFeature_endsPrecisely hidle howed reg wval
  | waitReady att dly => exact waitReady_endsPrecisely hidle howed att dly
  | checkBusy => exact checkBusy_endsPrecisely hidle howed
  | _ => cases hhost

end Sys2Proof.Proofs.Failures
end

section
/-! What a failed operation leaves in the chip's cache (R242): by the calls that its trace has, the cache was last filled
by the load or by the page read, and nothing after that changed it. -/

namespace Sys2Proof.Proofs.FailedCache

open Sys2Proof Sys2Proof.Machine Sys2Proof.Machine.Safety Sys2Proof.Machine.Laws Sys2Proof.Claims
  Sys2Proof.Proofs.PageRead Sys2Proof.Proofs.ProgramAndErase Sys2Proof.Proofs.Failures

/-! ### Calls that leave the cache as it is -/

/-- No call fills the chip's cache, whatever was known of the chip before it. -/
def KeepsCache (calls : List Call) : Prop := ∀ c ∈ calls, ∀ v, (chipAfter v c).cache = v.cache

theorem KeepsCache.nil : KeepsCache [] := fun _ h => by cases h

theorem KeepsCache.cons {c : Call} {calls : List Call} (hc : ∀ v, (chipAfter v c).cache = v.cache)
    (h : KeepsCache calls) : KeepsCache (c :: calls) :=
  List.forall_mem_cons.2 ⟨hc, h⟩

theorem KeepsCache.append {xs ys : List Call} (hx : KeepsCache xs) (hy : KeepsCache ys) : KeepsCache (xs ++ ys) :=
  List.forall_mem_append.2 ⟨hx, hy⟩

theorem KeepsCache.cache_eq {calls : List Call} (h : KeepsCache calls) (v : ChipView) :
    (chipAfterTrace v calls).cache = v.cache := by
  induction calls generalizing v with
  | nil => rfl
  | cons c calls ih =>
    obtain ⟨hc, hcalls⟩ := List.forall_mem_cons.1 h
    rw [chipAfterTrace_cons, ih hcalls, hc]

theorem keepsCache_execute (addr : LogicalAddress) (a : Answer) : KeepsCache [.send (0x10 :: rowWire addr) a] :=
  .cons (fun v => chipAfter_execute_cache v _ _ _ a) .nil

theorem keepsCache_disable (a : Answer) : KeepsCache [.send [0x04] a] :=
  .cons (fun v => chipAfter_disable_cache v a) .nil

theorem keepsCache_sendReceive (tx : List Byte) (n : Nat) (a : Answer) : KeepsCache [.sendReceive tx n a] :=
  .cons (fun v => (chipAfter_sendReceive v tx n a).1) .nil

theorem keepsCache_pollCalls (d : Nat) (as : List Answer) : KeepsCache (pollCalls d as) := by
  cases as with
  | nil => exact .nil
  | cons a as =>
    refine (keepsCache_sendReceive _ _ a).append fun c hc => ?_
    obtain ⟨b, -, hc⟩ := List.mem_flatMap.1 hc
    exact KeepsCache.cons (fun v => congrArg _ (chipAfter_delay v d)) (keepsCache_sendReceive _ _ b) c hc

theorem keepsCache_of_pollRun {p : PollCfg} {calls : List Call} {out : PollResult} (h : PollRun p calls out) :
    KeepsCache calls := by
  cases out with
  | ready => obtain ⟨bs, b, -, -, -, rfl⟩ := h; exact keepsCache_pollCalls _ _
  | busy => obtain ⟨bs, -, -, rfl⟩ := h; exact keepsCache_pollCalls _ _
  | transportError e => obtain ⟨bs, -, -, rfl⟩ := h; exact keepsCache_pollCalls _ _

/-! ### Calls that fill it -/

/-- After a carried `PAGE_READ` command the cache holds the page, as long as no later call fills it. -/
theorem cache_of_pageRead (v : ChipView) (addr : LogicalAddress) (rx : List Byte) {rest : List Call}
    (h : KeepsCache rest) :
    (chipAfterTrace v (.send (0x13 :: rowWire addr) (.ok rx) :: rest)).cache = .page (rowWire addr) :=
  h.cache_eq _

/-- After a carried program load the cache holds the loaded data, as long as no later call fills it. -/
theorem cache_of_programLoad (v : ChipView) (opc : Byte) (col data rx : List Byte) {rest : List Call}
    (h : KeepsCache rest) :
    (chipAfterTrace v (.sendCommandThenData (opc :: col) data (.ok rx) :: rest)).cache = .loaded col data :=
  h.cache_eq _

/-! ### `PAGE_PROGRAM` -/

/-- The calls of `PAGE_PROGRAM` before its poll (R176). -/
def programSteps (addr : LogicalAddress) (col data : List Byte) : List (Answer → Call) :=
  [.send [0x06], .sendCommandThenData (0x02 :: col) data, .send (0x10 :: rowWire addr)]

/-- A bracket that came to the program execute carried the load, and no later call fills the cache. -/
theorem cache_of_programRun {addr : LogicalAddress} {col data : List Byte} {p : PollCfg} {bit : Nat}
    {trace : List Call} {ok good : Bool} {e : TransportError} (v : ChipView)
    (h : BracketRun (programSteps addr col data) p bit trace ok good)
    (hexecute : .send (0x10 :: rowWire addr) (.err e) ∈ trace) :
    (chipAfterTrace v trace).cache = .loaded col data := by
  have hloaded (a : Answer) {rest : List Call} (hrest : KeepsCache rest) :
      (chipAfterTrace v (.send [0x06] (.ok []) :: .sendCommandThenData (0x02 :: col) data (.ok []) ::
        .send (0x10 :: rowWire addr) a :: rest)).cache = .loaded col data :=
    cache_of_programLoad _ _ col data [] ((keepsCache_execute addr a).append hrest)
  obtain ⟨before, step, after, e', wd, hsteps, rfl, -⟩ | ⟨calls, out, wd, hpoll, -, rfl, -⟩ |
    ⟨calls, e', hpoll, rfl, -⟩ | ⟨calls, e', hpoll, rfl, -⟩ | ⟨calls, b, hpoll, rfl, -⟩ := h
  · -- The failed step is the execute itself: a bracket that failed before it does not make this call.
    obtain _ | ⟨enable, _ | ⟨load, _ | ⟨execute, before⟩⟩⟩ := before
    · obtain ⟨rfl, -⟩ := List.cons.inj hsteps
      simp at hexecute
    · obtain ⟨rfl, hlater⟩ := List.cons.inj hsteps
      obtain ⟨rfl, -⟩ := List.cons.inj hlater
      simp at hexecute
    · obtain ⟨rfl, hlater⟩ := List.cons.inj hsteps
      obtain ⟨rfl, hlast⟩ := List.cons.inj hlater
      obtain ⟨rfl, -⟩ := List.cons.inj hlast
      exact hloaded (.err e') (keepsCache_disable wd)
    · simp [programSteps] at hsteps
  · exact hloaded (.ok []) ((keepsCache_of_pollRun hpoll).append (keepsCache_disable wd))
  · exact hloaded (.ok []) ((keepsCache_of_pollRun hpoll).append (keepsCache_disable (.err e')))
  · exact hloaded (.ok []) ((keepsCache_of_pollRun hpoll).append
      ((keepsCache_disable (.ok [])).append (keepsCache_sendReceive _ _ (.err e'))))
  · exact hloaded (.ok []) ((keepsCache_of_pollRun hpoll).append
      ((keepsCache_disable (.ok [])).append (keepsCache_sendReceive _ _ (.ok [b]))))

/-- An operation one of whose calls failed does not end in success (R206). -/
theorem ne_success_of_failed {trace : List Call} {k : ResultKind} {c : Call} (h : Precise trace k) (hc : c ∈ trace)
    (hfailed : failed c = true) : k ≠ .success := by
  obtain ⟨first, hfirst⟩ := Option.isSome_iff_exists.1 (List.find?_isSome.2 ⟨c, hc, hfailed⟩)
  obtain ⟨hfirst, before, after, htrace, hbefore⟩ := List.find?_eq_some_iff_append.1 hfirst
  exact (h before first after htrace hfirst (by simpa using hbefore)).2

theorem pageProgram_failedExecute {s : State} (addr : LogicalAddress) (len : BitVec 16) (v : ChipView)
    (e : TransportError) (hidle : s.seq = .idle) (howed : s.r.wdOwed = false) :
    ∃ t, exec (.pageProgram addr len) s = .next t ∧
      (.send (0x10 :: rowWire addr) (.err e) ∈ t.trace → t.r.res = .programFailed ∧
        (chipAfterTrace v t.trace).cache =
          .loaded (colWire s.cfg addr) ((List.range len.toNat).map (Buffer.read s.buf))) := by
  obtain ⟨t, k, hexec, -, -, hregs, hend⟩ := pageProgramRun s addr len hidle howed
  refine ⟨t, hexec, fun hexecute => ?_⟩
  obtain ⟨-, htrace, -⟩ | ⟨-, -, htrace, -⟩ | ⟨-, -, good, rfl, hrun⟩ := hend
  · simp [htrace] at hexecute
  · simp [htrace] at hexecute
  · refine ⟨(congrArg Regs.res hregs).trans ?_, cache_of_programRun v hrun hexecute⟩
    have hprecise : Precise t.trace (if good then .success else .programFailed) :=
      precise_of_bracketRun (by simp [failed, answerOf]) nofun hrun
    cases good with
    | false => rfl
    | true => exact absurd rfl (ne_success_of_failed hprecise hexecute rfl)

/-! ### `PAGE_READ` -/

theorem pageRead_failedFetch {s : State} (addr : LogicalAddress) (len : BitVec 16) (v : ChipView)
    (e : TransportError) (hidle : s.seq = .idle) (howed : s.r.wdOwed = false) :
    ∃ t, exec (.pageRead addr len) s = .next t ∧
      (.sendReceive (0x03 :: (colWire s.cfg addr ++ [s.cfg.dummy])) len.toNat (.err e) ∈ t.trace →
        t.r.res = .readFailed ∧ (chipAfterTrace v t.trace).cache = .page (rowWire addr)) := by
  obtain ⟨t, k, hexec, -, hregs, -, hend⟩ := pageReadRun s addr len hidle howed
  have hres : t.r.res = k := congrArg Regs.res hregs
  refine ⟨t, hexec, fun hfetch => ?_⟩
  obtain ⟨-, htrace, -⟩ | ⟨-, -, htrace, -⟩ | ⟨-, -, ⟨e', htrace, -⟩ | ⟨calls, out, hpoll, -, htrace, rfl⟩ |
    ⟨calls, e', hpoll, htrace, rfl⟩ | ⟨calls, rx, hpoll, htrace, -⟩⟩ := hend <;> rw [htrace] at hfetch ⊢
  · cases hfetch
  · cases hfetch
  · simp at hfetch
  · exact ⟨hres, cache_of_pageRead v addr [] (keepsCache_of_pollRun hpoll)⟩
  · exact ⟨hres, cache_of_pageRead v addr []
      ((keepsCache_of_pollRun hpoll).append (keepsCache_sendReceive _ _ (.err e')))⟩
  · -- Every call of this trace was carried, and the fetch that failed is not among them.
    have hcarried := AllCarried.cons (c := .send (0x13 :: rowWire addr) (.ok [])) rfl
      ((allCarried_of_ready hpoll).append
        (.cons (c := .sendReceive (0x03 :: (colWire s.cfg addr ++ [s.cfg.dummy])) len.toNat (.ok rx)) rfl .nil))
    have hfailed : true = false := hcarried _ hfetch
    cases hfailed

/-- Settles O52: the execute fails only after the load was carried, and the cache read only after the page read was;
neither the failed call nor what follows it fills the cache. -/
theorem failedOperationNotUndone : Obligations.FailedOperationNotUndone := fun _ addr len v e hidle howed =>
  ⟨pageProgram_failedExecute addr len v e hidle howed, pageRead_failedFetch addr len v e hidle howed⟩

end Sys2Proof.Proofs.FailedCache
end

section
/-! The sequencer against the operations: stepped from its first step on, an operation ends in the state in which it
ends when it is run at once. Every part of a step does the same wherever `seq` stands, so the two forms are compared at
each step on the state without `seq`. -/

namespace Sys2Proof.Proofs.Sequencer

open Sys2Proof Sys2Proof.Machine Sys2Proof.Machine.Laws Sys2Proof.Claims Sys2Proof.Proofs.Presented
  Sys2Proof.Proofs.Encoding Sys2Proof.Proofs.Poll Sys2Proof.Proofs.ResetAndIdentity Sys2Proof.Proofs.PageRead
  Sys2Proof.Proofs.Bracket Sys2Proof.Proofs.ProgramAndErase

/-! ### What the parts of a step do does not depend on `seq` -/

/-- The state of an outcome, the sequencer put at `p`. -/
def outGoto {α : Type} (p : SeqStep) (x : α × State) : α × State := (x.1, x.2.goto p)

section
variable (p : SeqStep) (s : State)

theorem raise_goto (k : ResultKind) : raise k (s.goto p) = raise k s := by
  unfold raise cleanup
  rw [goto_r]
  cases s.r.wdOwed <;> rfl

theorem readFailure_goto (k : ResultKind) : readFailure k (s.goto p) = readFailure k s :=
  raise_goto p (spoilBuffer s) k

theorem identitySteps_goto : identitySteps (s.goto p) = outGoto p (identitySteps s) := by
  have hcall : txId (s.goto p) = outGoto p (txId s) := rfl
  rw [identitySteps, identitySteps, hcall]
  rcases txId s with ⟨_ | _, t⟩ <;> rfl

theorem readIdOp_goto : readIdOp (s.goto p) = readIdOp s := by
  rw [readIdOp, readIdOp, identitySteps_goto]
  rcases identitySteps s with ⟨_ | e, t⟩
  · rfl
  · exact raise_goto p (t.setTerr e) _

theorem initIdentity_goto : initIdentity (s.goto p) = initIdentity s := by
  rw [initIdentity, initIdentity, identitySteps_goto]
  rcases identitySteps s with ⟨rx | e, t⟩
  · exact congrArg (ite (identityOk t = true) (respond .success t)) (raise_goto p t _)
  · exact raise_goto p t _

theorem getFeatureOp_goto : getFeatureOp (s.goto p) = getFeatureOp s := by
  have hcall (ra : Byte) : getFeature ra (s.goto p) = outGoto p (getFeature ra s) := rfl
  rw [getFeatureOp, getFeatureOp, hcall, goto_r]
  rcases getFeature _ s with ⟨rx | e, t⟩
  · simp only [outGoto, sampleStatus_reg]
    rfl
  · exact raise_goto p (t.setTerr e) _

theorem setFeature_goto (ra v : Byte) : setFeature ra v (s.goto p) = outGoto p (setFeature ra v s) := by
  have hcall : txSetf ra v (s.goto p) = outGoto p (txSetf ra v s) := rfl
  rw [setFeature, setFeature, hcall]
  split
  · rfl
  · rcases txSetf ra v s with ⟨_ | _, t⟩ <;> rfl

theorem setFeatureOp_goto : setFeatureOp (s.goto p) = setFeatureOp s := by
  rw [setFeatureOp, setFeatureOp, setFeature_goto, goto_r]
  rcases setFeature _ _ s with ⟨_ | _ | e, t⟩
  · rfl
  · exact raise_goto p t _
  · exact raise_goto p (t.setTerr e) _

theorem checkBusyOp_goto : checkBusyOp (s.goto p) = checkBusyOp s := by
  have hcall : getFeature statusAddress (s.goto p) = outGoto p (getFeature statusAddress s) := rfl
  rw [checkBusyOp, checkBusyOp, hcall]
  rcases getFeature statusAddress s with ⟨rx | e, t⟩
  · rfl
  · exact raise_goto p (t.setTerr e) _

theorem readCacheStep_goto (x : Phys) : readCacheStep x (s.goto p) = readCacheStep x s := by
  have hcall (w : BitVec 16) (n : Nat) : txColrd w n (s.goto p) = outGoto p (txColrd w n s) := rfl
  rw [readCacheStep, readCacheStep, hcall, goto_r, goto_cfg]
  rcases txColrd _ _ s with ⟨rx | e, t⟩
  · rfl
  · exact readFailure_goto p t _

theorem noteAnswer_goto (x : Answer × State) : noteAnswer (outGoto p x) = (noteAnswer x).goto p := by
  rcases x with ⟨_ | _, t⟩ <;> rfl

theorem closeBracket_goto (failBit : Byte → Bool) (k : ResultKind) :
    closeBracket failBit k (s.goto p) = closeBracket failBit k s := by
  have hcall : getFeature statusAddress (s.goto p) = outGoto p (getFeature statusAddress s) := rfl
  rw [closeBracket, closeBracket, hcall, raise_goto, goto_r]
  rcases getFeature statusAddress s with ⟨rx | e, t⟩
  · have hfail : raise k ((outGoto p (Answer.ok rx, t)).2.sample (byteAt rx 0)) = raise k (t.sample (byteAt rx 0)) :=
      raise_goto p (t.sample (byteAt rx 0)) k
    simp only [outGoto] at hfail ⊢
    rw [hfail]
    rfl
  · simp only [outGoto, raise_goto]

theorem afterPoll_goto (c : PollCaller) (out : PollResult) : afterPoll c out (s.goto p) = afterPoll c out s := by
  cases c with
  | init | reset =>
    cases out with
    | ready => rfl
    | busy | transportError e => exact raise_goto ..
  | pageRead =>
    cases out with
    | ready => rfl
    | busy | transportError e => exact readFailure_goto ..
  | pageProgram | blockErase => cases out <;> rfl
  | waitReady =>
    cases out with
    | ready => rfl
    | busy => exact raise_goto ..
    | transportError e => exact raise_goto p (s.setTerr e) _

theorem pollTest_goto (c : PollCaller) (x : Answer × State) : pollTest c (outGoto p x) = pollTest c x := by
  rcases x with ⟨rx | e, t⟩
  · have hover (out : PollResult) :
        afterPoll c out ((t.sample (byteAt rx 0)).goto p) = afterPoll c out (t.sample (byteAt rx 0)) :=
      afterPoll_goto p _ c out
    exact congrArg₂ (ite (oip (byteAt rx 0) = true)) (congrArg (ite _ _) (hover .busy)) (hover .ready)
  · exact afterPoll_goto p t c (.transportError e)

theorem bracketNext_goto (next disable : SeqStep) :
    bracketNext next disable (s.goto p) = bracketNext next disable s := rfl

theorem afterDisable_goto (check : SeqStep) (k : ResultKind) :
    afterDisable check k (s.goto p) = afterDisable check k s :=
  congrArg (ite (s.r.ok = true) (s.goto check)) (raise_goto p s k)

end

/-! ### Runs of the sequencer -/

/-- The sequencer, stepped from `s`, comes to `t`, and is in `IDLE` at no step before. -/
inductive Paced : State → State → Prop
  | done (s : State) : Paced s s
  | step {s t : State} {p : SeqStep} (hseq : s.seq = .run p) (h : Paced (tickAt p s) t) : Paced s t

theorem tick_of_run {s : State} {p : SeqStep} (h : s.seq = .run p) : tick s = tickAt p s := by
  rw [tick, h]

theorem Paced.exists_ticks {s t : State} (h : Paced s t) :
    ∃ n, ticks n s = t ∧ ∀ m < n, (ticks m s).seq ≠ .idle := by
  induction h with
  | done s => exact ⟨0, rfl, fun m hm => absurd hm (Nat.not_lt_zero m)⟩
  | @step s t p hseq _ ih =>
    obtain ⟨n, hn, hbusy⟩ := ih
    rw [← tick_of_run hseq] at hn hbusy
    refine ⟨n + 1, hn, fun m hm => ?_⟩
    cases m with
    | zero => exact hseq ▸ nofun
    | succ m => exact hbusy m (Nat.lt_of_succ_lt_succ hm)

theorem Paced.goto {s t : State} {p : SeqStep} (h : Paced (tickAt p (s.goto p)) t) : Paced (s.goto p) t :=
  .step rfl h

/-- A step that ends the operation. -/
theorem Paced.last {s t : State} {p : SeqStep} (h : tickAt p (s.goto p) = t) : Paced (s.goto p) t :=
  .goto (h ▸ .done _)

/-! ### The poll -/

/-- The poll's outcome taken to its caller. -/
def pollOutcome (c : PollCaller) (x : PollResult × State) : State := afterPoll c x.1 x.2

/-- The sequencer after a busy status byte: the next iteration, or the end of the poll (R126). -/
def loopHead (c : PollCaller) (s : State) : State :=
  if s.r.cnt < (s.pollCfg c).maxAttempts then s.goto (.poll c .delay) else afterPoll c .busy s

/-- The state after a status read that showed `b`. -/
def sampled (s : State) (b : Byte) : State := polled s s.r.cnt b [statusRead (.ok [b])] 1

theorem readAndTest_of_ok {s : State} {b : Byte} (d n : Nat) (h : s.nextAnswer 1 = .ok [b]) :
    readAndTest d n s = if oip b then pollLoop d n (sampled s b) else (.ready, sampled s b) := by
  rw [readAndTest, getFeature_status, h]
  rfl

theorem pollTest_of_ok {s : State} {b : Byte} (c : PollCaller) (h : s.nextAnswer 1 = .ok [b]) :
    pollTest c (getFeature statusAddress s) =
      if oip b then loopHead c (sampled s b) else afterPoll c .ready (sampled s b) := by
  rw [getFeature_status, h]
  rfl

/-- A status read of a poll, if the loop's head takes the sequencer where the loop with `n` iterations left goes. -/
theorem paced_read {c : PollCaller} {d n : Nat} {s t : State}
    (hloop : ∀ b, Paced (pollOutcome c (pollLoop d n (sampled s b))) t → Paced (loopHead c (sampled s b)) t)
    (h : Paced (pollOutcome c (readAndTest d n s)) t) : Paced (pollTest c (getFeature statusAddress s)) t := by
  obtain ⟨b, hb⟩ | ⟨e, he⟩ := nextAnswer_one s
  · rw [readAndTest_of_ok d n hb] at h
    rw [pollTest_of_ok c hb]
    cases ho : oip b <;> rw [ho] at h
    · exact h
    · exact hloop b h
  · rw [readAndTest, getFeature_status, he] at h
    rw [getFeature_status, he]
    exact h

/-- The loop's head with `n` iterations left. -/
theorem paced_loopHead {c : PollCaller} {d n : Nat} {s t : State} (hmax : (s.pollCfg c).maxAttempts = s.r.cnt + n)
    (hd : (s.pollCfg c).interPollDelay = d) (h : Paced (pollOutcome c (pollLoop d n s)) t) :
    Paced (loopHead c s) t := by
  induction n generalizing s with
  | zero =>
    rw [loopHead, if_neg (by omega)]
    exact h
  | succ n ih =>
    rw [loopHead, if_pos (by omega)]
    have hread : Paced (pollTest c (getFeature statusAddress (delay d s.countAttempt))) t :=
      paced_read (fun b => ih (hmax.trans (Nat.add_right_comm s.r.cnt n 1)) hd) h
    rw [← pollTest_goto (.poll c .read)] at hread
    subst hd
    exact Paced.goto (Paced.goto hread)

/-- A poll from its first step on (R126). -/
theorem paced_poll {c : PollCaller} {s t : State} (h : Paced (pollOutcome c (waitUntilReady (s.pollCfg c) s)) t) :
    Paced (s.goto (.poll c .first)) t := by
  have hread : Paced (pollTest c (getFeature statusAddress s.clearCnt)) t :=
    paced_read (fun b => paced_loopHead (Nat.zero_add _).symm rfl) h
  rw [← pollTest_goto (.poll c .first)] at hread
  exact Paced.goto hread

/-! ### The operations -/

theorem paced_waitReady (s : State) : Paced (s.goto (.poll .waitReady .first)) (waitReadyOp s) := by
  refine paced_poll ?_
  rw [waitReadyOp]
  rcases waitUntilReady _ s with ⟨_ | _ | e, t⟩ <;> exact .done _

/-- The end of reset steps, alone or inside `INIT`. -/
def resetEnd (inInit : Bool) (x : ResultKind × State) : State :=
  match x with
  | (.success, s) => if inInit then initIdentity s else respond .success s
  | (k, s)        => raise (if inInit then .resetFailed else k) s

/-- `RESET` and `INIT` are the reset steps and what their caller does with the result. -/
theorem resetOp_eq_resetEnd (s : State) : resetOp s = resetEnd false (resetSteps .reset s) := rfl

theorem initOp_eq_resetEnd (s : State) : initOp s = resetEnd true (resetSteps .init (delay s.cfg.tPorMs s)) := rfl

/-- The poll whose caller the reset steps are. -/
def resetCaller (inInit : Bool) : PollCaller := if inInit then .init else .reset

theorem paced_resetPoll (inInit : Bool) (out : PollResult) (s : State) :
    Paced (afterPoll (resetCaller inInit) out s) (resetEnd inInit (resetResult out, s)) := by
  cases inInit with
  | false => cases out <;> exact .done _
  | true =>
    cases out with
    | ready => exact .last (initIdentity_goto ..)
    | busy | transportError e => exact .done _

theorem paced_resetSteps (inInit : Bool) (s : State) :
    Paced (s.goto (.resetSend inInit)) (resetEnd inInit (resetSteps (resetCaller inInit) s)) := by
  have hcaller : resetCaller inInit = .init ∨ resetCaller inInit = .reset := by
    cases inInit
    · exact .inr rfl
    · exact .inl rfl
  have hcfg (u : State) : u.pollCfg (resetCaller inInit) = u.cfg.pollReset := by
    obtain h | h := hcaller <;> rw [h] <;> rfl
  have hcall : txCmd Opcode.reset (s.goto (.resetSend inInit)) = outGoto (.resetSend inInit) (txCmd Opcode.reset s) :=
    rfl
  refine .goto ?_
  rw [tickAt, hcall]
  rcases hsend : txCmd Opcode.reset s with ⟨rx | e, t⟩
  · rcases hpoll : waitUntilReady t.cfg.pollReset (delay t.cfg.tPorMs t) with ⟨out, u⟩
    rw [resetSteps_of_send hcaller hsend hpoll]
    refine Paced.goto (s := t) (paced_poll (c := resetCaller inInit) (s := delay t.cfg.tPorMs t) ?_)
    rw [hcfg, delay_cfg, hpoll]
    exact paced_resetPoll inInit out u
  · rw [resetSteps, hsend]
    dsimp only [outGoto]
    rw [raise_goto]
    cases inInit <;> exact .done _

theorem paced_init (s : State) : Paced (s.goto .initDelay) (initOp s) :=
  Paced.goto (paced_resetSteps true (delay s.cfg.tPorMs s))

/-! ### `PAGE_READ` -/

theorem withPhys_goto_none {fail : State → State} {step : Phys → State → State} {s : State} (p : SeqStep)
    (h : Machine.translate s.r.addr = none) : withPhys fail step (s.goto p) = fail (s.goto p) := by
  rw [withPhys, goto_r, h]

theorem withPhys_goto_some {fail : State → State} {step : Phys → State → State} {s : State} {x : Phys}
    (p : SeqStep) (h : Machine.translate s.r.addr = some x) : withPhys fail step (s.goto p) = step x (s.goto p) := by
  rw [withPhys, goto_r, h]

theorem waitUntilReady_addr (p : PollCfg) (s : State) : (waitUntilReady p s).2.r.addr = s.r.addr := by
  obtain ⟨out, k, st, h, -⟩ := waitUntilReady_spec p s
  rw [h]
  rfl

theorem paced_readCache {s : State} {x : Phys} (h : Machine.translate s.r.addr = some x) :
    Paced (s.goto .readCache) (readCacheStep x s) :=
  .last ((withPhys_goto_some _ h).trans (readCacheStep_goto _ s x))

theorem paced_readLoad {s : State} {x : Phys} (hlen : s.r.len.toNat ≤ Config.pageSize)
    (h : Machine.translate s.r.addr = some x) : Paced (s.goto .readLoad) (pageReadOp s) := by
  have hcall : txRow Opcode.pageRead x.rowAddr (s.goto .readLoad) =
    outGoto .readLoad (txRow Opcode.pageRead x.rowAddr s) := rfl
  refine .goto ?_
  rw [tickAt, withPhys_goto_some _ h, hcall]
  rcases hload : txRow Opcode.pageRead x.rowAddr s with ⟨rx | e, t⟩
  · have haddr : t.r.addr = s.r.addr := congrArg (·.2.r.addr) hload.symm
    rcases hpoll : waitUntilReady t.cfg.pollRead t with ⟨out, u⟩
    rw [pageReadOp_of_poll hlen h hload hpoll]
    have hkeep : u.r.addr = t.r.addr := by rw [← waitUntilReady_addr t.cfg.pollRead t, hpoll]
    refine paced_poll (s := t) (c := .pageRead) ?_
    rw [show t.pollCfg .pageRead = t.cfg.pollRead from rfl, hpoll]
    cases out with
    | ready => exact paced_readCache (by rw [hkeep, haddr, h])
    | busy | transportError e => exact .done _
  · rw [pageReadOp_of_load_err hlen h hload]
    dsimp only [outGoto]
    rw [readFailure_goto]
    exact .done _

theorem paced_pageRead (s : State) : Paced (s.goto .readGuards) (pageReadOp s) := by
  refine .goto ?_
  rw [tickAt, goto_r]
  split
  next hlong =>
    rw [pageReadOp_oversize (by exact hlong), readFailure_goto]
    exact .done _
  next hlen =>
    rcases h : Machine.translate s.r.addr with _ | x
    · rw [withPhys_goto_none _ h, readFailure_goto, pageReadOp, if_neg hlen, h]
      exact .done _
    · rw [withPhys_goto_some _ h]
      exact paced_readLoad (Nat.le_of_not_lt hlen) h

/-! ### The write-enable bracket -/

/-- A step of the bracket, and those after it, of which `finish` says how they end. -/
theorem paced_bracketNext {next disable : SeqStep} {finish step : State → State} {s : State}
    (hnext : s.r.ok = true → Paced (s.goto next) (finish (step s)))
    (hdisable : s.r.ok = false → Paced (s.goto disable) (finish s)) :
    Paced (bracketNext next disable s) (finish (whenOk step s)) := by
  cases hok : s.r.ok with
  | true =>
    rw [bracketNext, if_pos hok, whenOk_good step hok]
    exact hnext hok
  | false =>
    rw [bracketNext, if_neg (by simp [hok]), whenOk_failed step hok]
    exact hdisable hok

theorem noteAnswer_addr (x : Answer × State) : (noteAnswer x).r.addr = x.2.r.addr := by
  rcases x with ⟨_ | _, t⟩ <;> rfl

/-- Once a step has failed, the write-disable alone is left (R183). -/
theorem pollAndClose_skipped {s : State} (caller : PollCaller) (failBit : Byte → Bool) (k : ResultKind)
    (h : s.r.ok = false) :
    pollAndClose caller failBit k s = closeBracket failBit k (noteAnswer (writeDisable s)) := by
  rw [pollAndClose, whenOk_failed _ h]

section
variable {disable check : SeqStep} {failBit : Byte → Bool} {k : ResultKind}
  (hdisable : ∀ s, tickAt disable s = afterDisable check k (noteAnswer (writeDisable s)))
  (hcheck : ∀ s, tickAt check s = closeBracket failBit k s)
include hdisable hcheck

theorem paced_disable (s : State) : Paced (s.goto disable) (closeBracket failBit k (noteAnswer (writeDisable s))) := by
  have hnote : noteAnswer (writeDisable (s.goto disable)) = (noteAnswer (writeDisable s)).goto disable :=
    noteAnswer_goto disable (writeDisable s)
  refine .goto ?_
  rw [hdisable, hnote, afterDisable_goto]
  generalize noteAnswer (writeDisable s) = t
  rw [afterDisable]
  split
  · exact .last ((hcheck _).trans (closeBracket_goto ..))
  next hok =>
    rw [closeBracket, if_neg hok]
    exact .done _

/-- The steps after a row command: the poll, the write-disable and the check. -/
theorem paced_pollAndClose {caller : PollCaller}
    (hpoll : ∀ out u, afterPoll caller out u = (notePoll (out, u)).goto disable) (s : State) :
    Paced (bracketNext (.poll caller .first) disable s) (pollAndClose caller failBit k s) := by
  refine paced_bracketNext (finish := fun t => closeBracket failBit k (noteAnswer (writeDisable t)))
    (fun _ => paced_poll ?_) fun _ => paced_disable hdisable hcheck s
  rw [pollOutcome, hpoll]
  exact paced_disable hdisable hcheck _

end

theorem paced_programDisable (s : State) :
    Paced (s.goto .programDisable) (closeBracket pf .programFailed (noteAnswer (writeDisable s))) :=
  paced_disable (fun _ => rfl) (fun _ => rfl) s

theorem paced_programExecute {s : State} {x : Phys} (h : Machine.translate s.r.addr = some x) :
    Paced (s.goto .programExecute) (pollAndClose .pageProgram pf .programFailed
      (noteAnswer (txRow Opcode.programExecute x.rowAddr s))) := by
  have hnote : noteAnswer (txRow Opcode.programExecute x.rowAddr (s.goto .programExecute)) =
      (noteAnswer (txRow Opcode.programExecute x.rowAddr s)).goto .programExecute :=
    noteAnswer_goto .programExecute (txRow Opcode.programExecute x.rowAddr s)
  refine .goto ?_
  rw [tickAt, withPhys_goto_some _ h, hnote, bracketNext_goto]
  exact paced_pollAndClose (disable := .programDisable) (check := .programCheck) (fun _ => rfl) (fun _ => rfl)
    (fun _ _ => rfl) _

theorem paced_programLoad {s : State} {x : Phys} (h : Machine.translate s.r.addr = some x) :
    Paced (s.goto .programLoad) (pollAndClose .pageProgram pf .programFailed
      (whenOk (fun s => noteAnswer (txRow Opcode.programExecute x.rowAddr s)) (programLoadStep x s))) := by
  have hnote : programLoadStep x (s.goto .programLoad) = (programLoadStep x s).goto .programLoad :=
    noteAnswer_goto .programLoad (txColwr (colWord s.cfg x) (Buffer.prefixBytes s.buf s.r.len.toNat) s)
  have haddr : (programLoadStep x s).r.addr = s.r.addr := noteAnswer_addr _
  refine .goto ?_
  rw [tickAt, withPhys_goto_some _ h, hnote, bracketNext_goto]
  refine paced_bracketNext (fun _ => paced_programExecute (by rw [haddr, h])) fun hok => ?_
  rw [pollAndClose_skipped _ _ _ hok]
  exact paced_programDisable _

theorem paced_programEnable {s : State} {x : Phys} (h : Machine.translate s.r.addr = some x) :
    Paced (s.goto .programEnable) (pollAndClose .pageProgram pf .programFailed
      (whenOk (fun s => noteAnswer (txRow Opcode.programExecute x.rowAddr s))
        (whenOk (programLoadStep x) (noteAnswer (writeEnable s))))) := by
  have hnote : noteAnswer (writeEnable (s.goto .programEnable)) = (noteAnswer (writeEnable s)).goto .programEnable :=
    noteAnswer_goto .programEnable (writeEnable s)
  have haddr : (noteAnswer (writeEnable s)).r.addr = s.r.addr := noteAnswer_addr _
  refine .goto ?_
  rw [tickAt, hnote, bracketNext_goto]
  refine paced_bracketNext (finish := fun t => pollAndClose .pageProgram pf .programFailed
    (whenOk (fun s => noteAnswer (txRow Opcode.programExecute x.rowAddr s)) t))
    (fun _ => paced_programLoad (by rw [haddr, h])) fun hok => ?_
  rw [whenOk_failed _ hok, pollAndClose_skipped _ _ _ hok]
  exact paced_programDisable _

theorem paced_pageProgram (s : State) : Paced (s.goto .programGuards) (pageProgramOp s) := by
  refine .goto ?_
  rw [tickAt, goto_r]
  split
  next hlong =>
    rw [pageProgramOp_oversize (by exact hlong), raise_goto]
    exact .done _
  next hlen =>
    rcases h : Machine.translate s.r.addr with _ | x
    · rw [withPhys_goto_none _ h, raise_goto, pageProgramOp, if_neg hlen, h]
      exact .done _
    · rw [withPhys_goto_some _ h, pageProgramOp_pastGuards (Nat.le_of_not_lt hlen) h]
      exact paced_programEnable (s := s.setOk true) h

theorem paced_eraseDisable (s : State) :
    Paced (s.goto .eraseDisable) (closeBracket ef .eraseFailed (noteAnswer (writeDisable s))) :=
  paced_disable (fun _ => rfl) (fun _ => rfl) s

theorem paced_eraseCommand {s : State} {x : Phys} (h : Machine.translate s.r.addr = some x) :
    Paced (s.goto .eraseCommand) (pollAndClose .blockErase ef .eraseFailed
      (noteAnswer (txRow Opcode.blockErase x.rowAddr s))) := by
  have hnote : noteAnswer (txRow Opcode.blockErase x.rowAddr (s.goto .eraseCommand)) =
      (noteAnswer (txRow Opcode.blockErase x.rowAddr s)).goto .eraseCommand :=
    noteAnswer_goto .eraseCommand (txRow Opcode.blockErase x.rowAddr s)
  refine .goto ?_
  rw [tickAt, withPhys_goto_some _ h, hnote, bracketNext_goto]
  exact paced_pollAndClose (disable := .eraseDisable) (check := .eraseCheck) (fun _ => rfl) (fun _ => rfl)
    (fun _ _ => rfl) _

theorem paced_eraseEnable {s : State} {x : Phys} (h : Machine.translate s.r.addr = some x) :
    Paced (s.goto .eraseEnable) (pollAndClose .blockErase ef .eraseFailed
      (whenOk (fun s => noteAnswer (txRow Opcode.blockErase x.rowAddr s)) (noteAnswer (writeEnable s)))) := by
  have hnote : noteAnswer (writeEnable (s.goto .eraseEnable)) = (noteAnswer (writeEnable s)).goto .eraseEnable :=
    noteAnswer_goto .eraseEnable (writeEnable s)
  have haddr : (noteAnswer (writeEnable s)).r.addr = s.r.addr := noteAnswer_addr _
  refine .goto ?_
  rw [tickAt, hnote, bracketNext_goto]
  refine paced_bracketNext (fun _ => paced_eraseCommand (by rw [haddr, h])) fun hok => ?_
  rw [pollAndClose_skipped _ _ _ hok]
  exact paced_eraseDisable _

theorem paced_blockErase (s : State) : Paced (s.goto .eraseGuards) (blockEraseOp s) := by
  refine .goto ?_
  rcases h : Machine.translate s.r.addr with _ | x
  · rw [tickAt, withPhys_goto_none _ h, raise_goto, blockEraseOp, h]
    exact .done _
  · rw [tickAt, withPhys_goto_some _ h, blockEraseOp_pastGuard h]
    exact paced_eraseEnable (s := s.setOk true) h

/-! ### Every host operation -/

/-- The steps of a host operation, run at once. -/
def runOf : HostOp → State → State
  | .init        => initOp
  | .reset       => resetOp
  | .readId      => readIdOp
  | .pageRead    => pageReadOp
  | .pageProgram => pageProgramOp
  | .blockErase  => blockEraseOp
  | .getFeature  => getFeatureOp
  | .setFeature  => setFeatureOp
  | .waitReady   => waitReadyOp
  | .checkBusy   => checkBusyOp

theorem paced_runOf (op : HostOp) (s : State) : Paced (s.goto (firstStep op)) (runOf op s) := by
  cases op with
  | init => exact paced_init s
  | reset => exact paced_resetSteps false s
  | readId => exact .last (readIdOp_goto ..)
  | pageRead => exact paced_pageRead s
  | pageProgram => exact paced_pageProgram s
  | blockErase => exact paced_blockErase s
  | getFeature => exact .last (getFeatureOp_goto ..)
  | setFeature => exact .last (setFeatureOp_goto ..)
  | waitReady => exact paced_waitReady s
  | checkBusy => exact .last (checkBusyOp_goto ..)

/-- An accepted operation, stepped, ends as it does when it is run at once. -/
theorem paced_accept (op : HostOp) (s : State) : Paced (accept op s) (runOf op (accept op s)) :=
  paced_runOf op (accept op s)

/-- A request word is none of the ten operations, and is refused in both forms; or it is one, and the instruction it
decodes to is the request for the operation, whose operands are those latched. -/
theorem decode_host_cases (w : RequestWord) :
    (10 ≤ w.toNat % 16 ∧ ∃ e, decode (.host w) = .error e) ∨
      ∃ i op, decode (.host w) = .ok i ∧ hostOpOf w = some op ∧ isHostOperation i = true ∧
        ∀ s : State, s.seq = .idle → exec i (s.latchWord w) = .next (runOf op (accept op (s.latchWord w))) := by
  have hrun (op : HostOp) (operands : Regs → Regs) (s : State) (h : s.seq = .idle)
      (hop : (s.latchWord w).withRegs operands = s.latchWord w) :
      request op operands (runOf op) (s.latchWord w) = runOf op (accept op (s.latchWord w)) := by
    rw [request_idle _ _ _ (by exact h), hop]
  by_cases hreserved : 10 ≤ w.toNat % 16
  · exact .inl ⟨hreserved, _, decodeHost_reserved hreserved⟩
  right
  have hlt := Nat.lt_of_not_le hreserved
  rw [← opField_toNat] at hlt
  rw [decode, decodeHost, hostOpOf]
  generalize (w.extractLsb' 0 4).toNat = number at hlt ⊢
  interval_cases number
  · exact ⟨_, _, rfl, rfl, rfl, fun s h => congrArg _ (hrun .init _ s h rfl)⟩
  · exact ⟨_, _, rfl, rfl, rfl, fun s h => congrArg _ (hrun .reset _ s h rfl)⟩
  · exact ⟨_, _, rfl, rfl, rfl, fun s h => congrArg _ (hrun .readId _ s h rfl)⟩
  · exact ⟨_, _, rfl, rfl, rfl, fun s h => congrArg _ (hrun .pageRead _ s h rfl)⟩
  · exact ⟨_, _, rfl, rfl, rfl, fun s h => congrArg _ (hrun .pageProgram _ s h rfl)⟩
  · exact ⟨_, _, rfl, rfl, rfl, fun s h => congrArg _ (hrun .blockErase _ s h rfl)⟩
  · exact ⟨_, _, rfl, rfl, rfl, fun s h => congrArg _ (hrun .getFeature _ s h rfl)⟩
  · exact ⟨_, _, rfl, rfl, rfl, fun s h => congrArg _ (hrun .setFeature _ s h rfl)⟩
  · exact ⟨_, _, rfl, rfl, rfl, fun s h => congrArg _ (hrun .waitReady _ s h rfl)⟩
  · exact ⟨_, _, rfl, rfl, rfl, fun s h => congrArg _ (hrun .checkBusy _ s h rfl)⟩

theorem step_presentHost {s : State} (w : RequestWord) (rest : List Input) (hidle : s.seq = .idle) :
    step { s with inputs := .present (.host w) :: rest } = runItem (.host w) { s with inputs := rest } := by
  have hpresent : step { s with inputs := .present (.host w) :: rest } =
      presentItem (.host w) { s with inputs := rest } := step_present rfl
  rw [hpresent, presentItem_of_idle _ (by exact hidle)]

theorem step_start {s : State} {w : RequestWord} {op : HostOp} (rest : List Input) (hidle : s.seq = .idle)
    (hop : hostOpOf w = some op) :
    step { s with inputs := .start w :: rest } =
      .next (accept op (({ s with inputs := rest } : State).latchWord w)) := by
  have hstart : step { s with inputs := .start w :: rest } = startRequest w { s with inputs := rest } := rfl
  rw [hstart, startRequest, isBusy_of_idle (by exact hidle), hop]
  rfl

/-- Settles O50: the accepted operation is the same in both forms, and each of its steps is that of the sequencer. -/
theorem pacedRunIsTheOperation : Obligations.PacedRunIsTheOperation := by
  intro s t w rest hidle hstep
  rw [step_presentHost w rest hidle] at hstep
  obtain ⟨-, e, hdec⟩ | ⟨i, op, hdec, hop, -, hexec⟩ := decode_host_cases w
  · rw [runItem, hdec] at hstep
    cases hstep
  · have hrun := hexec { s with inputs := rest } hidle
    rw [runItem_of_decode hdec] at hstep
    obtain rfl := Host.Outcome.next.inj (hrun.symm.trans hstep)
    obtain ⟨n, hn, hbusy⟩ := (paced_accept op (({ s with inputs := rest } : State).latchWord w)).exists_ticks
    exact ⟨_, n, step_start rest hidle hop, hn, hbusy⟩

end Sys2Proof.Proofs.Sequencer
end

section
/-! What every step of the sequencer keeps: the request latch, `cfg`, the translator's port, the inputs and, until the
operation ends, the responses. An operation run at once keeps the same, as it is a run of the sequencer. -/

namespace Sys2Proof.Proofs.Frame

open Sys2Proof Sys2Proof.Machine Sys2Proof.Machine.Laws Sys2Proof.Claims Sys2Proof.Proofs.Presented
  Sys2Proof.Proofs.Encoding Sys2Proof.Proofs.Ending Sys2Proof.Proofs.Sequencer

/-! ### What is kept -/

/-- The request latch (R23). -/
def latch (r : Regs) : BitVec 4 × LogicalAddress × BitVec 16 × BitVec 2 × Byte × BitVec 16 × BitVec 16 :=
  (r.op, r.addr, r.len, r.reg, r.wval, r.att, r.dly)

/-- `t` has the latch of `s`, its fields that no step writes, and its responses. -/
structure Kept (s t : State) : Prop where
  latch : latch t.r = latch s.r
  cfg : t.cfg = s.cfg
  xaddr : t.xaddr = s.xaddr
  inputs : t.inputs = s.inputs
  responses : t.responses = s.responses

theorem Kept.refl (s : State) : Kept s s := ⟨rfl, rfl, rfl, rfl, rfl⟩

theorem Kept.trans {s t u : State} (h : Kept s t) (h' : Kept t u) : Kept s u :=
  ⟨h'.latch.trans h.latch, h'.cfg.trans h.cfg, h'.xaddr.trans h.xaddr, h'.inputs.trans h.inputs,
    h'.responses.trans h.responses⟩

theorem kept_transport (mk : Answer → Call) (n : Nat) (s : State) : Kept s (transport mk n s).2 :=
  ⟨rfl, rfl, rfl, rfl, rfl⟩

theorem kept_cleanup (s : State) : Kept s (cleanup s) := by
  unfold cleanup
  split
  · exact ⟨rfl, rfl, rfl, rfl, rfl⟩
  · exact .refl s

theorem kept_noteAnswer (x : Answer × State) : Kept x.2 (noteAnswer x) := by
  rcases x with ⟨_ | _, t⟩ <;> exact ⟨rfl, rfl, rfl, rfl, rfl⟩

theorem kept_notePoll (x : PollResult × State) : Kept x.2 (notePoll x) := by
  rcases x with ⟨_ | _ | _, t⟩ <;> exact ⟨rfl, rfl, rfl, rfl, rfl⟩

theorem kept_identitySteps (s : State) : Kept s (identitySteps s).2 := by
  have hcall : Kept s (txId s).2 := kept_transport _ 2 s
  unfold identitySteps
  generalize txId s = x at hcall ⊢
  rcases x with ⟨rx | e, t⟩
  · exact hcall.trans ⟨rfl, rfl, rfl, rfl, rfl⟩
  · exact hcall

theorem kept_setFeature (ra v : Byte) (s : State) : Kept s (setFeature ra v s).2 := by
  have hcall : Kept s (txSetf ra v s).2 := kept_transport _ 0 s
  unfold setFeature
  generalize txSetf ra v s = x at hcall ⊢
  split
  · exact .refl s
  · rcases x with ⟨_ | _, t⟩ <;> exact hcall

/-! ### How a step ends -/

/-- `t` is what a step of the sequencer leaves of `s`: it goes to another step, or the operation ends. -/
inductive Stepped (s : State) : State → Prop
  | goto {u : State} (p : SeqStep) (h : Kept s u) : Stepped s (u.goto p)
  | respond {u : State} (k : ResultKind) (h : Kept s u) : Stepped s (respond k u)

section
variable {s u : State} (h : Kept s u)
include h

theorem stepped_raise (k : ResultKind) : Stepped s (raise k u) :=
  .respond k (h.trans (kept_cleanup u))

theorem stepped_raise_setTerr (k : ResultKind) (e : TransportError) : Stepped s (raise k (u.setTerr e)) :=
  stepped_raise (u := u.setTerr e) (h.trans ⟨rfl, rfl, rfl, rfl, rfl⟩) k

theorem stepped_readFailure (k : ResultKind) : Stepped s (readFailure k u) :=
  stepped_raise (u := spoilBuffer u) (h.trans ⟨rfl, rfl, rfl, rfl, rfl⟩) k

theorem stepped_afterPoll (c : PollCaller) (out : PollResult) : Stepped s (afterPoll c out u) := by
  cases c with
  | init =>
    cases out with
    | ready => exact .goto _ h
    | busy | transportError e => exact stepped_raise h _
  | reset =>
    cases out with
    | ready => exact .respond _ h
    | busy | transportError e => exact stepped_raise h _
  | pageRead =>
    cases out with
    | ready => exact .goto _ h
    | busy | transportError e => exact stepped_readFailure h _
  | pageProgram | blockErase => exact .goto _ (h.trans (kept_notePoll (out, u)))
  | waitReady =>
    cases out with
    | ready => exact .respond _ h
    | busy => exact stepped_raise h _
    | transportError e => exact stepped_raise_setTerr h _ e

theorem stepped_pollTest (c : PollCaller) (a : Answer) : Stepped s (pollTest c (a, u)) := by
  cases a with
  | err e => exact stepped_afterPoll h c (.transportError e)
  | ok rx =>
    have hsample : Kept s (u.sample (byteAt rx 0)) := h.trans ⟨rfl, rfl, rfl, rfl, rfl⟩
    unfold pollTest
    dsimp only
    split
    · split
      · exact .goto _ hsample
      · exact stepped_afterPoll hsample c _
    · exact stepped_afterPoll hsample c _

theorem stepped_bracketNext (next disable : SeqStep) : Stepped s (bracketNext next disable u) := by
  unfold bracketNext
  split
  · exact .goto next h
  · exact .goto disable h

theorem stepped_afterDisable (check : SeqStep) (k : ResultKind) : Stepped s (afterDisable check k u) := by
  unfold afterDisable
  split
  · exact .goto check h
  · exact stepped_raise h k

end

section
variable (s : State)

theorem stepped_withPhys {fail : State → State} {step : Phys → State → State} (hfail : Stepped s (fail s))
    (hstep : ∀ x, Stepped s (step x s)) : Stepped s (withPhys fail step s) := by
  unfold withPhys
  split
  · exact hfail
  · exact hstep _

theorem stepped_readIdOp : Stepped s (readIdOp s) := by
  have hid := kept_identitySteps s
  unfold readIdOp
  generalize identitySteps s = x at hid ⊢
  rcases x with ⟨rx | e, t⟩
  · exact .respond _ hid
  · exact stepped_raise_setTerr hid _ e

theorem stepped_initIdentity : Stepped s (initIdentity s) := by
  have hid := kept_identitySteps s
  unfold initIdentity
  generalize identitySteps s = x at hid ⊢
  rcases x with ⟨rx | e, t⟩
  · dsimp only
    split
    · exact .respond _ hid
    · exact stepped_raise hid _
  · exact stepped_raise hid _

theorem stepped_readCacheStep (x : Phys) : Stepped s (readCacheStep x s) := by
  have hcall : Kept s (txColrd (colWord s.cfg x) s.r.len.toNat s).2 := kept_transport _ _ s
  unfold readCacheStep
  generalize txColrd _ _ s = out at hcall ⊢
  rcases out with ⟨rx | e, t⟩
  · exact .respond _ (hcall.trans ⟨rfl, rfl, rfl, rfl, rfl⟩)
  · exact stepped_readFailure hcall _

theorem stepped_closeBracket (failBit : Byte → Bool) (k : ResultKind) : Stepped s (closeBracket failBit k s) := by
  have hcall : Kept s (getFeature statusAddress s).2 := kept_transport _ 1 s
  unfold closeBracket
  generalize getFeature statusAddress s = x at hcall ⊢
  split
  · rcases x with ⟨rx | e, t⟩
    · have hsample : Kept s (t.sample (byteAt rx 0)) := hcall.trans ⟨rfl, rfl, rfl, rfl, rfl⟩
      dsimp only
      split
      · exact stepped_raise hsample k
      · exact .respond _ hsample
    · exact stepped_raise hcall k
  · exact stepped_raise (.refl s) k

theorem stepped_getFeatureOp : Stepped s (getFeatureOp s) := by
  have hcall : Kept s (getFeature (regAddr s.r.reg) s).2 := kept_transport _ 1 s
  unfold getFeatureOp
  generalize getFeature _ s = x at hcall ⊢
  rcases x with ⟨rx | e, t⟩
  · refine .respond _ (hcall.trans ?_)
    rw [sampleStatus_reg]
    exact ⟨rfl, rfl, rfl, rfl, rfl⟩
  · exact stepped_raise_setTerr hcall _ e

theorem stepped_setFeatureOp : Stepped s (setFeatureOp s) := by
  have hset := kept_setFeature (regAddr s.r.reg) s.r.wval s
  unfold setFeatureOp
  generalize setFeature _ _ s = x at hset ⊢
  rcases x with ⟨_ | _ | e, t⟩
  · exact .respond _ hset
  · exact stepped_raise hset _
  · exact stepped_raise_setTerr hset _ e

theorem stepped_checkBusyOp : Stepped s (checkBusyOp s) := by
  have hcall : Kept s (getFeature statusAddress s).2 := kept_transport _ 1 s
  unfold checkBusyOp
  generalize getFeature _ s = x at hcall ⊢
  rcases x with ⟨rx | e, t⟩
  · exact .respond _ (hcall.trans ⟨rfl, rfl, rfl, rfl, rfl⟩)
  · exact stepped_raise_setTerr hcall _ e

/-- What one step of the sequencer can do. -/
theorem stepped_tickAt (p : SeqStep) : Stepped s (tickAt p s) := by
  have hself := Kept.refl s
  have hnext (next disable : SeqStep) (x : Answer × State) (hx : Kept s x.2) :
      Stepped s (bracketNext next disable (noteAnswer x)) :=
    stepped_bracketNext (hx.trans (kept_noteAnswer x)) next disable
  cases p with
  | initDelay | resetDelay inInit => exact .goto _ (u := delay s.cfg.tPorMs s) ⟨rfl, rfl, rfl, rfl, rfl⟩
  | resetSend inInit =>
    have hsend : Kept s (txCmd Opcode.reset s).2 := kept_transport _ 0 s
    rw [tickAt]
    generalize txCmd Opcode.reset s = x at hsend ⊢
    rcases x with ⟨_ | _, t⟩
    · exact .goto _ hsend
    · exact stepped_raise hsend _
  | poll c at_ =>
    cases at_ with
    | first =>
      exact stepped_pollTest (s := s) (u := (getFeature statusAddress s.clearCnt).2) ⟨rfl, rfl, rfl, rfl, rfl⟩ c _
    | delay => exact .goto _ (u := delay _ s.countAttempt) ⟨rfl, rfl, rfl, rfl, rfl⟩
    | read => exact stepped_pollTest (kept_transport _ 1 s) c _
  | identity inInit =>
    cases inInit with
    | false => exact stepped_readIdOp s
    | true => exact stepped_initIdentity s
  | readGuards =>
    rw [tickAt]
    split
    · exact stepped_readFailure hself _
    · exact stepped_withPhys s (stepped_readFailure hself _) fun _ => .goto _ hself
  | readLoad =>
    rw [tickAt]
    refine stepped_withPhys s (stepped_readFailure hself _) fun x => ?_
    have hsend : Kept s (txRow Opcode.pageRead x.rowAddr s).2 := kept_transport _ 0 s
    generalize txRow _ _ s = out at hsend ⊢
    rcases out with ⟨_ | _, t⟩
    · exact .goto _ hsend
    · exact stepped_readFailure hsend _
  | readCache =>
    rw [tickAt]
    exact stepped_withPhys s (stepped_readFailure hself _) (stepped_readCacheStep s)
  | programGuards =>
    rw [tickAt]
    split
    · exact stepped_raise hself _
    · exact stepped_withPhys s (stepped_raise hself _) fun _ =>
        .goto _ (u := s.setOk true) ⟨rfl, rfl, rfl, rfl, rfl⟩
  | eraseGuards =>
    rw [tickAt]
    exact stepped_withPhys s (stepped_raise hself _) fun _ => .goto _ (u := s.setOk true) ⟨rfl, rfl, rfl, rfl, rfl⟩
  | programEnable | eraseEnable => exact hnext _ _ (writeEnable s) ⟨rfl, rfl, rfl, rfl, rfl⟩
  | programLoad =>
    rw [tickAt]
    exact stepped_withPhys s (stepped_raise hself _) fun x => hnext _ _ (txColwr _ _ s) (kept_transport _ 0 s)
  | programExecute | eraseCommand =>
    rw [tickAt]
    exact stepped_withPhys s (stepped_raise hself _) fun x => hnext _ _ (txRow _ _ s) (kept_transport _ 0 s)
  | programDisable | eraseDisable =>
    have hsend : Kept s (writeDisable s).2 := ⟨rfl, rfl, rfl, rfl, rfl⟩
    exact stepped_afterDisable (hsend.trans (kept_noteAnswer (writeDisable s))) _ _
  | programCheck | eraseCheck => exact stepped_closeBracket s _ _
  | getFeature => exact stepped_getFeatureOp s
  | setFeature => exact stepped_setFeatureOp s
  | checkBusy => exact stepped_checkBusyOp s

end

/-! ### What a step leaves -/

/-- What every step of the sequencer leaves as it was. -/
structure Fixed (s t : State) : Prop where
  latch : latch t.r = latch s.r
  cfg : t.cfg = s.cfg
  xaddr : t.xaddr = s.xaddr
  inputs : t.inputs = s.inputs

theorem Fixed.refl (s : State) : Fixed s s := ⟨rfl, rfl, rfl, rfl⟩

theorem Fixed.trans {s t u : State} (h : Fixed s t) (h' : Fixed t u) : Fixed s u :=
  ⟨h'.latch.trans h.latch, h'.cfg.trans h.cfg, h'.xaddr.trans h.xaddr, h'.inputs.trans h.inputs⟩

theorem Stepped.fixed {s t : State} (h : Stepped s t) : Fixed s t := by
  cases h with
  | goto p h => exact ⟨h.latch, h.cfg, h.xaddr, h.inputs⟩
  | respond k h => exact ⟨h.latch, h.cfg, h.xaddr, h.inputs⟩

theorem fixed_tick (s : State) : Fixed s (tick s) := by
  cases hseq : s.seq with
  | idle => rw [tick, hseq]; exact .refl s
  | run p => rw [tick_of_run hseq]; exact (stepped_tickAt s p).fixed

/-- A run of the sequencer that begins in an operation and comes to `IDLE` ends that operation alone. -/
theorem ended_of_paced {s t : State} (h : Paced s t) (hbusy : s.seq ≠ .idle) (hidle : t.seq = .idle) :
    Fixed s t ∧ t.responses = s.responses ++ [t.r.response] := by
  induction h with
  | done s => exact absurd hidle hbusy
  | @step s t p hseq hrest ih =>
    have hstep := stepped_tickAt s p
    generalize tickAt p s = u at hrest ih hstep
    have hfixed := hstep.fixed
    cases hstep with
    | goto q hkept =>
      obtain ⟨hrun, hresp⟩ := ih nofun hidle
      exact ⟨hfixed.trans hrun, hresp.trans (congrArg (· ++ _) hkept.responses)⟩
    | respond k hkept =>
      cases hrest with
      | done => exact ⟨hfixed, congrArg (· ++ _) hkept.responses⟩
      | step hrun => cases hrun

/-! ### The operations end in `IDLE` -/

theorem idle_of_stepsLeft {s : State} (h : stepsLeft s = 0) : s.seq = .idle := ticks_ends (n := 0) h.le

theorem raise_idle (k : ResultKind) (s : State) : (raise k s).seq = .idle := (raise_spec k s).1

theorem resetEnd_idle (inInit : Bool) (x : ResultKind × State) : (resetEnd inInit x).seq = .idle := by
  unfold resetEnd
  split
  · split
    · exact idle_of_stepsLeft (stepsLeft_initIdentity _)
    · rfl
  · exact raise_idle _ _

theorem pageReadOp_idle (s : State) : (pageReadOp s).seq = .idle := by
  unfold pageReadOp
  split
  · exact raise_idle _ _
  · split
    · exact raise_idle _ _
    · split
      · exact raise_idle _ _
      · split
        · exact idle_of_stepsLeft (stepsLeft_readCacheStep _ _)
        · exact raise_idle _ _
        · exact raise_idle _ _

theorem pageProgramOp_idle (s : State) : (pageProgramOp s).seq = .idle := by
  unfold pageProgramOp
  split
  · exact raise_idle _ _
  · split
    · exact raise_idle _ _
    · exact idle_of_stepsLeft (stepsLeft_closeBracket _ _ _)

theorem blockEraseOp_idle (s : State) : (blockEraseOp s).seq = .idle := by
  unfold blockEraseOp
  split
  · exact raise_idle _ _
  · exact idle_of_stepsLeft (stepsLeft_closeBracket _ _ _)

theorem waitReadyOp_idle (s : State) : (waitReadyOp s).seq = .idle := by
  unfold waitReadyOp
  split
  · rfl
  · exact raise_idle _ _
  · exact raise_idle _ _

theorem runOf_idle (op : HostOp) (s : State) : (runOf op s).seq = .idle := by
  cases op with
  | init => exact resetEnd_idle true _
  | reset => exact resetEnd_idle false _
  | readId => exact idle_of_stepsLeft (stepsLeft_readIdOp s)
  | pageRead => exact pageReadOp_idle s
  | pageProgram => exact pageProgramOp_idle s
  | blockErase => exact blockEraseOp_idle s
  | getFeature => exact idle_of_stepsLeft (stepsLeft_getFeatureOp s)
  | setFeature => exact idle_of_stepsLeft (stepsLeft_setFeatureOp s)
  | waitReady => exact waitReadyOp_idle s
  | checkBusy => exact idle_of_stepsLeft (stepsLeft_checkBusyOp s)

/-- An accepted operation ends with its latch as accepted, and with one response. -/
theorem runOf_accept (op : HostOp) (s : State) :
    Fixed (accept op s) (runOf op (accept op s)) ∧
      (runOf op (accept op s)).responses = s.responses ++ [(runOf op (accept op s)).r.response] :=
  ended_of_paced (paced_accept op s) nofun (runOf_idle op _)

/-! ### Every host operation -/

/-- A host operation is the request for it. -/
theorem exec_host {i : Instr} (h : isHostOperation i = true) :
    ∃ op operands, ∀ s, exec i s = .next (request op operands (runOf op) s) := by
  cases i with
  | init => exact ⟨.init, id, fun _ => rfl⟩
  | reset => exact ⟨.reset, id, fun _ => rfl⟩
  | readId => exact ⟨.readId, id, fun _ => rfl⟩
  | pageRead addr len => exact ⟨.pageRead, _, fun _ => rfl⟩
  | pageProgram addr len => exact ⟨.pageProgram, _, fun _ => rfl⟩
  | blockErase addr => exact ⟨.blockErase, _, fun _ => rfl⟩
  | getFeature reg => exact ⟨.getFeature, _, fun _ => rfl⟩
  | setFeature reg wval => exact ⟨.setFeature, _, fun _ => rfl⟩
  | waitReady att dly => exact ⟨.waitReady, _, fun _ => rfl⟩
  | checkBusy => exact ⟨.checkBusy, id, fun _ => rfl⟩
  | _ => cases h

/-- Settles O36: a run of the sequencer from the accepted request ends with one response; while busy nothing is
accepted. -/
theorem oneResponsePerRequest : Obligations.OneResponsePerRequest := by
  intro s i hhost
  obtain ⟨op, operands, hexec⟩ := exec_host hhost
  constructor
  · intro hidle
    refine ⟨_, hexec s, ?_⟩
    rw [request_idle op operands _ hidle]
    exact ⟨runOf_idle op _, _, (runOf_accept op (s.withRegs operands)).2⟩
  · intro hbusy
    rw [hexec, request_busy op operands _ hbusy]

/-- No instruction writes `cfg` or what will be presented. -/
theorem exec_keeps {i : Instr} {s t : State} (h : exec i s = .next t) : t.cfg = s.cfg ∧ t.inputs = s.inputs := by
  by_cases hhost : isHostOperation i = true
  · obtain ⟨op, operands, hexec⟩ := exec_host hhost
    obtain rfl := Host.Outcome.next.inj ((hexec s).symm.trans h)
    by_cases hidle : s.seq = .idle
    · rw [request_idle op operands _ hidle]
      obtain ⟨hfixed, -⟩ := runOf_accept op (s.withRegs operands)
      exact ⟨hfixed.cfg, hfixed.inputs⟩
    · rw [request_busy op operands _ hidle]
      exact ⟨rfl, rfl⟩
  · cases i with
    | setFeatures ra v =>
      cases h
      exact ⟨(kept_setFeature ra v s).cfg, (kept_setFeature ra v s).inputs⟩
    | translate | programLoad | readCache | writeDisable | writeEnable | getFeatures | programExecute | pageReadCmd
    | readIdCmd | blockEraseCmd | resetCmd => cases h; exact ⟨rfl, rfl⟩
    | _ => exact absurd rfl hhost

theorem runItem_keeps {x : Item} {s t : State} (h : runItem x s = .next t) :
    t.cfg = s.cfg ∧ t.inputs = s.inputs := by
  have hlatch : (s.latchItem x).cfg = s.cfg ∧ (s.latchItem x).inputs = s.inputs := by cases x <;> exact ⟨rfl, rfl⟩
  unfold runItem at h
  split at h
  · obtain ⟨hcfg, hinputs⟩ := exec_keeps h
    exact ⟨hcfg.trans hlatch.1, hinputs.trans hlatch.2⟩
  · cases h

/-! ### Every step -/

/-- The busy indication is that `seq` is not `IDLE` (R29). -/
theorem isBusy_cases (s : State) : (s.seq = .idle ∧ s.isBusy = false) ∨ (s.seq ≠ .idle ∧ s.isBusy = true) := by
  unfold State.isBusy
  cases s.seq with
  | idle => exact .inl ⟨rfl, rfl⟩
  | run p => exact .inr ⟨nofun, rfl⟩

/-- A presented item is run, a request or a wire transaction in `IDLE` only, or the running operation takes its step
(R29). -/
theorem presentItem_cases (x : Item) (s : State) :
    ((s.seq = .idle ∨ ∃ a, x = .address a) ∧ presentItem x s = runItem x s) ∨
      presentItem x s = .next (tick s) := by
  obtain ⟨hidle, -⟩ | ⟨-, hbusy⟩ := isBusy_cases s
  · exact .inl ⟨.inl hidle, presentItem_of_idle x hidle⟩
  · cases x with
    | address a => exact .inl ⟨.inr ⟨a, rfl⟩, rfl⟩
    | host w | wire tx rx => exact .inr (if_pos hbusy)

/-- A request to be stepped is accepted in `IDLE`, or refused, or the running operation takes its step (R29). -/
theorem startRequest_cases (w : RequestWord) (s : State) :
    (∃ op, s.seq = .idle ∧ startRequest w s = .next (accept op (s.latchWord w))) ∨
      startRequest w s = .refused .reservedOperation ∨ startRequest w s = .next (tick s) := by
  obtain ⟨hidle, hfree⟩ | ⟨-, hbusy⟩ := isBusy_cases s
  · rw [startRequest, hfree]
    cases hop : hostOpOf w with
    | none => exact .inr (.inl rfl)
    | some op => exact .inl ⟨op, hidle, rfl⟩
  · exact .inr (.inr (if_pos hbusy))

/-- A store that does not fault changes the buffer alone. -/
theorem hostStore_next {j : Nat} {b : Byte} {s t : State} (h : hostStore j b s = .next t) :
    j < Config.pageSize ∧ t = { s with buf := Buffer.write s.buf j b } := by
  unfold hostStore at h
  split at h
  · cases h
  next hj =>
    split at h
    · cases h
    · cases h
      exact ⟨Nat.lt_of_not_le hj, rfl⟩

theorem takeInput_keeps {x : Input} {s t : State} (h : takeInput x s = .next t) :
    t.cfg = s.cfg ∧ t.inputs = s.inputs := by
  have htick : (tick s).cfg = s.cfg ∧ (tick s).inputs = s.inputs := ⟨(fixed_tick s).cfg, (fixed_tick s).inputs⟩
  cases x with
  | present x =>
    obtain ⟨-, hrun⟩ | hrun := presentItem_cases x s
    · exact runItem_keeps (hrun.symm.trans h)
    · cases hrun.symm.trans h
      exact htick
  | start w =>
    obtain ⟨op, -, hrun⟩ | hrun | hrun := startRequest_cases w s <;> cases hrun.symm.trans h
    · exact ⟨rfl, rfl⟩
    · exact htick
  | quiet => cases h; exact htick
  | hardReset => cases h; exact ⟨rfl, rfl⟩
  | hostStore j b =>
    obtain ⟨-, rfl⟩ := hostStore_next h
    exact ⟨rfl, rfl⟩

/-- Settles O46: neither a step of the sequencer nor an instruction writes `cfg`. -/
theorem configurationConstant : Obligations.ConfigurationConstant := by
  intro s t h
  unfold step stepInputs at h
  split at h
  · cases h
    exact (fixed_tick s).cfg
  next x rest _ => exact (takeInput_keeps (s := { s with inputs := rest }) h).1

/-- The operation number of the operation a word names. -/
theorem code_of_hostOpOf {w : RequestWord} {op : HostOp} (h : hostOpOf w = some op) :
    op.code.toNat = w.toNat % 16 := by
  rw [← opField_toNat]
  unfold hostOpOf at h
  split at h <;> rename_i hnumber
  case h_11 => cases h
  all_goals
    cases h
    rw [hnumber]
    rfl

/-- Settles O41: the accepted request stands in the latch, and no step of its operation writes the latch. -/
theorem latchHoldsTheRequest : Obligations.LatchHoldsTheRequest := by
  intro s w rest hidle hin hop
  obtain ⟨hreserved, e, -⟩ | ⟨i, op, hdec, hopOf, -, hexec⟩ := decode_host_cases w
  · omega
  · have hstep : step s = .next (runOf op (accept op (({ s with inputs := rest } : State).latchWord w))) := by
      rw [step_eq_exec (.inl hidle) hin hdec]
      exact hexec _ hidle
    refine ⟨_, hstep, ?_⟩
    obtain ⟨⟨hlatch, -, -, hinputs⟩, -⟩ := runOf_accept op (({ s with inputs := rest } : State).latchWord w)
    generalize runOf op (accept op (({ s with inputs := rest } : State).latchWord w)) = t at hlatch hinputs ⊢
    rw [latchWord_eq_quotients] at hlatch
    simp only [latch, accept_r, withRegs_r, Prod.mk.injEq] at hlatch
    obtain ⟨hcode, haddr, hlen, hreg, hwval, hatt, hdly⟩ := hlatch
    have hw := w.isLt
    rw [hcode, haddr, hlen, hreg, hwval, hatt, hdly, code_of_hostOpOf hopOf]
    exact ⟨hinputs, rfl, rfl, rfl, rfl, rfl, rfl, Nat.mod_eq_of_lt (by omega)⟩

end Sys2Proof.Proofs.Frame
end

section
/-! What a step does with each input: nothing presented, a request while the controller is busy, a hardware reset, the
host's store to its buffer; and the state after reset. -/

namespace Sys2Proof.Proofs.Inputs

open Sys2Proof Sys2Proof.Machine Sys2Proof.Machine.Laws Sys2Proof.Claims Sys2Proof.Proofs.Frame

/-- The step takes the first input, if there is one. -/
theorem step_cons (s : State) (x : Input) (rest : List Input) :
    step { s with inputs := x :: rest } = takeInput x { s with inputs := rest } := rfl

/-- Settles O40: the step is the sequencer's, which does nothing in `IDLE`. -/
theorem quietStep : Obligations.QuietStep := by
  intro s rest
  refine ⟨fun h => ?_, fun h => ?_, fun h => ?_⟩
  · rw [step, stepInputs, h]
  · rw [step, stepInputs, h]
    rfl
  · rw [tick, h]

/-- Settles O43: every form is turned away by the same test, and the step is that of the running operation. -/
theorem busyRequestIgnored : Obligations.BusyRequestIgnored := by
  intro s w rest hrun
  obtain ⟨hidle, -⟩ | ⟨-, hbusy⟩ := isBusy_cases { s with inputs := rest }
  · exact absurd hidle hrun
  simp only [step_cons]
  exact ⟨if_pos hbusy, if_pos hbusy, fun _ _ => if_pos hbusy⟩

/-- Settles O44: the laws of `hardReset`, field by field. -/
theorem hardwareReset : Obligations.HardwareReset := fun s rest =>
  ⟨hardReset { s with inputs := rest }, rfl, hardReset_seq _, rfl, hardReset_trace _, hardReset_responses _,
    hardReset_cfg _, hardReset_buf _, hardReset_xaddr _, hardReset_script _, hardReset_inputs _⟩

/-! ### The host's store -/

/-- The bytes in use are those of a running `PAGE_READ` or `PAGE_PROGRAM` (R245). -/
theorem bufferInUse_iff (s : State) (j : Nat) :
    bufferInUse s j = true ↔
      ∃ st, s.seq = .run st ∧ (st.op = .pageRead ∨ st.op = .pageProgram) ∧ j < s.r.len.toNat := by
  unfold bufferInUse
  cases s.seq with
  | idle => simp
  | run st => cases hop : st.op <;> simp [hop]

theorem hostStore_inside {j : Nat} (b : Byte) (s : State) (h : j < 2176) :
    hostStore j b s =
      if bufferInUse s j then .fault .bufferRace else .next { s with buf := Buffer.write s.buf j b } :=
  if_neg (Nat.not_le.2 h)

/-- Settles O45: the two tests come before the store, and the store is the buffer's. -/
theorem hostStores : Obligations.HostStores := by
  intro s j b rest hwf
  have huse := bufferInUse_iff { s with inputs := rest } j
  have hstep : step { s with inputs := .hostStore j b :: rest } = hostStore j b { s with inputs := rest } := rfl
  rw [hstep]
  refine ⟨fun hj => if_pos hj, fun hj hused => ?_, fun hj hfree => ?_⟩
  · rw [hostStore_inside b _ hj, if_pos (huse.2 hused)]
  · rw [hostStore_inside b _ hj, if_neg fun h => hfree (huse.1 h)]
    exact ⟨_, rfl, wf_write b hwf hj, rfl, fun n => read_write j n b hwf⟩

/-! ### The state after reset -/

/-- Settles O47: the fields of the reset state, and a step of the sequencer in `IDLE`. -/
theorem stateAfterReset : Obligations.StateAfterReset := ⟨rfl, rfl, rfl, rfl, rfl, rfl, rfl⟩

/-- Settles O48: the buffer lists nothing, the sequencer is in `IDLE` with nothing owed, and nothing is presented. -/
theorem resetMeetsInvariant : Obligations.ResetMeetsInvariant := ⟨rfl, rfl, rfl⟩

end Sys2Proof.Proofs.Inputs
end

section
/-! The invariant `Safety.Inv`: every step of the sequencer leaves the buffer in canonical form and the registers as the
next step needs them, and so does an operation run at once, as it is a run of the sequencer. -/

namespace Sys2Proof.Proofs.Invariant

open Sys2Proof Sys2Proof.Machine Sys2Proof.Machine.Safety Sys2Proof.Machine.Laws Sys2Proof.Claims
  Sys2Proof.Proofs.Presented Sys2Proof.Proofs.Bracket Sys2Proof.Proofs.Sequencer Sys2Proof.Proofs.Frame
  Sys2Proof.Proofs.Inputs

/-! ### The invariant at a step and at the end of an operation -/

/-- The registers are as the step `p` needs them. -/
structure At (p : SeqStep) (s : State) : Prop where
  op : s.r.op = p.op.code
  owed : s.r.wdOwed = owedAt p
  ok : okNeededAt p = true → s.r.ok = true
  guards : guardsPassed p s.r = true
  count : countInBound p s = true

theorem seqOk_goto {s : State} {p : SeqStep} (h : At p s) : seqOk (s.goto p) = true := by
  obtain ⟨hop, howed, hok, hguards, hcount⟩ := h
  have hneeded : (!okNeededAt p || s.r.ok) = true := by
    cases hn : okNeededAt p with
    | false => rfl
    | true => exact hok hn
  have hcount' : countInBound p (s.goto p) = true := hcount
  simp only [seqOk, goto_seq, goto_r, hop, howed, hneeded, hguards, hcount', beq_self_eq_true, Bool.and_self]

theorem at_of_seqOk {s : State} {p : SeqStep} (hseq : s.seq = .run p) (h : seqOk s = true) : At p s := by
  simp only [seqOk, hseq, Bool.and_eq_true, beq_iff_eq, Bool.or_eq_true, Bool.not_eq_true'] at h
  obtain ⟨⟨⟨⟨hop, howed⟩, hok⟩, hguards⟩, hcount⟩ := h
  exact ⟨hop, howed, fun hn => hok.resolve_left (by simp [hn]), hguards, hcount⟩

/-- The buffer is canonical, and the sequencer and its registers agree. -/
structure Good (s : State) : Prop where
  buf : Buffer.wf s.buf = true
  seq : seqOk s = true

/-- The buffer is canonical and nothing is owed: an operation can end here. -/
structure Settled (s : State) : Prop where
  buf : Buffer.wf s.buf = true
  owed : s.r.wdOwed = false

theorem Good.goto {s : State} {p : SeqStep} (hbuf : Buffer.wf s.buf = true) (h : At p s) : Good (s.goto p) :=
  ⟨hbuf, seqOk_goto h⟩

theorem Settled.respond {s : State} (h : Settled s) (k : ResultKind) : Good (respond k s) :=
  ⟨h.buf, congrArg (! ·) h.owed⟩

theorem good_raise {s : State} (k : ResultKind) (h : Buffer.wf s.buf = true) : Good (raise k s) := by
  obtain ⟨hidle, howed, -, -, -, hbuf, -⟩ := raise_spec k s
  exact ⟨by rw [hbuf, h], by rw [seqOk, hidle, howed]; rfl⟩

theorem good_readFailure {s : State} (k : ResultKind) (h : Buffer.wf s.buf = true) : Good (readFailure k s) :=
  good_raise k (wf_spoilBuffer h)

/-! ### The last steps of the operations -/

section
variable {s : State} (h : Settled s)
include h

theorem settled_identitySteps : Settled (identitySteps s).2 := by
  have hcall : Settled (txId s).2 := ⟨h.buf, h.owed⟩
  unfold identitySteps
  generalize txId s = x at hcall ⊢
  rcases x with ⟨_ | _, t⟩ <;> exact ⟨hcall.buf, hcall.owed⟩

theorem good_readIdOp : Good (readIdOp s) := by
  have hid := settled_identitySteps h
  unfold readIdOp
  generalize identitySteps s = x at hid ⊢
  rcases x with ⟨rx | e, t⟩
  · exact hid.respond _
  · exact good_raise _ hid.buf

theorem good_initIdentity : Good (initIdentity s) := by
  have hid := settled_identitySteps h
  unfold initIdentity
  generalize identitySteps s = x at hid ⊢
  rcases x with ⟨rx | e, t⟩
  · dsimp only
    split
    · exact hid.respond _
    · exact good_raise _ hid.buf
  · exact good_raise _ hid.buf

theorem good_readCacheStep (x : Phys) (hlen : s.r.len.toNat ≤ Config.pageSize) : Good (readCacheStep x s) := by
  obtain ⟨e, hcall⟩ | ⟨rx, hrx, hcall⟩ :=
    sendReceive_cases (Opcode.readCache :: (colBytes (colWord s.cfg x) ++ [s.cfg.dummy])) s.r.len.toNat s
  · rw [readCacheStep, txColrd, hcall]
    exact good_readFailure _ h.buf
  · rw [readCacheStep, txColrd, hcall]
    have hstore : Buffer.wf (Buffer.storePrefix s.buf rx) = true := wf_storePrefix rx h.buf (by omega)
    exact ⟨hstore, congrArg (! ·) h.owed⟩

theorem good_closeBracket (failBit : Byte → Bool) (k : ResultKind) : Good (closeBracket failBit k s) := by
  obtain ⟨-, hend⟩ | ⟨e, -, hend⟩ | ⟨b, -, hend⟩ := closeBracket_cases failBit k h.owed <;> rw [hend]
  · exact h.respond k
  · refine Settled.respond ?_ k
    exact ⟨h.buf, h.owed⟩
  · refine Settled.respond ?_ _
    exact ⟨h.buf, h.owed⟩

theorem good_getFeatureOp : Good (getFeatureOp s) := by
  have hcall : Settled (getFeature (regAddr s.r.reg) s).2 := ⟨h.buf, h.owed⟩
  unfold getFeatureOp
  generalize getFeature _ s = x at hcall ⊢
  rcases x with ⟨rx | e, t⟩
  · refine Settled.respond ?_ _
    rw [sampleStatus_reg]
    exact ⟨hcall.buf, hcall.owed⟩
  · exact good_raise _ hcall.buf

theorem settled_setFeature (ra v : Byte) : Settled (setFeature ra v s).2 := by
  have hcall : Settled (txSetf ra v s).2 := ⟨h.buf, h.owed⟩
  unfold setFeature
  generalize txSetf ra v s = x at hcall ⊢
  split
  · exact h
  · rcases x with ⟨_ | _, t⟩ <;> exact hcall

theorem good_setFeatureOp : Good (setFeatureOp s) := by
  have hset := settled_setFeature h (regAddr s.r.reg) s.r.wval
  unfold setFeatureOp
  generalize setFeature _ _ s = x at hset ⊢
  rcases x with ⟨_ | _ | e, t⟩
  · exact hset.respond _
  · exact good_raise _ hset.buf
  · exact good_raise _ hset.buf

theorem good_checkBusyOp : Good (checkBusyOp s) := by
  have hcall : Settled (getFeature statusAddress s).2 := ⟨h.buf, h.owed⟩
  unfold checkBusyOp
  generalize getFeature _ s = x at hcall ⊢
  rcases x with ⟨rx | e, t⟩
  · refine Settled.respond ?_ _
    exact ⟨hcall.buf, hcall.owed⟩
  · exact good_raise _ hcall.buf

end

/-! ### The poll -/

/-- The steps of a poll need the same but for the counter. -/
theorem At.pollFirst {s : State} {c : PollCaller} {at_ : PollStep} (h : At (.poll c at_) s) :
    At (.poll c .first) s := by
  cases c <;> exact ⟨h.op, h.owed, h.ok, h.guards, rfl⟩

theorem At.pollAt {s : State} {c : PollCaller} {at_ : PollStep} (h : At (.poll c .first) s)
    (hcount : countInBound (.poll c at_) s = true) : At (.poll c at_) s := by
  cases c <;> exact ⟨h.op, h.owed, h.ok, h.guards, hcount⟩

section
variable {s : State} {c : PollCaller} (hbuf : Buffer.wf s.buf = true) (h : At (.poll c .first) s)
include hbuf h

theorem good_afterPoll (out : PollResult) : Good (afterPoll c out s) := by
  cases c with
  | init =>
    cases out with
    | ready => exact .goto hbuf ⟨h.op, h.owed, nofun, rfl, rfl⟩
    | busy | transportError e => exact good_raise _ hbuf
  | reset =>
    cases out with
    | ready => exact Settled.respond ⟨hbuf, h.owed⟩ _
    | busy | transportError e => exact good_raise _ hbuf
  | pageRead =>
    cases out with
    | ready => exact .goto hbuf ⟨h.op, h.owed, nofun, h.guards, rfl⟩
    | busy | transportError e => exact good_readFailure _ hbuf
  | pageProgram | blockErase => cases out <;> exact .goto hbuf ⟨h.op, h.owed, nofun, h.guards, rfl⟩
  | waitReady =>
    cases out with
    | ready => exact Settled.respond ⟨hbuf, h.owed⟩ _
    | busy | transportError e => exact good_raise _ hbuf

theorem good_pollTest (a : Answer) : Good (pollTest c (a, s)) := by
  cases a with
  | err e => exact good_afterPoll hbuf h (.transportError e)
  | ok rx =>
    have hsample : At (.poll c .first) (s.sample (byteAt rx 0)) := ⟨h.op, h.owed, h.ok, h.guards, rfl⟩
    simp only [pollTest]
    split
    · split
      next hmore => exact .goto hbuf (hsample.pollAt (decide_eq_true hmore))
      · exact good_afterPoll (s := s.sample (byteAt rx 0)) hbuf hsample .busy
    · exact good_afterPoll (s := s.sample (byteAt rx 0)) hbuf hsample .ready

end

/-! ### The guards and the bracket -/

theorem good_withPhys {s : State} {fail : State → State} {step : Phys → State → State} (hfail : Good (fail s))
    (hstep : ∀ x, inRange s.r.addr = true → Good (step x s)) : Good (withPhys fail step s) := by
  unfold withPhys
  split
  · exact hfail
  next x hx =>
    refine hstep x ?_
    by_contra hout
    rw [Machine.translate, if_neg hout] at hx
    cases hx

theorem noteAnswer_r (x : Answer × State) : (noteAnswer x).r = { x.2.r with ok := x.2.r.ok && carried x.1 } := by
  obtain ⟨_ | _, t⟩ := x
  · exact congrArg (fun b => { t.r with ok := b }) (Bool.and_true _).symm
  · exact congrArg (fun b => { t.r with ok := b }) (Bool.and_false _).symm

theorem noteAnswer_buf (x : Answer × State) : (noteAnswer x).buf = x.2.buf := by
  obtain ⟨_ | _, t⟩ := x <;> rfl

/-- After a step of the bracket: the next step if none failed, else the write-disable (R183). -/
theorem good_bracketNext {x : Answer × State} {next disable : SeqStep} (hbuf : Buffer.wf x.2.buf = true)
    (hnext : At next x.2) (hdisable : At disable x.2) (hskip : okNeededAt disable = false) :
    Good (bracketNext next disable (noteAnswer x)) := by
  obtain ⟨rx | e, t⟩ := x
  · change Good (if t.r.ok then _ else _)
    split
    · exact .goto hbuf hnext
    · exact .goto hbuf hdisable
  · exact .goto (s := t.setOk false) hbuf
      ⟨hdisable.op, hdisable.owed, fun hneeded => absurd (hskip.symm.trans hneeded) nofun, hdisable.guards,
        hdisable.count⟩

theorem good_afterDisable {s : State} {check : SeqStep} (k : ResultKind) (hbuf : Buffer.wf s.buf = true)
    (hcheck : s.r.ok = true → At check s) : Good (afterDisable check k s) := by
  unfold afterDisable
  split
  next hok => exact .goto hbuf (hcheck hok)
  · exact good_raise k hbuf

/-! ### One step of the sequencer -/

theorem good_tickAt {s : State} {p : SeqStep} (hbuf : Buffer.wf s.buf = true) (h : At p s) : Good (tickAt p s) := by
  cases p with
  | initDelay => exact .goto hbuf ⟨h.op, h.owed, nofun, rfl, rfl⟩
  | resetSend inInit =>
    obtain ⟨e, hsend⟩ | hsend := send_cases [Opcode.reset] s <;> rw [tickAt, txCmd, hsend]
    · exact good_raise _ hbuf
    · exact .goto hbuf ⟨h.op, h.owed, nofun, rfl, rfl⟩
  | resetDelay inInit => cases inInit <;> exact .goto hbuf ⟨h.op, h.owed, nofun, rfl, rfl⟩
  | poll c at_ =>
    have hfirst := h.pollFirst
    cases at_ with
    | first =>
      exact good_pollTest (s := (getFeature statusAddress s.clearCnt).2) hbuf
        ⟨hfirst.op, hfirst.owed, hfirst.ok, hfirst.guards, rfl⟩ _
    | delay =>
      refine .goto hbuf (At.pollAt ⟨hfirst.op, hfirst.owed, hfirst.ok, hfirst.guards, rfl⟩ ?_)
      have hcount : s.r.cnt < (s.pollCfg c).maxAttempts := of_decide_eq_true h.count
      exact decide_eq_true ⟨Nat.succ_pos _, hcount⟩
    | read =>
      exact good_pollTest (s := (getFeature statusAddress s).2) hbuf
        ⟨hfirst.op, hfirst.owed, hfirst.ok, hfirst.guards, rfl⟩ _
  | identity inInit =>
    cases inInit with
    | false => exact good_readIdOp ⟨hbuf, h.owed⟩
    | true => exact good_initIdentity ⟨hbuf, h.owed⟩
  | readGuards =>
    rw [tickAt]
    split
    · exact good_readFailure _ hbuf
    next hlen =>
      refine good_withPhys (good_readFailure _ hbuf) fun _ hin => .goto hbuf ⟨h.op, h.owed, nofun, ?_, rfl⟩
      exact Bool.and_eq_true_iff.2 ⟨decide_eq_true (Nat.le_of_not_lt hlen), hin⟩
  | readLoad =>
    rw [tickAt]
    refine good_withPhys (good_readFailure _ hbuf) fun x _ => ?_
    obtain ⟨e, hsend⟩ | hsend := send_cases (Opcode.pageRead :: rowBytes x.rowAddr) s <;> rw [txRow, hsend]
    · exact good_readFailure _ hbuf
    · exact .goto hbuf ⟨h.op, h.owed, nofun, h.guards, rfl⟩
  | readCache =>
    have hlen : s.r.len.toNat ≤ Config.pageSize := of_decide_eq_true (Bool.and_eq_true_iff.1 h.guards).1
    rw [tickAt]
    exact good_withPhys (good_readFailure _ hbuf) fun x _ => good_readCacheStep ⟨hbuf, h.owed⟩ x hlen
  | programGuards =>
    rw [tickAt]
    split
    · exact good_raise _ hbuf
    next hlen =>
      refine good_withPhys (good_raise _ hbuf) fun _ hin =>
        .goto (s := s.setOk true) hbuf ⟨h.op, h.owed, fun _ => rfl, ?_, rfl⟩
      exact Bool.and_eq_true_iff.2 ⟨decide_eq_true (Nat.le_of_not_lt hlen), hin⟩
  | programEnable | eraseEnable =>
    exact good_bracketNext (x := writeEnable s) hbuf ⟨h.op, rfl, h.ok, h.guards, rfl⟩
      ⟨h.op, rfl, nofun, h.guards, rfl⟩ rfl
  | programLoad =>
    rw [tickAt]
    exact good_withPhys (good_raise _ hbuf) fun x _ => good_bracketNext (x := txColwr _ _ s) hbuf
      ⟨h.op, h.owed, h.ok, h.guards, rfl⟩ ⟨h.op, h.owed, nofun, h.guards, rfl⟩ rfl
  | programExecute | eraseCommand =>
    rw [tickAt]
    exact good_withPhys (good_raise _ hbuf) fun x _ => good_bracketNext (x := txRow _ _ s) hbuf
      ⟨h.op, h.owed, h.ok, h.guards, rfl⟩ ⟨h.op, h.owed, nofun, h.guards, rfl⟩ rfl
  | programDisable | eraseDisable =>
    have hbuf' : Buffer.wf (noteAnswer (writeDisable s)).buf = true := by rwa [noteAnswer_buf]
    refine good_afterDisable _ hbuf' fun hok => ⟨?_, ?_, fun _ => hok, ?_, rfl⟩ <;> rw [noteAnswer_r]
    · exact h.op
    · rfl
    · exact h.guards
  | programCheck | eraseCheck => exact good_closeBracket ⟨hbuf, h.owed⟩ _ _
  | eraseGuards =>
    rw [tickAt]
    exact good_withPhys (good_raise _ hbuf) fun _ hin =>
      .goto (s := s.setOk true) hbuf ⟨h.op, h.owed, fun _ => rfl, hin, rfl⟩
  | getFeature => exact good_getFeatureOp ⟨hbuf, h.owed⟩
  | setFeature => exact good_setFeatureOp ⟨hbuf, h.owed⟩
  | checkBusy => exact good_checkBusyOp ⟨hbuf, h.owed⟩

theorem good_tick {s : State} (h : Good s) : Good (tick s) := by
  cases hseq : s.seq with
  | idle => rwa [tick, hseq]
  | run p =>
    rw [tick_of_run hseq]
    exact good_tickAt h.buf (at_of_seqOk hseq h.seq)

theorem good_paced {s t : State} (hrun : Paced s t) (h : Good s) : Good t := by
  induction hrun with
  | done s => exact h
  | step hseq _ ih =>
    rw [← tick_of_run hseq] at ih
    exact ih (good_tick h)

/-! ### Every input -/

/-- An accepted request stands at its first step, which has no guard behind it and nothing owed. -/
theorem good_accept {s : State} (op : HostOp) (h : Settled s) : Good (accept op s) := by
  refine Good.goto (s := { s with r := { s.r with op := op.code }, trace := [] }) h.buf ?_
  cases op <;> exact ⟨rfl, h.owed, nofun, rfl, rfl⟩

theorem settled_of_idle {s : State} (hidle : s.seq = .idle) (h : Good s) : Settled s := by
  have hseq := h.seq
  rw [seqOk, hidle] at hseq
  exact ⟨h.buf, by simpa using hseq⟩

theorem good_takeInput {x : Input} {s t : State} (h : Good s) (hlevel : hostLevel x = true)
    (hstep : takeInput x s = .next t) : Good t := by
  cases x with
  | present x =>
    obtain ⟨havail, hrun⟩ | hrun := presentItem_cases x s <;> have heq := hrun.symm.trans hstep
    · cases x with
      | host w =>
        have hidle : s.seq = .idle := havail.resolve_right nofun
        obtain ⟨-, e, hdec⟩ | ⟨i, op, hdec, -, -, hexec⟩ := decode_host_cases w
        · rw [runItem, hdec] at heq
          cases heq
        · rw [runItem_of_decode hdec] at heq
          obtain rfl := Host.Outcome.next.inj ((hexec s hidle).symm.trans heq)
          obtain ⟨hbuf, howed⟩ := settled_of_idle hidle h
          exact good_paced (paced_accept op _) (good_accept op ⟨hbuf, howed⟩)
      | wire tx rx => cases hlevel
      | address a => cases heq; exact ⟨h.buf, h.seq⟩
    · cases heq
      exact good_tick h
  | start w =>
    obtain ⟨op, hidle, hrun⟩ | hrun | hrun := startRequest_cases w s <;> cases hrun.symm.trans hstep
    · obtain ⟨hbuf, howed⟩ := settled_of_idle hidle h
      exact good_accept op ⟨hbuf, howed⟩
    · exact good_tick h
  | quiet => cases hstep; exact good_tick h
  | hardReset => cases hstep; exact ⟨h.buf, rfl⟩
  | hostStore j b =>
    obtain ⟨hj, rfl⟩ := hostStore_next hstep
    exact ⟨wf_write b h.buf hj, h.seq⟩

/-- Settles O49: each step of the sequencer leaves the registers as the next step needs them, an operation run at once
is a run of the sequencer, and every other input keeps `seq` and its registers or returns to `IDLE` with nothing
owed. -/
theorem stepKeepsInvariant : Obligations.StepKeepsInvariant := by
  rintro s t ⟨hbuf, hseq, hlevel⟩ hstep
  unfold step stepInputs at hstep
  split at hstep
  next hin =>
    cases hstep
    have hgood := good_tick ⟨hbuf, hseq⟩
    exact ⟨hgood.buf, hgood.seq, by rw [(fixed_tick s).inputs, hlevel]⟩
  next x rest hin =>
    rw [hin, List.all_cons, Bool.and_eq_true] at hlevel
    obtain ⟨hx, hrest⟩ := hlevel
    have hgood := good_takeInput (s := { s with inputs := rest }) ⟨hbuf, hseq⟩ hx hstep
    obtain ⟨-, hinputs⟩ := takeInput_keeps (s := { s with inputs := rest }) hstep
    exact ⟨hgood.buf, hgood.seq, by rw [hinputs]; exact hrest⟩

end Sys2Proof.Proofs.Invariant
end

section
/-! What the traces of `PAGE_READ`, `PAGE_PROGRAM` and `BLOCK_ERASE` say of the chip (R38 to R40): the cache read comes
after the chip was seen ready, and a carried write-disable leaves the write-enable latch clear. -/

namespace Sys2Proof.Proofs.ChipState

open Sys2Proof Sys2Proof.Machine Sys2Proof.Machine.Safety Sys2Proof.Machine.Laws Sys2Proof.Claims Sys2Proof.Proofs.Poll
  Sys2Proof.Proofs.FailedCache Sys2Proof.Proofs.LatchCommands Sys2Proof.Proofs.PageRead Sys2Proof.Proofs.ProgramAndErase

/-! ### The calls of a poll -/

/-- What holds of a status read and of a delay holds of every call of a poll. -/
theorem forall_mem_of_pollRun {P : Call → Prop} {p : PollCfg} {calls : List Call} {out : PollResult}
    (hread : ∀ a, P (statusRead a)) (hdelay : ∀ ms, P (.delay ms)) (h : PollRun p calls out) :
    ∀ c ∈ calls, P c := by
  have hpoll (as : List Answer) : ∀ c ∈ pollCalls p.interPollDelay as, P c := by
    cases as with
    | nil => exact nofun
    | cons a as =>
      refine List.forall_mem_cons.2 ⟨hread a, fun c hc => ?_⟩
      obtain ⟨b, -, hc⟩ := List.mem_flatMap.1 hc
      simp only [List.mem_cons, List.not_mem_nil, or_false] at hc
      obtain rfl | rfl := hc
      · exact hdelay _
      · exact hread b
  cases out with
  | ready => obtain ⟨bs, b, -, -, -, rfl⟩ := h; exact hpoll _
  | busy => obtain ⟨bs, -, -, rfl⟩ := h; exact hpoll _
  | transportError e => obtain ⟨bs, -, -, rfl⟩ := h; exact hpoll _

/-- A poll that ended ready saw no cycle running (R38). -/
theorem cycle_of_ready {p : PollCfg} {calls : List Call} (h : PollRun p calls .ready) (v : ChipView) :
    (chipAfterTrace v calls).cycle = false := by
  obtain ⟨bs, b, -, -, hb, rfl⟩ := h
  rw [← busyCalls_append_statusRead, chipAfterTrace_append]
  generalize chipAfterTrace v _ = u
  change (u.cycle && oip b) = false
  rw [oip_eq, hb, Bool.and_false]

/-! ### `PAGE_READ` -/

/-- The only cache read of a trace that ends with one. -/
theorem cacheRead_last {xs before after : List Call} {last c : Call} (hxs : ∀ d ∈ xs, isCacheRead d = false)
    (h : xs ++ [last] = before ++ c :: after) (hc : isCacheRead c = true) :
    before = xs ∧ c = last ∧ after = [] := by
  obtain ⟨ys, rfl, hlast⟩ | ⟨ys, rfl, hrest⟩ := List.append_eq_append_iff.1 h
  · cases ys with
    | nil =>
      obtain ⟨rfl, hafter⟩ := List.cons.inj hlast
      exact ⟨List.append_nil xs, rfl, hafter.symm⟩
    | cons y ys => simp at hlast
  · cases ys with
    | nil =>
      obtain ⟨rfl, rfl⟩ := List.cons.inj hrest
      exact ⟨(List.append_nil _).symm, rfl, rfl⟩
    | cons y ys =>
      obtain ⟨rfl, -⟩ := List.cons.inj hrest
      rw [hxs c (by simp)] at hc
      cases hc

/-- What O37 says of every cache read of a trace. -/
def FetchesReady (s : State) (addr : LogicalAddress) (len : BitVec 16) (v : ChipView) (trace : List Call) : Prop :=
  ∀ before c after, trace = before ++ c :: after → isCacheRead c = true →
    after = [] ∧ (∃ a, c = .sendReceive (0x03 :: (colWire s.cfg addr ++ [s.cfg.dummy])) len.toNat a) ∧
    (chipAfterTrace v before).cycle = false ∧ (chipAfterTrace v before).cache = .page (rowWire addr)

section
variable (s : State) (addr : LogicalAddress) (len : BitVec 16) (v : ChipView)

theorem fetchesReady_of_none {trace : List Call} (h : ∀ c ∈ trace, isCacheRead c = false) :
    FetchesReady s addr len v trace := by
  rintro before c after rfl hc
  rw [h c (by simp)] at hc
  cases hc

/-- The calls of a `PAGE_READ` up to the end of its poll hold no cache read. -/
theorem noCacheRead_loaded {calls : List Call} {out : PollResult} (a : Answer)
    (hpoll : PollRun s.cfg.pollRead calls out) :
    ∀ c ∈ .send (0x13 :: rowWire addr) a :: calls, isCacheRead c = false :=
  List.forall_mem_cons.2 ⟨rfl, forall_mem_of_pollRun (fun _ => rfl) (fun _ => rfl) hpoll⟩

/-- A cache read after a poll that ended ready. -/
theorem fetchesReady_of_ready {calls : List Call} (hpoll : PollRun s.cfg.pollRead calls .ready) (a : Answer) :
    FetchesReady s addr len v (.send (0x13 :: rowWire addr) (.ok []) :: calls ++
      [.sendReceive (0x03 :: (colWire s.cfg addr ++ [s.cfg.dummy])) len.toNat a]) := by
  intro before c after htrace hc
  obtain ⟨rfl, rfl, rfl⟩ := cacheRead_last (noCacheRead_loaded s addr (.ok []) hpoll) htrace hc
  exact ⟨rfl, ⟨a, rfl⟩, cycle_of_ready hpoll _, cache_of_pageRead v addr [] (keepsCache_of_pollRun hpoll)⟩

end

/-- Settles O37: only the traces that come past a poll that ended ready have a cache read, and it ends them. -/
theorem cacheReadAfterReady : Obligations.CacheReadAfterReady := by
  intro s addr len v hidle howed
  obtain ⟨t, k, hexec, -, hregs, -, hend⟩ := pageReadRun s addr len hidle howed
  have hres : t.r.res = k := congrArg Regs.res hregs
  refine ⟨t, hexec, ?_⟩
  change FetchesReady s addr len v t.trace ∧ _
  obtain ⟨-, htrace, rfl⟩ | ⟨-, -, htrace, rfl⟩ | ⟨-, -, ⟨e, htrace, rfl⟩ | ⟨calls, out, hpoll, -, htrace, rfl⟩ |
    ⟨calls, e, hpoll, htrace, rfl⟩ | ⟨calls, rx, hpoll, htrace, -⟩⟩ := hend <;> rw [htrace, hres]
  · exact ⟨fetchesReady_of_none s addr len v nofun, nofun⟩
  · exact ⟨fetchesReady_of_none s addr len v nofun, nofun⟩
  · exact ⟨fetchesReady_of_none s addr len v (List.forall_mem_singleton.2 rfl), nofun⟩
  · exact ⟨fetchesReady_of_none s addr len v (noCacheRead_loaded s addr _ hpoll), nofun⟩
  · exact ⟨fetchesReady_of_ready s addr len v hpoll _, nofun⟩
  · exact ⟨fetchesReady_of_ready s addr len v hpoll _, fun _ =>
      ⟨_, List.mem_append_right _ (List.mem_singleton_self _), rfl⟩⟩

/-! ### The write-enable bracket -/

/-- A trace whose one write-disable is its last call, or the last but one before a status read. -/
inductive Closed : List Call → Prop
  | disabled (before : List Call) (wd : Answer) : Closed (before ++ [.send [0x04] wd])
  | checked (before : List Call) (wd a : Answer) : Closed (before ++ [.send [0x04] wd, statusRead a])

theorem closed_of_bracketRun {steps : List (Answer → Call)} {p : PollCfg} {bit : Nat} {trace : List Call}
    {ok good : Bool} (h : BracketRun steps p bit trace ok good) : Closed trace := by
  obtain ⟨before, step, after, e, wd, -, rfl, -⟩ | ⟨calls, out, wd, -, -, rfl, -⟩ | ⟨calls, e, -, rfl, -⟩ |
    ⟨calls, e, -, rfl, -⟩ | ⟨calls, b, -, rfl, -⟩ := h
  · simpa using Closed.disabled (before.map (fun c => c (.ok [])) ++ [step (.err e)]) wd
  · exact .disabled _ wd
  · exact .disabled _ (.err e)
  · exact .checked _ (.ok []) (.err e)
  · exact .checked _ (.ok []) (.ok [b])

/-- The one write-disable of a trace is the carried one. -/
theorem eq_ok_of_carried {before after : List Call} {wd : Answer}
    (hone : (before ++ .send [0x04] wd :: after).countP (isCommand 0x04) = 1)
    (hcarried : .send [0x04] (.ok []) ∈ before ++ .send [0x04] wd :: after) : wd = .ok [] := by
  rw [List.countP_append, List.countP_cons_of_pos rfl] at hone
  have hbefore := List.countP_eq_zero.1 (show before.countP (isCommand 0x04) = 0 by omega)
  have hafter := List.countP_eq_zero.1 (show after.countP (isCommand 0x04) = 0 by omega)
  obtain hmem | hmem := List.mem_append.1 hcarried
  · exact absurd rfl (hbefore _ hmem)
  · obtain heq | hmem := List.mem_cons.1 hmem
    · cases heq; rfl
    · exact absurd rfl (hafter _ hmem)

/-- If the one write-disable of the trace was carried, the latch is clear after it (R39). -/
theorem wel_of_closed {trace : List Call} (v : ChipView) (h : Closed trace)
    (hone : trace.countP (isCommand 0x04) = 1) (hcarried : .send [0x04] (.ok []) ∈ trace) :
    (chipAfterTrace v trace).wel = some false := by
  cases h with
  | disabled before wd =>
    obtain rfl := eq_ok_of_carried hone hcarried
    rw [chipAfterTrace_append]
    rfl
  | checked before wd a =>
    obtain rfl := eq_ok_of_carried hone hcarried
    rw [chipAfterTrace_append]
    exact (chipAfter_sendReceive _ _ 1 a).2

/-- Settles O38: the bracket has one write-disable, and nothing after it commands the chip. -/
theorem latchReleased : Obligations.LatchReleased := by
  rintro s addr len v hidle howed haddr hlen i (rfl | rfl)
  · obtain ⟨t, k, hexec, -, -, -, hend⟩ := pageProgramRun s addr len hidle howed
    obtain ⟨t', hexec', -, hbracket, -⟩ := pageProgram_bracket addr len hidle howed
    obtain rfl := Host.Outcome.next.inj (hexec.symm.trans hexec')
    refine ⟨t, hexec, fun hcarried => ?_⟩
    obtain ⟨-, hone, -⟩ := (hbracket ⟨hlen, haddr⟩).commands
    obtain ⟨hlong, -⟩ | ⟨-, hout, -⟩ | ⟨-, -, good, -, hrun⟩ := hend
    · omega
    · omega
    · exact wel_of_closed v (closed_of_bracketRun hrun) hone hcarried
  · obtain ⟨t, k, hexec, -, -, -, hend⟩ := blockEraseRun s addr hidle howed
    obtain ⟨t', hexec', -, hbracket, -⟩ := blockErase_bracket addr hidle howed
    obtain rfl := Host.Outcome.next.inj (hexec.symm.trans hexec')
    refine ⟨t, hexec, fun hcarried => ?_⟩
    obtain ⟨-, hone, -⟩ := (hbracket haddr).commands
    obtain ⟨hout, -⟩ | ⟨-, good, -, hrun⟩ := hend
    · omega
    · exact wel_of_closed v (closed_of_bracketRun hrun) hone hcarried

end Sys2Proof.Proofs.ChipState
end

section
/-! Noninterference: two states that agree on what an operation may read (its operands, `cfg`, the buffer and the
environment's answers) are taken by each of its steps to two such states, and its ends give the same observation. -/

namespace Sys2Proof.Proofs.Noninterference

open Sys2Proof Sys2Proof.Machine Sys2Proof.Machine.Laws Sys2Proof.Claims Sys2Proof.Proofs.Poll
  Sys2Proof.Proofs.Bracket Sys2Proof.Proofs.Sequencer Sys2Proof.Proofs.Frame

/-! ### What an operation may read -/

/-- The registers hold the same operands of the operation (R84). -/
def SameOperands (op : HostOp) (r r' : Regs) : Prop :=
  match op with
  | .pageRead | .pageProgram => r.addr = r'.addr ∧ r.len = r'.len
  | .blockErase => r.addr = r'.addr
  | .getFeature => r.reg = r'.reg
  | .setFeature => r.reg = r'.reg ∧ r.wval = r'.wval
  | .waitReady => r.att = r'.att ∧ r.dly = r'.dly
  | .init | .reset | .readId | .checkBusy => True

/-- The states agree on all that the operation may read and on what it has observed so far; on the failure latch only
once the bracket is open, as nothing reads it before. -/
structure Same (op : HostOp) (bracket : Bool) (s t : State) : Prop where
  cfg : s.cfg = t.cfg
  buf : s.buf = t.buf
  trace : s.trace = t.trace
  script : s.script = t.script
  draws : s.draws = t.draws
  operands : SameOperands op s.r t.r
  owed : s.r.wdOwed = t.r.wdOwed
  ok : bracket = true → s.r.ok = t.r.ok

/-- The outcomes are the same, in states that agree. -/
def SameOut {α : Type} (op : HostOp) (bracket : Bool) (x y : α × State) : Prop :=
  ∃ a u v, x = (a, u) ∧ y = (a, v) ∧ Same op bracket u v

section
variable {op : HostOp} {bracket : Bool} {s t : State} (h : Same op bracket s t)
include h

/-- Registers that no step of the operation reads may be written differently. -/
theorem Same.write (f g : Regs → Regs) (hoperands : SameOperands op (f s.r) (g t.r))
    (howed : (f s.r).wdOwed = (g t.r).wdOwed) (hok : bracket = true → (f s.r).ok = (g t.r).ok) :
    Same op bracket (s.withRegs f) (t.withRegs g) :=
  ⟨h.cfg, h.buf, h.trace, h.script, h.draws, hoperands, howed, hok⟩

/-- The failure latch written alike agrees from then on. -/
theorem Same.setOk (bracket' ok : Bool) : Same op bracket' (s.setOk ok) (t.setOk ok) :=
  ⟨h.cfg, h.buf, h.trace, h.script, h.draws, h.operands, h.owed, fun _ => rfl⟩

theorem Same.delay (ms : Nat) : Same op bracket (delay ms s) (delay ms t) :=
  ⟨h.cfg, h.buf, congrArg (· ++ _) h.trace, h.script, h.draws, h.operands, h.owed, h.ok⟩

theorem same_transport (mk : Answer → Call) (n : Nat) :
    SameOut op bracket (transport mk n s) (transport mk n t) := by
  have hans : s.nextAnswer n = t.nextAnswer n := nextAnswer_congr n h.script h.draws
  refine ⟨s.nextAnswer n, (transport mk n s).2, (transport mk n t).2, rfl, Prod.ext hans.symm rfl, ?_⟩
  exact ⟨h.cfg, h.buf, by simp only [transport_trace, h.trace, hans], congrArg List.tail h.script,
    congrArg (· + 1) h.draws, h.operands, h.owed, h.ok⟩

theorem same_getFeature (ra : Byte) : SameOut op bracket (getFeature ra s) (getFeature ra t) :=
  same_transport h _ 1

theorem same_setFeature (ra v : Byte) : SameOut op bracket (setFeature ra v s) (setFeature ra v t) := by
  obtain ⟨a, u, w, hu, hw, h'⟩ : SameOut op bracket (txSetf ra v s) (txSetf ra v t) := same_transport h _ 0
  rw [setFeature, setFeature, hu, hw]
  split
  · exact ⟨_, s, t, rfl, rfl, h⟩
  · cases a <;> exact ⟨_, u, w, rfl, rfl, h'⟩

theorem same_writeEnable : SameOut op bracket (writeEnable s) (writeEnable t) := by
  obtain ⟨a, u, v, hu, hv, h'⟩ : SameOut op bracket (txCmd _ s) (txCmd _ t) := same_transport h _ 0
  rw [writeEnable, writeEnable, hu, hv]
  exact ⟨a, _, _, rfl, rfl, h'.write _ _ h'.operands rfl h'.ok⟩

theorem same_writeDisable : SameOut op bracket (writeDisable s) (writeDisable t) := by
  obtain ⟨a, u, v, hu, hv, h'⟩ : SameOut op bracket (txCmd _ s) (txCmd _ t) := same_transport h _ 0
  rw [writeDisable, writeDisable, hu, hv]
  exact ⟨a, _, _, rfl, rfl, h'.write _ _ h'.operands rfl h'.ok⟩

/-- A status read and its test, if the loop takes the states after it alike. -/
theorem same_readAndTest {d n : Nat}
    (hloop : ∀ u v, Same op bracket u v → SameOut op bracket (pollLoop d n u) (pollLoop d n v)) :
    SameOut op bracket (readAndTest d n s) (readAndTest d n t) := by
  obtain ⟨a, u, v, hu, hv, h'⟩ := same_getFeature h statusAddress
  rw [readAndTest, readAndTest, hu, hv]
  cases a with
  | err e => exact ⟨_, u, v, rfl, rfl, h'⟩
  | ok rx =>
    have hsample : Same op bracket (u.sample (byteAt rx 0)) (v.sample (byteAt rx 0)) :=
      h'.write _ _ h'.operands h'.owed h'.ok
    dsimp only
    split
    · exact hloop _ _ hsample
    · exact ⟨_, _, _, rfl, rfl, hsample⟩

theorem same_pollLoop (d n : Nat) : SameOut op bracket (pollLoop d n s) (pollLoop d n t) := by
  induction n generalizing s t with
  | zero => exact ⟨_, s, t, rfl, rfl, h⟩
  | succ n ih =>
    have hcount : Same op bracket s.countAttempt t.countAttempt := by
      refine h.write _ _ ?_ h.owed h.ok
      exact h.operands
    exact same_readAndTest (hcount.delay d) fun _ _ h => ih h

theorem same_waitUntilReady (p : PollCfg) : SameOut op bracket (waitUntilReady p s) (waitUntilReady p t) := by
  have hclear : Same op bracket s.clearCnt t.clearCnt := h.write _ _ h.operands h.owed h.ok
  exact same_readAndTest hclear fun _ _ h => same_pollLoop h _ _

end

/-! ### The ends -/

/-- All that can be observed of the operation's end is the same (R14, R82). -/
structure SameEnd (i : Instr) (s t : State) : Prop where
  trace : s.trace = t.trace
  buf : s.buf = t.buf
  script : s.script = t.script
  draws : s.draws = t.draws
  outputs : SameOutputs i s.r.response t.r.response

/-- A failure shows no data, and the transport's error only as `TransportError` (R82). -/
theorem sameOutputs_failure (i : Instr) {k : ResultKind} {r r' : Regs} (hk : k ≠ .success ∧ k ≠ .wrongId)
    (hterr : k = .transportError → r.terr = r'.terr) :
    SameOutputs i ({ r with res := k } : Regs).response ({ r' with res := k } : Regs).response :=
  ⟨rfl, fun _ hres => absurd hres (not_or.2 hk), fun _ hres => absurd hres hk.1, fun _ _ hres => absurd hres hk.1,
    fun _ hres => absurd hres hk.1, hterr⟩

/-- The operations that show the identity (R82). -/
theorem sameOutputs_identity {i : Instr} {k : ResultKind} {r r' : Regs} (hi : i = .init ∨ i = .readId)
    (hk : k ≠ .transportError) (hid : r.mfr = r'.mfr ∧ r.dev = r'.dev) :
    SameOutputs i ({ r with res := k } : Regs).response ({ r' with res := k } : Regs).response := by
  refine ⟨rfl, fun _ _ => hid, fun _ _ => hid, fun _ heq => ?_, fun heq => ?_, fun hres => absurd hres hk⟩ <;>
    obtain rfl | rfl := hi <;> cases heq

section
variable {op : HostOp} {bracket : Bool} {s t : State} (i : Instr) (h : Same op bracket s t)
include h

theorem sameEnd_respond {k : ResultKind}
    (hout : SameOutputs i ({ s.r with res := k } : Regs).response ({ t.r with res := k } : Regs).response) :
    SameEnd i (respond k s) (respond k t) :=
  ⟨h.trace, h.buf, h.script, h.draws, hout⟩

theorem same_cleanup : Same op bracket (cleanup s) (cleanup t) := by
  obtain ⟨a, u, v, hu, hv, h'⟩ := same_writeDisable h
  rw [cleanup, cleanup, hu, hv, h.owed]
  split
  · exact h'
  · exact h

omit h in
/-- The cleanup writes no response register. -/
theorem response_cleanup (k : ResultKind) (s : State) :
    ({ (cleanup s).r with res := k } : Regs).response = ({ s.r with res := k } : Regs).response := by
  unfold cleanup
  split <;> rfl

theorem sameEnd_raise {k : ResultKind}
    (hout : SameOutputs i ({ s.r with res := k } : Regs).response ({ t.r with res := k } : Regs).response) :
    SameEnd i (raise k s) (raise k t) :=
  sameEnd_respond i (same_cleanup h) (by rwa [response_cleanup, response_cleanup])

/-- A failure that shows nothing but its kind. -/
theorem sameEnd_failure {k : ResultKind} (hk : k ≠ .success ∧ k ≠ .wrongId ∧ k ≠ .transportError) :
    SameEnd i (raise k s) (raise k t) :=
  sameEnd_raise i h (sameOutputs_failure i ⟨hk.1, hk.2.1⟩ fun hres => absurd hres hk.2.2)

/-- A failure that shows the transport's error. -/
theorem sameEnd_transportError (e : TransportError) :
    SameEnd i (raise .transportError (s.setTerr e)) (raise .transportError (t.setTerr e)) :=
  sameEnd_raise i (h.write _ _ h.operands h.owed h.ok) (sameOutputs_failure i ⟨nofun, nofun⟩ fun _ => rfl)

end

/-! ### The operations without an address -/

section
variable {op : HostOp} {bracket : Bool} {s t : State}

theorem sameEnd_waitReadyOp {att dly : BitVec 16} (h : Same .waitReady bracket s t) :
    SameEnd (.waitReady att dly) (waitReadyOp s) (waitReadyOp t) := by
  obtain ⟨hatt, hdly⟩ := h.operands
  have hcfg : s.pollCfg .waitReady = t.pollCfg .waitReady := by simp only [State.pollCfg, hatt, hdly]
  obtain ⟨out, u, v, hu, hv, h'⟩ := same_waitUntilReady h (s.pollCfg .waitReady)
  rw [waitReadyOp, waitReadyOp, ← hcfg, hu, hv]
  cases out with
  | ready => exact sameEnd_respond _ h' ⟨rfl, nofun, nofun, nofun, nofun, nofun⟩
  | busy => exact sameEnd_failure _ h' ⟨nofun, nofun, nofun⟩
  | transportError e => exact sameEnd_transportError _ h' e

theorem sameEnd_getFeatureOp {reg : BitVec 2} (h : Same .getFeature bracket s t) :
    SameEnd (.getFeature reg) (getFeatureOp s) (getFeatureOp t) := by
  have hreg : s.r.reg = t.r.reg := h.operands
  obtain ⟨a, u, v, hu, hv, h'⟩ := same_getFeature h (regAddr s.r.reg)
  rw [getFeatureOp, getFeatureOp, ← hreg, hu, hv]
  cases a with
  | err e => exact sameEnd_transportError _ h' e
  | ok rx =>
    dsimp only
    rw [sampleStatus_reg, sampleStatus_reg]
    refine sameEnd_respond (op := .getFeature) (bracket := bracket) _ ?_
      ⟨rfl, nofun, nofun, fun _ _ _ => rfl, nofun, nofun⟩
    exact ⟨h'.cfg, h'.buf, h'.trace, h'.script, h'.draws, h'.operands, h'.owed, h'.ok⟩

theorem sameEnd_setFeatureOp {reg : BitVec 2} {wval : Byte} (h : Same .setFeature bracket s t) :
    SameEnd (.setFeature reg wval) (setFeatureOp s) (setFeatureOp t) := by
  obtain ⟨hreg, hwval⟩ := h.operands
  obtain ⟨out, u, v, hu, hv, h'⟩ := same_setFeature h (regAddr s.r.reg) s.r.wval
  rw [setFeatureOp, setFeatureOp, ← hreg, ← hwval, hu, hv]
  cases out with
  | done => exact sameEnd_respond _ h' ⟨rfl, nofun, nofun, nofun, nofun, nofun⟩
  | regAddressInvalid => exact sameEnd_failure _ h' ⟨nofun, nofun, nofun⟩
  | transportError e => exact sameEnd_transportError _ h' e

theorem sameEnd_checkBusyOp (h : Same op bracket s t) : SameEnd .checkBusy (checkBusyOp s) (checkBusyOp t) := by
  obtain ⟨a, u, v, hu, hv, h'⟩ := same_getFeature h statusAddress
  rw [checkBusyOp, checkBusyOp, hu, hv]
  cases a with
  | err e => exact sameEnd_transportError _ h' e
  | ok rx =>
    refine sameEnd_respond (op := op) (bracket := bracket) _ ?_ ⟨rfl, nofun, nofun, nofun, fun _ _ => rfl, nofun⟩
    exact ⟨h'.cfg, h'.buf, h'.trace, h'.script, h'.draws, h'.operands, h'.owed, h'.ok⟩

/-- After an answered identity transaction the registers hold the pair it received. -/
theorem same_identitySteps (h : Same op bracket s t) :
    ∃ a u v, identitySteps s = (a, u) ∧ identitySteps t = (a, v) ∧ Same op bracket u v ∧
      ∀ rx, a = .ok rx → u.r.mfr = v.r.mfr ∧ u.r.dev = v.r.dev := by
  have hcall : SameOut op bracket (txId s) (txId t) := by
    rw [txId, txId, h.cfg]
    exact same_transport h _ 2
  obtain ⟨a, u, v, hu, hv, h'⟩ := hcall
  rw [identitySteps, identitySteps, hu, hv]
  cases a with
  | err e => exact ⟨_, u, v, rfl, rfl, h', nofun⟩
  | ok rx => exact ⟨_, _, _, rfl, rfl, h'.write _ _ h'.operands h'.owed h'.ok, fun _ _ => ⟨rfl, rfl⟩⟩

theorem sameEnd_readIdOp (h : Same op bracket s t) : SameEnd .readId (readIdOp s) (readIdOp t) := by
  obtain ⟨a, u, v, hu, hv, h', hid⟩ := same_identitySteps h
  rw [readIdOp, readIdOp, hu, hv]
  cases a with
  | err e => exact sameEnd_transportError _ h' e
  | ok rx => exact sameEnd_respond _ h' (sameOutputs_identity (.inr rfl) nofun (hid rx rfl))

theorem sameEnd_initIdentity (h : Same op bracket s t) : SameEnd .init (initIdentity s) (initIdentity t) := by
  obtain ⟨a, u, v, hu, hv, h', hid⟩ := same_identitySteps h
  rw [initIdentity, initIdentity, hu, hv]
  cases a with
  | err e => exact sameEnd_failure _ h' ⟨nofun, nofun, nofun⟩
  | ok rx =>
    obtain ⟨hmfr, hdev⟩ := hid rx rfl
    have hok : identityOk u = identityOk v := by rw [identityOk, identityOk, hmfr, hdev]
    dsimp only
    rw [hok]
    split
    · exact sameEnd_respond _ h' (sameOutputs_identity (.inl rfl) nofun ⟨hmfr, hdev⟩)
    · exact sameEnd_raise _ h' (sameOutputs_identity (.inl rfl) nofun ⟨hmfr, hdev⟩)

/-- The reset steps end in one of three ways (R163). -/
theorem same_resetSteps {c : PollCaller} (hc : c = .init ∨ c = .reset) (h : Same op bracket s t) :
    ∃ k u v, resetSteps c s = (k, u) ∧ resetSteps c t = (k, v) ∧ Same op bracket u v ∧
      (k = .success ∨ k = .busy ∨ k = .resetFailed) := by
  have hcfg (u : State) : u.pollCfg c = u.cfg.pollReset := by obtain rfl | rfl := hc <;> rfl
  obtain ⟨a, u, v, hu, hv, h'⟩ : SameOut op bracket (txCmd Opcode.reset s) (txCmd Opcode.reset t) :=
    same_transport h _ 0
  rw [resetSteps, resetSteps, hu, hv]
  cases a with
  | err e => exact ⟨_, u, v, rfl, rfl, h', .inr (.inr rfl)⟩
  | ok rx =>
    obtain ⟨out, w, z, hw, hz, h''⟩ := same_waitUntilReady (h'.delay u.cfg.tPorMs) u.cfg.pollReset
    dsimp only
    rw [hcfg, hcfg, ← h'.cfg, hw, hz]
    cases out with
    | ready => exact ⟨_, w, z, rfl, rfl, h'', .inl rfl⟩
    | busy => exact ⟨_, w, z, rfl, rfl, h'', .inr (.inl rfl)⟩
    | transportError e => exact ⟨_, w, z, rfl, rfl, h'', .inr (.inr rfl)⟩

theorem sameEnd_resetOp (h : Same op bracket s t) : SameEnd .reset (resetOp s) (resetOp t) := by
  obtain ⟨k, u, v, hu, hv, h', hk⟩ := same_resetSteps (.inr rfl) h
  rw [resetOp, resetOp, hu, hv]
  obtain rfl | rfl | rfl := hk
  · exact sameEnd_respond _ h' ⟨rfl, nofun, nofun, nofun, nofun, nofun⟩
  · exact sameEnd_failure _ h' ⟨nofun, nofun, nofun⟩
  · exact sameEnd_failure _ h' ⟨nofun, nofun, nofun⟩

theorem sameEnd_initOp (h : Same op bracket s t) : SameEnd .init (initOp s) (initOp t) := by
  obtain ⟨k, u, v, hu, hv, h', hk⟩ := same_resetSteps (.inl rfl) (h.delay s.cfg.tPorMs)
  rw [initOp, initOp, ← h.cfg, hu, hv]
  obtain rfl | rfl | rfl := hk
  · exact sameEnd_initIdentity h'
  · exact sameEnd_failure _ h' ⟨nofun, nofun, nofun⟩
  · exact sameEnd_failure _ h' ⟨nofun, nofun, nofun⟩

end

/-! ### `PAGE_READ` -/

section
variable {bracket : Bool} {s t : State} {addr : LogicalAddress} {len : BitVec 16} (h : Same .pageRead bracket s t)
include h

theorem sameEnd_readFailure {k : ResultKind} (hk : k ≠ .success ∧ k ≠ .wrongId ∧ k ≠ .transportError) :
    SameEnd (.pageRead addr len) (readFailure k s) (readFailure k t) := by
  have hspoil : Same .pageRead bracket (spoilBuffer s) (spoilBuffer t) := by
    refine ⟨h.cfg, ?_, h.trace, h.script, congrArg (· + 1) h.draws, h.operands, h.owed, h.ok⟩
    simp only [spoilBuffer, h.buf, h.draws, h.operands.2]
  exact sameEnd_failure _ hspoil hk

theorem sameEnd_readCacheStep (x : Phys) :
    SameEnd (.pageRead addr len) (readCacheStep x s) (readCacheStep x t) := by
  have hcall : SameOut .pageRead bracket (txColrd (colWord s.cfg x) s.r.len.toNat s)
      (txColrd (colWord t.cfg x) t.r.len.toNat t) := by
    rw [txColrd, txColrd, h.cfg, h.operands.2]
    exact same_transport h _ _
  obtain ⟨a, u, v, hu, hv, h'⟩ := hcall
  rw [readCacheStep, readCacheStep, hu, hv]
  cases a with
  | err e => exact sameEnd_readFailure h' ⟨nofun, nofun, nofun⟩
  | ok rx =>
    refine sameEnd_respond (op := .pageRead) (bracket := bracket) _ ?_ ⟨rfl, nofun, nofun, nofun, nofun, nofun⟩
    exact ⟨h'.cfg, congrArg (Buffer.storePrefix · rx) h'.buf, h'.trace, h'.script, h'.draws, h'.operands, h'.owed,
      h'.ok⟩

theorem sameEnd_pageReadOp : SameEnd (.pageRead addr len) (pageReadOp s) (pageReadOp t) := by
  obtain ⟨haddr, hlen⟩ := h.operands
  rw [pageReadOp, pageReadOp, haddr, hlen]
  split
  · exact sameEnd_readFailure h ⟨nofun, nofun, nofun⟩
  · split
    · exact sameEnd_readFailure h ⟨nofun, nofun, nofun⟩
    next x _ =>
      obtain ⟨a, u, v, hu, hv, h'⟩ : SameOut .pageRead bracket (txRow Opcode.pageRead x.rowAddr s)
        (txRow Opcode.pageRead x.rowAddr t) := same_transport h _ 0
      rw [hu, hv]
      cases a with
      | err e => exact sameEnd_readFailure h' ⟨nofun, nofun, nofun⟩
      | ok rx =>
        obtain ⟨out, w, z, hw, hz, h''⟩ := same_waitUntilReady h' (u.pollCfg .pageRead)
        have hcfg : v.pollCfg .pageRead = u.pollCfg .pageRead := congrArg Cfg.pollRead h'.cfg.symm
        dsimp only
        rw [hcfg, hw, hz]
        cases out with
        | ready => exact sameEnd_readCacheStep h'' x
        | busy | transportError e => exact sameEnd_readFailure h'' ⟨nofun, nofun, nofun⟩

end

/-! ### The write-enable bracket -/

theorem same_noteAnswer {op : HostOp} {bracket : Bool} {x y : Answer × State} (h : SameOut op bracket x y) :
    Same op bracket (noteAnswer x) (noteAnswer y) := by
  obtain ⟨a, u, v, rfl, rfl, h⟩ := h
  cases a with
  | ok rx => exact h
  | err e => exact h.setOk bracket false

theorem same_notePoll {op : HostOp} {bracket : Bool} {x y : PollResult × State} (h : SameOut op bracket x y) :
    Same op bracket (notePoll x) (notePoll y) := by
  obtain ⟨out, u, v, rfl, rfl, h⟩ := h
  cases out with
  | ready => exact h
  | busy | transportError e => exact h.setOk bracket false

section
variable {op : HostOp} {s t : State} (h : Same op true s t)
include h

theorem same_whenOk {step : State → State} (hstep : Same op true (step s) (step t)) :
    Same op true (whenOk step s) (whenOk step t) := by
  rw [whenOk, whenOk, h.ok rfl]
  split
  · exact hstep
  · exact h

theorem sameEnd_closeBracket (i : Instr) (failBit : Byte → Bool) {k : ResultKind}
    (hk : k ≠ .success ∧ k ≠ .wrongId ∧ k ≠ .transportError)
    (hgood : ∀ {u v : State}, Same op true u v → SameEnd i (respond .success u) (respond .success v)) :
    SameEnd i (closeBracket failBit k s) (closeBracket failBit k t) := by
  obtain ⟨a, u, v, hu, hv, h'⟩ := same_getFeature h statusAddress
  rw [closeBracket, closeBracket, hu, hv, h.ok rfl]
  split
  · cases a with
    | err e => exact sameEnd_failure i h' hk
    | ok rx =>
      have hsample : Same op true (u.sample (byteAt rx 0)) (v.sample (byteAt rx 0)) :=
        h'.write _ _ h'.operands h'.owed h'.ok
      dsimp only
      split
      · exact sameEnd_failure i hsample hk
      · exact hgood hsample
  · exact sameEnd_failure i h hk

theorem sameEnd_pollAndClose (i : Instr) {caller : PollCaller} {p : Cfg → PollCfg}
    (hp : ∀ u : State, u.pollCfg caller = p u.cfg) (failBit : Byte → Bool) {k : ResultKind}
    (hk : k ≠ .success ∧ k ≠ .wrongId ∧ k ≠ .transportError)
    (hgood : ∀ {u v : State}, Same op true u v → SameEnd i (respond .success u) (respond .success v)) :
    SameEnd i (pollAndClose caller failBit k s) (pollAndClose caller failBit k t) := by
  have hpoll : Same op true (notePoll (waitUntilReady (s.pollCfg caller) s))
      (notePoll (waitUntilReady (t.pollCfg caller) t)) := by
    rw [hp, hp, h.cfg]
    exact same_notePoll (same_waitUntilReady h _)
  exact sameEnd_closeBracket (same_noteAnswer (same_writeDisable (same_whenOk h hpoll))) i failBit hk hgood

/-- A row command of the bracket. -/
theorem same_rowStep (opc : Byte) (row : BitVec 24) :
    Same op true (whenOk (fun s => noteAnswer (txRow opc row s)) s)
      (whenOk (fun s => noteAnswer (txRow opc row s)) t) :=
  same_whenOk h (same_noteAnswer (same_transport h _ 0))

end

/-- Write-enable opens the bracket: from then on the failure latch agrees. -/
theorem same_openBracket {op : HostOp} {bracket : Bool} {s t : State} (h : Same op bracket s t) :
    Same op true (noteAnswer (writeEnable (s.setOk true))) (noteAnswer (writeEnable (t.setOk true))) :=
  same_noteAnswer (same_writeEnable (h.setOk true true))

theorem same_programLoadStep {s t : State} (h : Same .pageProgram true s t) (x : Phys) :
    Same .pageProgram true (programLoadStep x s) (programLoadStep x t) := by
  rw [programLoadStep, programLoadStep, h.cfg, h.buf, h.operands.2]
  exact same_noteAnswer (same_transport h _ 0)

theorem sameEnd_pageProgramOp {bracket : Bool} {s t : State} {addr : LogicalAddress} {len : BitVec 16}
    (h : Same .pageProgram bracket s t) :
    SameEnd (.pageProgram addr len) (pageProgramOp s) (pageProgramOp t) := by
  obtain ⟨haddr, hlen⟩ := h.operands
  rw [pageProgramOp, pageProgramOp, haddr, hlen]
  split
  · exact sameEnd_failure _ h ⟨nofun, nofun, nofun⟩
  · split
    · exact sameEnd_failure _ h ⟨nofun, nofun, nofun⟩
    next x _ =>
      have hopen := same_openBracket h
      have hload := same_whenOk hopen (same_programLoadStep hopen x)
      exact sameEnd_pollAndClose (same_rowStep hload Opcode.programExecute x.rowAddr) _ (caller := .pageProgram)
        (p := Cfg.pollPgm) (fun _ => rfl) _ ⟨nofun, nofun, nofun⟩
        fun h => sameEnd_respond _ h ⟨rfl, nofun, nofun, nofun, nofun, nofun⟩

theorem sameEnd_blockEraseOp {bracket : Bool} {s t : State} {addr : LogicalAddress}
    (h : Same .blockErase bracket s t) : SameEnd (.blockErase addr) (blockEraseOp s) (blockEraseOp t) := by
  have haddr : s.r.addr = t.r.addr := h.operands
  rw [blockEraseOp, blockEraseOp, haddr]
  split
  · exact sameEnd_failure _ h ⟨nofun, nofun, nofun⟩
  next x _ =>
    exact sameEnd_pollAndClose (same_rowStep (same_openBracket h) Opcode.blockErase x.rowAddr) _ (caller := .blockErase)
      (p := Cfg.pollErs) (fun _ => rfl) _ ⟨nofun, nofun, nofun⟩
      fun h => sameEnd_respond _ h ⟨rfl, nofun, nofun, nofun, nofun, nofun⟩

/-! ### Every host operation -/

/-- Accepting the same request in two states makes their operands agree, and what they agree on besides is all that its
operation needs. -/
theorem exec_sameEnd {i : Instr} (hhost : isHostOperation i = true) :
    ∃ op operands, (∀ s, exec i s = .next (request op operands (runOf op) s)) ∧
      (∀ r r', SameOperands op (operands r) (operands r')) ∧ (∀ r, (operands r).wdOwed = r.wdOwed) ∧
      ∀ {s t}, Same op false s t → SameEnd i (runOf op s) (runOf op t) := by
  cases i with
  | init => exact ⟨.init, id, fun _ => rfl, fun _ _ => trivial, fun _ => rfl, sameEnd_initOp⟩
  | reset => exact ⟨.reset, id, fun _ => rfl, fun _ _ => trivial, fun _ => rfl, sameEnd_resetOp⟩
  | readId => exact ⟨.readId, id, fun _ => rfl, fun _ _ => trivial, fun _ => rfl, sameEnd_readIdOp⟩
  | pageRead addr len => exact ⟨.pageRead, _, fun _ => rfl, fun _ _ => ⟨rfl, rfl⟩, fun _ => rfl, sameEnd_pageReadOp⟩
  | pageProgram addr len =>
    exact ⟨.pageProgram, _, fun _ => rfl, fun _ _ => ⟨rfl, rfl⟩, fun _ => rfl, sameEnd_pageProgramOp⟩
  | blockErase addr => exact ⟨.blockErase, _, fun _ => rfl, fun _ _ => rfl, fun _ => rfl, sameEnd_blockEraseOp⟩
  | getFeature reg => exact ⟨.getFeature, _, fun _ => rfl, fun _ _ => rfl, fun _ => rfl, sameEnd_getFeatureOp⟩
  | setFeature reg wval =>
    exact ⟨.setFeature, _, fun _ => rfl, fun _ _ => ⟨rfl, rfl⟩, fun _ => rfl, sameEnd_setFeatureOp⟩
  | waitReady att dly =>
    exact ⟨.waitReady, _, fun _ => rfl, fun _ _ => ⟨rfl, rfl⟩, fun _ => rfl, sameEnd_waitReadyOp⟩
  | checkBusy => exact ⟨.checkBusy, id, fun _ => rfl, fun _ _ => trivial, fun _ => rfl, sameEnd_checkBusyOp⟩
  | _ => cases hhost

/-- Settles O35: at acceptance the two states agree on all that the operation may read, so they end alike. -/
theorem nothingCarriesOver : Obligations.NothingCarriesOver := by
  intro s u i hs hu howedS howedU hcfg hbuf hscript hdraws hhost
  obtain ⟨op, operands, hexec, hoperands, howed, hend⟩ := exec_sameEnd hhost
  have hexecS := (hexec s).trans (congrArg _ (request_idle op operands (runOf op) hs))
  have hexecU := (hexec u).trans (congrArg _ (request_idle op operands (runOf op) hu))
  have hnone : (operands s.r).wdOwed = (operands u.r).wdOwed := by rw [howed, howed, howedS, howedU]
  have haccept : Same op false (accept op (s.withRegs operands)) (accept op (u.withRegs operands)) :=
    ⟨hcfg, hbuf, rfl, hscript, hdraws, hoperands s.r u.r, hnone, nofun⟩
  obtain ⟨htrace, hbuf', hscript', hdraws', hout⟩ := hend haccept
  exact ⟨_, _, _, _, hexecS, hexecU, htrace, hbuf', hscript', hdraws', (runOf_accept op _).2, (runOf_accept op _).2,
    hout⟩

end Sys2Proof.Proofs.Noninterference
end
